-- ==== Sys2Proof/Word.lean ====
section
/-! DEFINITION. The word types of the block (00_scope.md section 6) and the fixed-length byte array. -/

namespace Sys2Proof

/-- A byte: 8 bits, bit 0 the least significant (00_scope.md section 6). -/
abbrev Byte := BitVec 8

/-- A word32 (00_scope.md section 6): the type of a CRC. -/
abbrev Word32 := BitVec 32

/-- A transfer handle. R69 leaves the type open and suggests 32 bits; the block only compares handles.
DESIGN CHOICE (log 9): 32 bits, safe. -/
abbrev Handle := BitVec 32

/-- The type of the start timestamp, recorded and never read (R3, R18).
DESIGN CHOICE (log 16): 32 bits, safe. -/
abbrev Time := BitVec 32

/-- A byte array of exactly `n` bytes, index 0 first (R40): the seven arrays of R12 and R14, and the payloads and
frames that operations take and give. -/
structure Bytes (n : Nat) where
  data : List Byte
  len : data.length = n
deriving DecidableEq, Repr

/-- 256 opaque bytes (R1, R41). -/
abbrev Payload := Bytes 256

/-- 260 bytes: the payload, then the CRC field (R41, R60). -/
abbrev Frame := Bytes 260

end Sys2Proof
end

