-- ==== Sys2Proof/Machine/Bytes.lean ====
section
/-! DEFINITION. Byte order (R42, R61, R83) and access to the named byte arrays: `MemRead`, `MemWrite` of 00_scope.md section 6. -/

namespace Sys2Proof

/-- `le32(w)`: the four bytes of a word32, least significant first (00_scope.md section 6, R42). -/
def le32 (w : Word32) : List Byte :=
  [w.extractLsb' 0 8, w.extractLsb' 8 8, w.extractLsb' 16 8, w.extractLsb' 24 8]

/-- `unle32`: the word32 whose four bytes, least significant first, are given (00_scope.md section 6, R61). -/
def unle32 (b0 b1 b2 b3 : Byte) : Word32 :=
  b0.setWidth 32 ||| b1.setWidth 32 <<< 8 ||| b2.setWidth 32 <<< 16 ||| b3.setWidth 32 <<< 24

/-- `n` bytes of one value: `NN×n` of R75. -/
def bytesOf (n : Nat) (b : Byte) : Bytes n :=
  ⟨List.replicate n b, List.length_replicate⟩

/-- The byte at index `i`, none outside the array. No rule computes an index from data (R40). -/
def byteAt {n : Nat} (a : Bytes n) (i : Nat) : Option Byte :=
  a.data[i]?

/-- `MemRead(buf, i, n)`: the `k` bytes from index `i` (00_scope.md section 6). -/
def memRead {n : Nat} (a : Bytes n) (i k : Nat) : List Byte :=
  (a.data.drop i).take k

/-- `MemWrite(buf, i, n, v)`: `v` stored from index `i`. A write past the end of the array never occurs
(00_scope.md section 6); it is given no effect. -/
def memWrite {n : Nat} (a : Bytes n) (i : Nat) (v : List Byte) : Bytes n :=
  if h : i + v.length ≤ n then
    ⟨a.data.take i ++ v ++ a.data.drop (i + v.length), by have := a.len; simp; omega⟩
  else a

/-- The array of a byte sequence, if it has exactly `n` bytes: a sequence of another length is no frame (R73). -/
def bytesOfList? (n : Nat) (l : List Byte) : Option (Bytes n) :=
  if h : l.length = n then some ⟨l, h⟩ else none

/-- Bytewise exclusive or of two arrays of one length: how the reference bus corrupts a frame (R114; log 23). -/
def xorBytes {n : Nat} (a m : Bytes n) : Bytes n :=
  ⟨List.zipWith (· ^^^ ·) a.data m.data, by simp [a.len, m.len]⟩

end Sys2Proof
end

