-- ==== Sys2Proof/Syntax.lean ====
section
/-! DEFINITION. The operations and events of rule R64 (30_encoding.md): one constructor per row of opcode_table.json. -/

namespace Sys2Proof

/-- `ROLE` (R3, R191): which of the two instances of the system (R7). -/
inductive Role where
  | master
  | slave
deriving DecidableEq, Repr

/-- `RawStatus` (R68): the transport's status of a completion. -/
inductive RawStatus where
  | ok
  | error
deriving DecidableEq, Repr

/-- The outcome of an attempt, `Outcome` of R67 and R180. The rule that produces each is in R180;
`configurationMismatch` is produced by none (R197). -/
inductive TransferOutcome where
  | crcValid
  | crcMismatch
  | timeout
  | aborted
  | cancelled
  | hardwareFault
  | configurationMismatch
deriving DecidableEq, Repr

/-- `Decision` (R68): the answer of the retry policy. -/
inductive Decision where
  | giveUp
  | retry
deriving DecidableEq, Repr

/-- The twenty operations and events of R64. Operands are those of the table in its order. `SYS.RESET`,
`DMA.START` and `DMA.ABORT` act on one instance of the system: for `DMA.START` the two buffer references name it, since
each instance has exactly one pair of frame buffers (R12, R14); for the two others it is the instance the record is
delivered to (R75, R200; log 2). -/
inductive Instr where
  /-- `SYS.RESET` (R200) of one instance. -/
  | sysReset (r : Role)
  /-- `CRC.COMPUTE(payload)` (R82). -/
  | crcCompute (payload : Payload)
  /-- `FC.ENCODE(payload)` (R90). -/
  | fcEncode (payload : Payload)
  /-- `FC.DECODE(buf, len)` (R91, R93). -/
  | fcDecode (buf : List Byte) (len : Nat)
  /-- `DMA.START(tx_frame, rx_buffer)` (R100) on the frame buffers of one instance. -/
  | dmaStart (r : Role)
  /-- `DMA.ABORT(handle)` (R102) on the channel of one instance. -/
  | dmaAbort (r : Role) (h : Handle)
  /-- `S.PROVIDE(payload)` (R121). -/
  | sProvide (payload : Payload)
  /-- `S.BEGIN(handle)` (R122). -/
  | sBegin (h : Handle)
  /-- `S.COMPLETE(handle, raw_status)` (R123). -/
  | sComplete (h : Handle) (st : RawStatus)
  /-- `S.REPORT` (R124), an internal step. -/
  | sReport
  /-- `S.ARM_TIMEOUT(handle)` (R125). -/
  | sArmTimeout (h : Handle)
  /-- `S.TRANSPORT_ABORT` (R127). -/
  | sTransportAbort
  /-- `M.SEND(payload)` (R141). -/
  | mSend (payload : Payload)
  /-- `M.ENCODE(now)` (R142), an internal step. -/
  | mEncode (now : Time)
  /-- `M.COMPLETE(handle, raw_status)` (R143). -/
  | mComplete (h : Handle) (st : RawStatus)
  /-- `M.TIMEOUT(handle)` (R144). -/
  | mTimeout (h : Handle)
  /-- `M.EVALUATE` (R145), an internal step. -/
  | mEvaluate
  /-- `M.RETRY(retry_payload)` (R146), an internal step. -/
  | mRetry (retryPayload : Option Payload)
  /-- `M.CANCEL` (R148). -/
  | mCancel
  /-- `RP.DECIDE(outcome, attempt_index, max_attempts)` (R170). -/
  | rpDecide (outcome : TransferOutcome) (attemptIndex maxAttempts : Nat)
deriving DecidableEq, Repr

end Sys2Proof
end

