-- ==== Sys2Proof/Config.lean ====
section
/-! DEFINITION. The protocol constants, the configuration parameters of R3, and the free values: the values the spec leaves
unconstrained (`any` of 00_scope.md section 6). -/

namespace Sys2Proof

/-- `BUFFER_SIZE` (R1). -/
def bufferSize : Nat := 256

/-- `CRC_SIZE` (R1). -/
def crcSize : Nat := 4

/-- `FRAME_SIZE` (R1): 260. -/
def frameSize : Nat := bufferSize + crcSize

/-- The reflected polynomial (R2). -/
def crcPoly : Word32 := 0xEDB88320

/-- The initial value of the CRC register (R2). -/
def crcInit : Word32 := 0xFFFFFFFF

/-- The final exclusive or of the CRC (R2). -/
def crcFinalXor : Word32 := 0xFFFFFFFF

/-- `ATTEMPT_BITS` (R3). -/
def attemptBits : Nat := 32

/-- `BACKOFF` (R3, R174): carried, no functional effect. DESIGN CHOICE (log 14): the spec names the three kinds and gives no
law and no constants (91_not_in_source.md N5), so what each kind carries is the model's: a fixed delay one natural, an
exponential one its base, one natural. No rule reads them. -/
inductive Backoff where
  | none
  | fixed (delay : Nat)
  | exponential (base : Nat)
deriving DecidableEq, Repr

/-- The parameters of a master instance (R3, R18): constant for its life. DESIGN CHOICE (log 14): durations are naturals
without a unit; no rule reads them. -/
structure MasterParams where
  bufferSize : Nat
  crcSize : Nat
  maxAttempts : Nat
  attemptTimeout : Nat
  backoff : Backoff
deriving DecidableEq, Repr

/-- The parameters of a slave instance (R3, R18). `armTimeout = none` disables the arm guard. -/
structure SlaveParams where
  bufferSize : Nat
  crcSize : Nat
  armTimeout : Option Nat
deriving DecidableEq, Repr

/-- A configuration a model accepts: the protocol constants at both ends (R1, R206 item 3) and
`1 <= MAX_ATTEMPTS < 2^ATTEMPT_BITS` (R3, R173). -/
def paramsLegal (m : MasterParams) (s : SlaveParams) : Bool :=
  m.bufferSize == bufferSize && m.crcSize == crcSize && s.bufferSize == bufferSize && s.crcSize == crcSize
    && decide (1 ≤ m.maxAttempts) && decide (m.maxAttempts < 2 ^ attemptBits)

/-- The `i`-th byte of the `n`-th draw of `any` bytes (93_implementation_defined.md U1 to U5, U30; log 12). -/
opaque Config.freeByte : Nat → Nat → Byte

/-- The word32 of the `n`-th draw: the `received_crc` of a wrong-length decode (R93, U4; logs 12, 28). -/
opaque Config.freeWord : Nat → Word32

/-- The handle of the `n`-th draw: a handle register after `SYS.RESET` (R201, R202; log 12). -/
opaque Config.freeHandle : Nat → Handle

/-- The time of the `n`-th draw: `now` of an internal `M.ENCODE` (R142) and `m_att_start` after `SYS.RESET` (log 12). -/
opaque Config.freeTime : Nat → Time

/-- The bit of the `n`-th draw: whether the application gives a retry payload (R146, U19), which `RawStatus` a
register holds after `SYS.RESET` (log 12), and `valid` of a decode whose `len` is 260 and not the length of `buf` (log 28). -/
opaque Config.freeBit : Nat → Bool

/-- The index, taken modulo seven, of the `Outcome` a register holds after `SYS.RESET` (R201, R202; log 12). -/
opaque Config.freeIndex : Nat → Nat

end Sys2Proof
end

