-- ==== Sys2Proof/WellFormed.lean ====
section
/-! DEFINITION. The checks on a record that its operand types do not already make (R64, R172). -/

namespace Sys2Proof

/-- `len` fits the record's four bytes of it (log 2); a `len` that is not the length of `buf` is no ill-formed record
(R91; log 28). The naturals of `RP.DECIDE`
fit in `ATTEMPT_BITS` bits, as those of the block do (R172). Every other operand is well-formed by its type. -/
def wellFormed : Instr → Bool
  | .sysReset _ => true
  | .crcCompute _ => true
  | .fcEncode _ => true
  | .fcDecode _ len => decide (len < 2 ^ 32)
  | .dmaStart _ => true
  | .dmaAbort _ _ => true
  | .sProvide _ => true
  | .sBegin _ => true
  | .sComplete _ _ => true
  | .sReport => true
  | .sArmTimeout _ => true
  | .sTransportAbort => true
  | .mSend _ => true
  | .mEncode _ => true
  | .mComplete _ _ => true
  | .mTimeout _ => true
  | .mEvaluate => true
  | .mRetry _ => true
  | .mCancel => true
  | .rpDecide _ a m => decide (a < 2 ^ attemptBits) && decide (m < 2 ^ attemptBits)

end Sys2Proof
end

