-- ==== Sys2Proof/Decode.lean ====
section
/-! DEFINITION. The record format `record8` of R63 and R64: the decoder, total on any bytes, and the encoder after it.
A record is the 8-bit code and then the operands of its row in the order of R64. R63 packs no record, so how one operand is
laid out in bytes is the model's (log 2): a buffer reference is one byte (0 master, 1 slave), a handle, a time and a natural
are four bytes little-endian, `raw_status` is one byte (R68; 95_test_vectors.md section 3), an outcome is one byte holding its
code (R67), `retry_payload` is preceded by one byte (0 absent, 1 present), and each byte of a sequence of any length is
preceded by 1 and the sequence ended by 0. The instance a record is delivered to is no operand (R63, R75): it stands beside
the record, and only `SYS.RESET` and `DMA.ABORT` need it. -/

namespace Sys2Proof

/-- Why a byte sequence is no record. -/
inductive DecodeError where
  /-- The code is not in R64 (R70). -/
  | reservedCode (code : Byte)
  /-- An operand byte holds a code that its enumeration reserves (R67, R68, R70; log 2). -/
  | reservedOperand (value : Byte)
  /-- The bytes end before the record does. -/
  | truncated
deriving DecidableEq, Repr

/-- Reads one operand field: its value and the bytes after it. -/
abbrev OperandField (α : Type) := List Byte → Except DecodeError (α × List Byte)

/-- A field of no bytes. -/
def fieldDone {α : Type} (a : α) : OperandField α := fun bs => .ok (a, bs)

/-- One field, then another that may depend on it. -/
def fieldThen {α β : Type} (f : OperandField α) (g : α → OperandField β) : OperandField β := fun bs =>
  match f bs with
  | .ok (a, rest) => g a rest
  | .error e => .error e

/-- A field of `n` bytes. -/
def readBytes (n : Nat) : OperandField (Bytes n) := fun bs =>
  if h : (bs.take n).length = n then .ok (⟨bs.take n, h⟩, bs.drop n) else .error .truncated

/-- A field of one byte. -/
def readByte : OperandField Byte
  | b :: bs => .ok (b, bs)
  | [] => .error .truncated

/-- A field of four bytes, least significant first. -/
def readWord : OperandField Word32
  | b0 :: b1 :: b2 :: b3 :: bs => .ok (unle32 b0 b1 b2 b3, bs)
  | _ => .error .truncated

/-- The byte of a reference to a frame buffer: the instance whose buffer it is. -/
def roleByte : Role → Byte
  | .master => 0
  | .slave => 1

/-- The instance whose buffer a byte refers to. -/
def roleOfByte? (b : Byte) : Option Role :=
  if b = 0 then some .master else if b = 1 then some .slave else none

/-- `RawStatus` code (R68). -/
def rawStatusCode : RawStatus → BitVec 1
  | .ok => 0
  | .error => 1

/-- `RawStatus` of a byte (R68; `Ok = 00`, `Error = 01` in 95_test_vectors.md section 3). -/
def rawStatusOfByte? (b : Byte) : Option RawStatus :=
  if b = 0 then some .ok else if b = 1 then some .error else none

/-- `Decision` code (R68). -/
def decisionCode : Decision → BitVec 1
  | .giveUp => 0
  | .retry => 1

/-- `Decision` of a code (R68). -/
def decisionOfCode (c : BitVec 1) : Decision := if c = 0 then .giveUp else .retry

/-- `Outcome` code (R67). -/
def outcomeCode : TransferOutcome → BitVec 3
  | .crcValid => 0
  | .crcMismatch => 1
  | .timeout => 2
  | .aborted => 3
  | .cancelled => 4
  | .hardwareFault => 5
  | .configurationMismatch => 6

/-- `Outcome` of a code; 7 is reserved (R67). -/
def outcomeOfCode? (c : BitVec 3) : Option TransferOutcome :=
  if c = 0 then some .crcValid
  else if c = 1 then some .crcMismatch
  else if c = 2 then some .timeout
  else if c = 3 then some .aborted
  else if c = 4 then some .cancelled
  else if c = 5 then some .hardwareFault
  else if c = 6 then some .configurationMismatch
  else none

/-- `Outcome` of an operand byte: its code in bits 2:0, zeros above. -/
def outcomeOfByte? (b : Byte) : Option TransferOutcome :=
  if b.extractLsb' 3 5 = 0 then outcomeOfCode? (b.extractLsb' 0 3) else none

/-- A one-byte enumeration field; a code the enumeration reserves is refused by name (R70). -/
def readEnum {α : Type} (ofByte? : Byte → Option α) : OperandField α :=
  fieldThen readByte fun b =>
    match ofByte? b with
    | some a => fieldDone a
    | none => fun _ => .error (.reservedOperand b)

/-- A reference to a frame buffer of an instance. -/
def readRole : OperandField Role := readEnum roleOfByte?

/-- A natural in four bytes. -/
def readNat : OperandField Nat := fieldThen readWord fun w => fieldDone w.toNat

/-- A byte sequence of any length: each byte after a 1, and a 0 at its end (log 2). -/
def readSequence : OperandField (List Byte)
  | [] => .error .truncated
  | [m] => if m = 0 then .ok ([], []) else if m = 1 then .error .truncated else .error (.reservedOperand m)
  | m :: b :: bs =>
    if m = 0 then .ok ([], b :: bs)
    else if m = 1 then
      match readSequence bs with
      | .ok (data, rest) => .ok (b :: data, rest)
      | .error e => .error e
    else .error (.reservedOperand m)

/-- The operands of `FC.DECODE` in R64's order: `buf`, then `len`, whether or not it is the length of `buf` (log 28). -/
def readSequenceAndLength : OperandField Instr :=
  fieldThen readSequence fun buf => fieldThen readNat fun len => fieldDone (.fcDecode buf len)

/-- A payload that may be absent. -/
def readOptionalPayload : OperandField (Option Payload) :=
  fieldThen readByte fun b =>
    if b = 0 then fieldDone none
    else if b = 1 then fieldThen (readBytes 256) fun p => fieldDone (some p)
    else fun _ => .error (.reservedOperand b)

/-- The two buffer references of `DMA.START`: the pair must be one instance's (R12, R14). -/
def readBufferPair : OperandField Role :=
  fieldThen readRole fun r =>
    fieldThen readRole fun r' =>
      if r' = r then fieldDone r else fun _ => .error (.reservedOperand (roleByte r'))

/-- The operands, in R64's order, of the record with a given code, delivered to instance `dest`. A code not in R64 is refused
by name (R70). -/
def decodeOperands (dest : Role) (code : Byte) : OperandField Instr :=
  if code = 0x00 then fieldDone (.sysReset dest)
  else if code = 0x10 then fieldThen (readBytes 256) fun p => fieldDone (.crcCompute p)
  else if code = 0x20 then fieldThen (readBytes 256) fun p => fieldDone (.fcEncode p)
  else if code = 0x21 then readSequenceAndLength
  else if code = 0x30 then fieldThen readBufferPair fun r => fieldDone (.dmaStart r)
  else if code = 0x31 then fieldThen readWord fun h => fieldDone (.dmaAbort dest h)
  else if code = 0x40 then fieldThen (readBytes 256) fun p => fieldDone (.sProvide p)
  else if code = 0x41 then fieldThen readWord fun h => fieldDone (.sBegin h)
  else if code = 0x42 then
    fieldThen readWord fun h => fieldThen (readEnum rawStatusOfByte?) fun st => fieldDone (.sComplete h st)
  else if code = 0x43 then fieldDone .sReport
  else if code = 0x44 then fieldThen readWord fun h => fieldDone (.sArmTimeout h)
  else if code = 0x45 then fieldDone .sTransportAbort
  else if code = 0x50 then fieldThen (readBytes 256) fun p => fieldDone (.mSend p)
  else if code = 0x51 then fieldThen readWord fun t => fieldDone (.mEncode t)
  else if code = 0x52 then
    fieldThen readWord fun h => fieldThen (readEnum rawStatusOfByte?) fun st => fieldDone (.mComplete h st)
  else if code = 0x53 then fieldThen readWord fun h => fieldDone (.mTimeout h)
  else if code = 0x54 then fieldDone .mEvaluate
  else if code = 0x55 then fieldThen readOptionalPayload fun p => fieldDone (.mRetry p)
  else if code = 0x56 then fieldDone .mCancel
  else if code = 0x60 then
    fieldThen (readEnum outcomeOfByte?) fun o =>
      fieldThen readNat fun a => fieldThen readNat fun m => fieldDone (.rpDecide o a m)
  else fun _ => .error (.reservedCode code)

/-- The record at the front of a byte sequence delivered to instance `dest`, and the bytes after it. -/
def decode (dest : Role) : OperandField Instr := fieldThen readByte (decodeOperands dest)

/-- The code of R64. -/
def opcode : Instr → Byte
  | .sysReset _ => 0x00
  | .crcCompute _ => 0x10
  | .fcEncode _ => 0x20
  | .fcDecode _ _ => 0x21
  | .dmaStart _ => 0x30
  | .dmaAbort _ _ => 0x31
  | .sProvide _ => 0x40
  | .sBegin _ => 0x41
  | .sComplete _ _ => 0x42
  | .sReport => 0x43
  | .sArmTimeout _ => 0x44
  | .sTransportAbort => 0x45
  | .mSend _ => 0x50
  | .mEncode _ => 0x51
  | .mComplete _ _ => 0x52
  | .mTimeout _ => 0x53
  | .mEvaluate => 0x54
  | .mRetry _ => 0x55
  | .mCancel => 0x56
  | .rpDecide _ _ _ => 0x60

/-- The byte of a `RawStatus` operand. -/
def rawStatusByte (st : RawStatus) : Byte := (rawStatusCode st).setWidth 8

/-- The byte of an `Outcome` operand. -/
def outcomeByte (o : TransferOutcome) : Byte := (outcomeCode o).setWidth 8

/-- A natural below `2^32` in four bytes. -/
def natBytes (n : Nat) : List Byte := le32 (BitVec.ofNat 32 n)

/-- The bytes of a sequence of any length, as `readSequence` reads them (log 2). -/
def sequenceBytes : List Byte → List Byte
  | [] => [0]
  | b :: bs => 1 :: b :: sequenceBytes bs

/-- The operand bytes of a record, in R64's order and the layout of this file's header. -/
def encodeOperands : Instr → List Byte
  | .sysReset _ => []
  | .crcCompute p => p.data
  | .fcEncode p => p.data
  | .fcDecode buf len => sequenceBytes buf ++ natBytes len
  | .dmaStart r => [roleByte r, roleByte r]
  | .dmaAbort _ h => le32 h
  | .sProvide p => p.data
  | .sBegin h => le32 h
  | .sComplete h st => le32 h ++ [rawStatusByte st]
  | .sReport => []
  | .sArmTimeout h => le32 h
  | .sTransportAbort => []
  | .mSend p => p.data
  | .mEncode now => le32 now
  | .mComplete h st => le32 h ++ [rawStatusByte st]
  | .mTimeout h => le32 h
  | .mEvaluate => []
  | .mRetry none => [0]
  | .mRetry (some p) => 1 :: p.data
  | .mCancel => []
  | .rpDecide o a m => outcomeByte o :: (natBytes a ++ natBytes m)

/-- The bytes of a record: its code, then its operand fields (R63). -/
def encode (i : Instr) : List Byte := opcode i :: encodeOperands i

/-- The instance that the record of `i` must be delivered to: for the two rows whose operands name none, the one they act
on; for every other row any instance will do. -/
def addressee (i : Instr) (any : Role) : Role :=
  match i with
  | .sysReset r => r
  | .crcCompute _ => any
  | .fcEncode _ => any
  | .fcDecode _ _ => any
  | .dmaStart _ => any
  | .dmaAbort r _ => r
  | .sProvide _ => any
  | .sBegin _ => any
  | .sComplete _ _ => any
  | .sReport => any
  | .sArmTimeout _ => any
  | .sTransportAbort => any
  | .mSend _ => any
  | .mEncode _ => any
  | .mComplete _ _ => any
  | .mTimeout _ => any
  | .mEvaluate => any
  | .mRetry _ => any
  | .mCancel => any
  | .rpDecide _ _ _ => any

/-- The longest record whose length its code and zero operands fix: `M.RETRY` with a payload. -/
def longestRecord : Nat := 258

/-- The bytes of a record given as a number of `nbits` bits, first byte lowest, and zeros after it (log 3). -/
def layoutWord (nbits w : Nat) : List Byte :=
  (List.range ((nbits + 7) / 8)).map (fun k => BitVec.ofNat 8 (w >>> (8 * k))) ++ List.replicate longestRecord 0

/-- The instruction the decoder reads from a record given as a number and delivered to the master (log 3). -/
def decodeTableWord (nbits w : Nat) : Option Instr :=
  match decode .master (layoutWord nbits w) with
  | .ok (i, _) => some i
  | .error _ => none

end Sys2Proof
end

