-- ==== Sys2Proof/Machine/Crc.lean ====
section
/-! DEFINITION. The CRC engine (40_crc_engine.md): the bit-serial procedure of R81 and its table-driven twin of R85. -/

namespace Sys2Proof.Machine

/-- One shift step of R81: logical right shift by one, and the polynomial when the bit shifted out was 1 (R83). -/
def crcShift (c : Word32) : Word32 :=
  if c.getLsbD 0 then (c >>> 1) ^^^ crcPoly else c >>> 1

/-- `k` shift steps. -/
def crcShifts : Nat → Word32 → Word32
  | 0, c => c
  | k + 1, c => crcShifts k (crcShift c)

/-- One byte of R81: the byte enters the low 8 bits, then eight shift steps. -/
def crcByte (c : Word32) (b : Byte) : Word32 :=
  crcShifts 8 (c ^^^ b.setWidth 32)

/-- `crc32_bytes(B)` of R81, for a byte sequence of any length. -/
def crc32Bytes (B : List Byte) : Word32 :=
  B.foldl crcByte crcInit ^^^ crcFinalXor

/-- `CRC.COMPUTE(payload)` (R82): over the 256 payload bytes only (R87). -/
def crcCompute (p : Payload) : Word32 :=
  crc32Bytes p.data

/-- `T[k]` of R85. -/
def crcTable (k : Byte) : Word32 :=
  crcShifts 8 (k.setWidth 32)

/-- The byte step of the table-driven form of R85. -/
def crcByteTable (c : Word32) (b : Byte) : Word32 :=
  (c >>> 8) ^^^ crcTable ((c ^^^ b.setWidth 32).setWidth 8)

/-- The table-driven form of `crc32_bytes` (R85), a twin of `crc32Bytes`. -/
def crc32BytesTable (B : List Byte) : Word32 :=
  B.foldl crcByteTable crcInit ^^^ crcFinalXor

end Sys2Proof.Machine
end

