-- ==== Sys2Proof/Machine/Free.lean ====
section
/-! DEFINITION. Free values built from the opaque constants of Config.lean: what the spec writes `any`
(00_scope.md section 6; log 12). `n` is the index of the draw. -/

namespace Sys2Proof.Machine

/-- `k` free bytes of the `n`-th draw, the first of them the draw's byte `off`: arrays drawn together take disjoint
parts of the draw. -/
def freeBytes (n k off : Nat) : Bytes k :=
  ⟨(List.range k).map fun i => Config.freeByte n (off + i), by simp⟩

/-- A free payload. -/
def freePayload (n : Nat) : Payload := freeBytes n 256 0

/-- A free frame. -/
def freeFrame (n : Nat) : Frame := freeBytes n 260 0

/-- A free `RawStatus`. -/
def freeRawStatus (n : Nat) : RawStatus :=
  if Config.freeBit n then .error else .ok

/-- A free `Outcome`: any of the seven. -/
def freeOutcome (n : Nat) : TransferOutcome :=
  match Config.freeIndex n % 7 with
  | 0 => .crcValid
  | 1 => .crcMismatch
  | 2 => .timeout
  | 3 => .aborted
  | 4 => .cancelled
  | 5 => .hardwareFault
  | _ => .configurationMismatch

/-- A free `retry_payload`: absent, or any 256 bytes (R146, U19). -/
def freeRetryPayload (n : Nat) : Option Payload :=
  if Config.freeBit n then some (freePayload n) else none

end Sys2Proof.Machine
end

