-- ==== Sys2Proof/Machine/Codec.lean ====
section
/-! DEFINITION. The frame codec (41_frame_codec.md): assembly of a frame from a payload, and its decomposition. -/

namespace Sys2Proof.Machine

/-- `FC.ENCODE(payload)` (R90): the payload at 0 to 255, its CRC little-endian at 256 to 259 (R61, R62). -/
def frameEncode (p : Payload) : Frame :=
  ⟨p.data ++ le32 (crcCompute p), by simp [p.len, le32]⟩

/-- The payload field of a frame: bytes 0 to 255 (R62). -/
def framePayload (f : Frame) : Payload :=
  ⟨memRead f 0 256, by simp [memRead, f.len]⟩

/-- The byte of a frame at an index below 260. -/
def frameByte (f : Frame) (i : Nat) : Byte :=
  f.data.getD i 0

/-- `received_crc` of a frame: bytes 256 to 259, least significant first (R61). -/
def frameCrc (f : Frame) : Word32 :=
  unle32 (frameByte f 256) (frameByte f 257) (frameByte f 258) (frameByte f 259)

/-- A frame is well-formed when its CRC field is the CRC of its payload (R60): the `valid` bit of R91, computed anew at
every decode (R212). -/
def frameValid (f : Frame) : Bool :=
  crcCompute (framePayload f) == frameCrc f

/-- The results of `FC.DECODE` (R91). -/
structure Decoded where
  payload : Payload
  receivedCrc : Word32
  valid : Bool
deriving DecidableEq, Repr

/-- `FC.DECODE` of a whole frame (R91): payload and received CRC as received, whether or not they agree. -/
def frameDecode (f : Frame) : Decoded :=
  { payload := framePayload f, receivedCrc := frameCrc f, valid := frameValid f }

/-- `FC.DECODE(buf, len)` (R91, R93). At a `len` other than 260 there is no frame: `valid` is 0, the two other results are
the free values of draw `n`. DESIGN CHOICE (log 28): `len` is the length of `buf` (R91), and for a `len` of 260 that is not,
the spec states no result; all three results are then free values of that draw. -/
def sequenceDecode (n : Nat) (buf : List Byte) (len : Nat) : Decoded :=
  if len = 260 then
    match bytesOfList? 260 buf with
    | some f => frameDecode f
    | none => { payload := freePayload n, receivedCrc := Config.freeWord n, valid := Config.freeBit n }
  else { payload := freePayload n, receivedCrc := Config.freeWord n, valid := false }

end Sys2Proof.Machine
end

