-- ==== Sys2Proof/Machine/State.lean ====
section
/-! DEFINITION. The state of the system of R7: one master instance (R12), one slave instance (R14), their channels and
timers (R19 to R21), their fault marks (R22), the reference transport's pairing (R114), what has been emitted (R74), and what
the environment offers next (R24). -/

namespace Sys2Proof.Machine

/-- The states of the master FSM (R13). -/
inductive MState where
  | idle
  | encoding
  | transferring
  | evaluating
  | retrying
  | success
  | failed
deriving DecidableEq, Repr

/-- The states of the slave FSM (R15). -/
inductive SState where
  | idle
  | armed
  | receiving
  | completed
deriving DecidableEq, Repr

/-- `AttemptStatus` (R16). -/
inductive AttemptStatus where
  | noAttempt
  | pending
  | complete
  | aborted
  | timedOut
deriving DecidableEq, Repr

/-- The fault reasons of R22. -/
inductive FaultReason where
  /-- `DMA.START` while a transfer is active (R104). -/
  | startWhileActive
  /-- The FSM touches a frame buffer while the adapter owns it (R47). -/
  | bufferOwnership
deriving DecidableEq, Repr

/-- The reports to the applications: exactly those of R74. -/
inductive Report where
  | success (receivedPayload : Payload)
  | failed (reason : TransferOutcome) (attempts : Nat)
  | frameReceived (outcome : TransferOutcome) (payload : Payload)
  | busy (r : Role)
deriving DecidableEq, Repr

/-- What a step produces for a receiver outside the FSMs (00_scope.md section 6 `emit`; R64 column results; log 17). -/
inductive Output where
  /-- A report to an application (R74). -/
  | report (rep : Report)
  /-- The command `DMA.START` issued on an instance's channel, and the handle it returned (R100). -/
  | dmaStart (r : Role) (h : Handle)
  /-- The command `DMA.ABORT` issued on an instance's channel (R102). -/
  | dmaAbort (r : Role) (h : Handle)
  /-- The result of `CRC.COMPUTE` (R82). -/
  | crc (w : Word32)
  /-- The result of `FC.ENCODE` (R90). -/
  | frame (f : Frame)
  /-- The results of `FC.DECODE` (R91). -/
  | decoded (payload : Payload) (receivedCrc : Word32) (valid : Bool)
  /-- The result of `RP.DECIDE` (R170). -/
  | decision (d : Decision)
deriving DecidableEq, Repr

/-- The parameters of the bus. `reference` says whether the transport is the reference transport of R114 or any transport
the contract admits; the others are R114's, per exchange. A corruption, a function from 260 bytes to 260 bytes, is the mask
by which it differs from the identity on the frame of that exchange (log 23). -/
structure BusParams where
  /-- The transport is the reference transport (R114). -/
  reference : Bool
  /-- `corrupt_m2s` (R114): exclusive-ored with the master's frame. -/
  corruptM2s : Frame
  /-- `corrupt_s2m` (R114): exclusive-ored with the slave's frame. -/
  corruptS2m : Frame
  /-- `complete_unpaired` (R114): a master transfer completes when no slave was armed. -/
  completeUnpaired : Bool
deriving DecidableEq, Repr

/-- What the transport may do besides delivering notifications (R102, R105, R106, R112 to R114; logs 9, 10, 11, 23). -/
inductive EnvAct where
  /-- The adapter of an instance has written its rx buffer for the transfer `h`: any 260 bytes (R106). -/
  | rxWrite (r : Role) (h : Handle) (bytes : Frame)
  /-- The bus has clocked the paired peer's frame, as corrupted, into an instance's rx buffer (R106, R107). -/
  | clock (r : Role)
  /-- The master's clocking ends (R112). -/
  | endExchange
  /-- The reference transport's exchange end (R114), the completion of the one or of the other instance delivered first. -/
  | finish (masterFirst : Bool)
  /-- The bus gets other parameters (R114). -/
  | bus (b : BusParams)
  /-- The adapter of an instance chooses the handle it will return next (U12). -/
  | nextHandle (r : Role) (h : Handle)
  /-- The adapter of an instance chooses whether an aborted handle stays pending (U6). -/
  | abortKeeps (r : Role) (keeps : Bool)
deriving DecidableEq, Repr

/-- What the environment offers: one record delivered to an instance (R63, R75), or one action of the transport. -/
inductive Input where
  | record (dest : Role) (bytes : List Byte)
  | env (a : EnvAct)
deriving DecidableEq, Repr

/-- One DMA channel (R19, R20), and the model's own fields for the adapter's liberties. -/
structure Channel where
  /-- `ch_active` (R19). -/
  active : Bool
  /-- `ch_handle` (R19), meaningful only while active. -/
  handle : Handle
  /-- `ch_pending` (R20), a set: strictly rising. -/
  pending : List Handle
  /-- The model's: where the adapter's choice of the next handle starts (R69, U12; log 9). -/
  next : Handle
  /-- The model's: whether the adapter keeps an aborted handle pending (R102, U6; log 10). -/
  keep : Bool
  /-- Whether the notification that this transfer's exchange begins was delivered, which happens at most once per transfer
  (R110, R183). Only a slave's channel uses it. -/
  begun : Bool
  /-- The model's: the transfers that `SYS.RESET` cut off, whose completion was not delivered yet: each of them the adapter
  may still run (R204; log 18). A set: strictly rising. -/
  orphans : List Handle
deriving DecidableEq, Repr

/-- A master instance (R12), with its channel (R19, R20), timer (R21), fault mark (R22) and parameters (R18). -/
structure MasterInst where
  state : MState
  payload : Payload
  txFrame : Frame
  rxBuffer : Frame
  attempts : Nat
  attStatus : AttemptStatus
  attStart : Time
  handle : Handle
  rawStatus : RawStatus
  outcome : TransferOutcome
  outcomeValid : Bool
  rxPayload : Payload
  ch : Channel
  tmPending : List Handle
  fault : List FaultReason
  cfg : MasterParams
deriving DecidableEq, Repr

/-- A slave instance (R14), with its channel, timer, fault mark and parameters. -/
structure SlaveInst where
  state : SState
  payload : Payload
  txFrame : Frame
  rxBuffer : Frame
  handle : Handle
  attStatus : AttemptStatus
  rawStatus : RawStatus
  outcome : TransferOutcome
  outcomeValid : Bool
  ch : Channel
  tmPending : List Handle
  fault : List FaultReason
  cfg : SlaveParams
deriving DecidableEq, Repr

/-- `x_pair` (R114): the exchange that began at the master's last `DMA.START`. -/
structure Exchange where
  /-- The master's transfer. -/
  hm : Handle
  /-- The slave's transfer, absent when the slave was not armed (R108). -/
  hs : Option Handle
  /-- The bytes that arrive at the slave. -/
  m2s : Frame
  /-- The bytes that arrive at the master: any, when the slave was not armed. -/
  s2m : Frame
  /-- The model's: a slave transfer that armed while the master was clocking and that the exchange reached (R108, R112;
  log 27). -/
  late : Option Handle
deriving DecidableEq, Repr

/-- The state of the system. -/
structure State where
  master : MasterInst
  slave : SlaveInst
  /-- `x_pair` (R114). -/
  xPair : Option Exchange
  /-- The slave transfers that have exchanged bytes with a master transfer, which each does with at most one (R112; log 27).
  A set: strictly rising. -/
  xMet : List Handle
  /-- The parameters of the bus (R114; log 23). -/
  bus : BusParams
  /-- Everything emitted so far, oldest first (log 17). -/
  outputs : List Output
  /-- The model's: what the environment offers next, first at the head (R24; log 4). -/
  input : List Input
  /-- The model's: how many draws of free values have been made (log 12). -/
  free : Nat
deriving DecidableEq, Repr

/-- Why the machine stops. -/
inductive Fault where
  /-- Raised by every record but `SYS.RESET` that is a step of an instance whose fault mark is not empty: "the instance
  takes no further step of its own" (R22, R207). The reason is the first recorded. Safe: no next state is claimed (log 8). -/
  | instanceFaulted (r : Role) (reason : FaultReason)
deriving DecidableEq, Repr

/-- Why a step has no meaning. -/
inductive Refusal where
  /-- Raised by `exec` for an instruction without a meaning; no arm does. Safe. -/
  | notModelled (mnemonic : String)
  /-- Raised by `step` for a record whose code R64 does not list (R70). Safe: no next state is claimed. -/
  | reservedCode (code : Byte)
  /-- Raised by `step` for a record with a reserved operand code (R70; log 2). Safe. -/
  | reservedOperand (value : Byte)
  /-- Raised by `step` for a record that ends before its operands do (log 2). Safe. -/
  | truncatedRecord
  /-- Raised by `step` under a configuration the spec has a model refuse (R1, R3, R173; U27; log 19). Safe. -/
  | illegalConfiguration
deriving DecidableEq, Repr

/-- A channel after reset (R203). `active` is the spec's; the pending set is empty because nothing was started yet
(log 13). DESIGN CHOICE: the values of `handle`, `next`, `keep`, `begun` and `orphans` (logs 9, 10, 13, 18, 20). -/
def Channel.reset : Channel :=
  { active := false, handle := 0, pending := [], next := 0, keep := false, begun := false, orphans := [] }

/-- A master instance after reset (R201, R203). `state`, `attempts`, `attStatus`, `outcomeValid`, `fault` are the spec's.
DESIGN CHOICE: the registers the spec leaves unspecified hold zeros (log 13, unsafe), and the open parameters the values
of log 14 (unsafe). -/
def MasterInst.reset : MasterInst :=
  { state := .idle
    payload := bytesOf 256 0
    txFrame := bytesOf 260 0
    rxBuffer := bytesOf 260 0
    attempts := 0
    attStatus := .noAttempt
    attStart := 0
    handle := 0
    rawStatus := .ok
    outcome := .crcValid
    outcomeValid := false
    rxPayload := bytesOf 256 0
    ch := Channel.reset
    tmPending := []
    fault := []
    cfg := { bufferSize := bufferSize, crcSize := crcSize, maxAttempts := 1, attemptTimeout := 0, backoff := .none } }

/-- A slave instance after reset (R202, R203). `state`, `attStatus`, `outcomeValid`, `fault` are the spec's.
DESIGN CHOICE: the rest as in `MasterInst.reset` (logs 13, 14, unsafe). -/
def SlaveInst.reset : SlaveInst :=
  { state := .idle
    payload := bytesOf 256 0
    txFrame := bytesOf 260 0
    rxBuffer := bytesOf 260 0
    handle := 0
    attStatus := .noAttempt
    rawStatus := .ok
    outcome := .crcValid
    outcomeValid := false
    ch := Channel.reset
    tmPending := []
    fault := []
    cfg := { bufferSize := bufferSize, crcSize := crcSize, armTimeout := some 0 } }

/-- The bus before any exchange: DESIGN CHOICE, any transport of the contract, and R114's parameters at the identity and
false (log 23). -/
def BusParams.reset : BusParams :=
  { reference := false, corruptM2s := bytesOf 260 0, corruptS2m := bytesOf 260 0, completeUnpaired := false }

/-- The machine right after reset of both instances (R200 to R203). Nothing has been emitted and the environment
offers nothing yet (logs 4, 17). DESIGN CHOICE: no exchange has begun (logs 23, 27). -/
def State.reset : State :=
  { master := MasterInst.reset
    slave := SlaveInst.reset
    xPair := none
    xMet := []
    bus := BusParams.reset
    outputs := []
    input := []
    free := 0 }

end Sys2Proof.Machine
end

