-- ==== Sys2Proof/Machine/Flags.lean ====
section
/-! DEFINITION. The flag-like values of R17: the codes of the state registers (R65, R66), the outcome of an attempt (R187),
the decision of the retry policy (R170), the level `payload_request` (R74). There is no condition-code register (R17). -/

namespace Sys2Proof.Machine

/-- `MState` code (R65). -/
def mStateCode : MState → BitVec 3
  | .idle => 0
  | .encoding => 1
  | .transferring => 2
  | .evaluating => 3
  | .retrying => 4
  | .success => 5
  | .failed => 6

/-- `MState` of a code; 7 is reserved (R65). -/
def mStateOfCode? (c : BitVec 3) : Option MState :=
  if c = 0 then some .idle
  else if c = 1 then some .encoding
  else if c = 2 then some .transferring
  else if c = 3 then some .evaluating
  else if c = 4 then some .retrying
  else if c = 5 then some .success
  else if c = 6 then some .failed
  else none

/-- `SState` code (R65). -/
def sStateCode : SState → BitVec 2
  | .idle => 0
  | .armed => 1
  | .receiving => 2
  | .completed => 3

/-- `SState` of a code (R65). -/
def sStateOfCode (c : BitVec 2) : SState :=
  if c = 0 then .idle else if c = 1 then .armed else if c = 2 then .receiving else .completed

/-- `AttemptStatus` code (R66). -/
def attStatusCode : AttemptStatus → BitVec 3
  | .noAttempt => 0
  | .pending => 1
  | .complete => 2
  | .aborted => 3
  | .timedOut => 4

/-- `AttemptStatus` of a code; 5 to 7 are reserved (R66). -/
def attStatusOfCode? (c : BitVec 3) : Option AttemptStatus :=
  if c = 0 then some .noAttempt
  else if c = 1 then some .pending
  else if c = 2 then some .complete
  else if c = 3 then some .aborted
  else if c = 4 then some .timedOut
  else none

/-- The outcome of a completed transfer, in the fixed order of R187: a transport error first, without decoding, then the
CRC comparison (R145, R124). -/
def completionOutcome (st : RawStatus) (rx : Frame) : TransferOutcome :=
  match st with
  | .error => .hardwareFault
  | .ok => if frameValid rx then .crcValid else .crcMismatch

/-- The outcomes the policy may retry (R170; 90_conflicts.md C3). -/
def retryable : TransferOutcome → Bool
  | .crcValid => false
  | .crcMismatch => true
  | .timeout => true
  | .aborted => false
  | .cancelled => false
  | .hardwareFault => true
  | .configurationMismatch => false

/-- `RP.DECIDE` (R170): the comparison is strict and of naturals (R172). -/
def policyDecide (o : TransferOutcome) (attemptIndex maxAttempts : Nat) : Decision :=
  if retryable o = true ∧ attemptIndex < maxAttempts then .retry else .giveUp

/-- The level `payload_request`: 1 exactly when `s_state = S_Idle` (R74). -/
def payloadRequest (s : State) : Bool :=
  s.slave.state == .idle

/-- Both ends' parameters are ones a model accepts (R1, R3, R173). -/
def configLegal (s : State) : Bool :=
  paramsLegal s.master.cfg s.slave.cfg

end Sys2Proof.Machine
end

