-- ==== Sys2Proof/Machine/Operands.lean ====
section
/-! DEFINITION. Operand access: the seven named arrays of R40, and the instance, channel and frame buffers that an operand
names by reference (R100). -/

namespace Sys2Proof.Machine

/-- The seven byte arrays of R40. -/
inductive Buffer where
  | mPayload
  | mTxFrame
  | mRxBuffer
  | mRxPayload
  | sPayload
  | sTxFrame
  | sRxBuffer
deriving DecidableEq, Repr

/-- The bytes of a named array. -/
def State.buffer (s : State) : Buffer → List Byte
  | .mPayload => s.master.payload.data
  | .mTxFrame => s.master.txFrame.data
  | .mRxBuffer => s.master.rxBuffer.data
  | .mRxPayload => s.master.rxPayload.data
  | .sPayload => s.slave.payload.data
  | .sTxFrame => s.slave.txFrame.data
  | .sRxBuffer => s.slave.rxBuffer.data

/-- One byte of a named array: the model's read of one byte. -/
def State.readByte (s : State) (b : Buffer) (i : Nat) : Option Byte :=
  (s.buffer b)[i]?

/-- The rx buffer of an instance. -/
def rxBufferOf : Role → Buffer
  | .master => .mRxBuffer
  | .slave => .sRxBuffer

/-- The tx frame of an instance. -/
def txFrameOf : Role → Buffer
  | .master => .mTxFrame
  | .slave => .sTxFrame

/-- The channel of an instance (R19). -/
def State.channel (s : State) : Role → Channel
  | .master => s.master.ch
  | .slave => s.slave.ch

/-- The handles for which an instance's timer is pending (R21). -/
def State.timer (s : State) : Role → List Handle
  | .master => s.master.tmPending
  | .slave => s.slave.tmPending

/-- The fault mark of an instance (R22). -/
def State.faultMark (s : State) : Role → List FaultReason
  | .master => s.master.fault
  | .slave => s.slave.fault

/-- The content of an instance's tx frame. -/
def State.txContent (s : State) : Role → Frame
  | .master => s.master.txFrame
  | .slave => s.slave.txFrame

/-- The content of an instance's rx buffer. -/
def State.rxContent (s : State) : Role → Frame
  | .master => s.master.rxBuffer
  | .slave => s.slave.rxBuffer

/-- `s` with another master instance. -/
def State.withMaster (s : State) (m : MasterInst) : State := { s with master := m }

/-- `s` with another slave instance. -/
def State.withSlave (s : State) (v : SlaveInst) : State := { s with slave := v }

/-- `s` with another channel for an instance. -/
def State.withChannel (s : State) (r : Role) (c : Channel) : State :=
  match r with
  | .master => s.withMaster { s.master with ch := c }
  | .slave => s.withSlave { s.slave with ch := c }

/-- `s` with other content in an instance's rx buffer. -/
def State.withRx (s : State) (r : Role) (f : Frame) : State :=
  match r with
  | .master => s.withMaster { s.master with rxBuffer := f }
  | .slave => s.withSlave { s.slave with rxBuffer := f }

/-- `s` with a reason appended to an instance's fault mark, and nothing else changed (R22). -/
def State.withFault (s : State) (r : Role) (reason : FaultReason) : State :=
  match r with
  | .master => s.withMaster { s.master with fault := s.master.fault ++ [reason] }
  | .slave => s.withSlave { s.slave with fault := s.slave.fault ++ [reason] }

/-- `s` with another pairing of the reference transport (R114). -/
def State.withPair (s : State) (p : Option Exchange) : State := { s with xPair := p }

/-- `s` with another set of slave transfers that exchanged bytes (R112). -/
def State.withMet (s : State) (l : List Handle) : State := { s with xMet := l }

/-- `s` with inputs that the environment offers before all others. -/
def State.offer (s : State) (l : List Input) : State := { s with input := l ++ s.input }

/-- `emit` (00_scope.md section 6): one output more. -/
def State.emit (s : State) (o : Output) : State := { s with outputs := s.outputs ++ [o] }

/-- `s` after one draw of free values (log 12). -/
def State.drawn (s : State) : State := { s with free := s.free + 1 }

end Sys2Proof.Machine
end

