-- ==== Sys2Proof/Machine/Ops.lean ====
section
/-! DEFINITION. The shared operations: sets of handles (R20, R21), the channel commands `DMA.START` (R100) and `DMA.ABORT`
(R102), the bus's part in them (R110 to R114), the delivery of a completion (R101), the fault mark (R22, R207), reset (R200
to R203), and the transport's own actions (R106, R114). The block takes no exceptions: nothing is raised as control flow (R182), an accepted event saves what
its own rule says (R188), and there is no return (R190). What stands for taking an exception is `State.withFault`, the
recording of a fault reason. -/

namespace Sys2Proof.Machine

/-- The outcome of a step of the machine. -/
abbrev Result := Host.Outcome State Fault Refusal

/-- Union of a set of handles with one handle: sets are strictly rising lists. -/
def insertHandle (h : Handle) : List Handle → List Handle
  | [] => [h]
  | x :: xs =>
    if h.toNat < x.toNat then h :: x :: xs
    else if h = x then x :: xs
    else x :: insertHandle h xs

/-- A set of handles without one handle. -/
def removeHandle (h : Handle) (l : List Handle) : List Handle :=
  l.filter (· ≠ h)

/-- The first of `h`, `h + 1`, ... that is not in `avoid`, looking at most `fuel` times further. -/
def firstFresh (avoid : List Handle) : Nat → Handle → Handle
  | 0, h => h
  | fuel + 1, h => if h ∈ avoid then firstFresh avoid fuel (h + 1) else h

/-- The FSM's current handle, where it is still in use (R105): the handle of the attempt in flight. -/
def handleInUse (s : State) : Role → List Handle
  | .master => if s.master.state = .transferring then [s.master.handle] else []
  | .slave => if s.slave.state = .armed ∨ s.slave.state = .receiving then [s.slave.handle] else []

/-- The handles that a new one must differ from: the FSM's handle in use and the pending ones (R105), and those for which
the timer is still pending (R204, R211; U31). -/
def takenHandles (s : State) (r : Role) : List Handle :=
  handleInUse s r ++ (s.channel r).pending ++ s.timer r

/-- The handle the adapter of an instance returns: its own choice, moved on while it would not be fresh (R105; log 9). -/
def freshHandle (s : State) (r : Role) : Handle :=
  firstFresh (takenHandles s r) (takenHandles s r).length (s.channel r).next

/-! ### The bus (R107 to R114) -/

/-- The master is clocking (R110, R183): the exchange of its last `DMA.START` has not ended, for that transfer can still
complete. -/
def masterClocking (s : State) : Bool :=
  match s.xPair with
  | some x => decide (x.hm ∈ s.master.ch.pending)
  | none => false

/-- The slave transfers that have exchanged bytes, when the exchange in progress is cut short. Cut short, it may have moved
some bytes (R112); the reference transport moves them at the exchange end only (R114), so there its slave transfer has
exchanged none. -/
def metIfCut (s : State) : List Handle :=
  if s.bus.reference = true ∧ masterClocking s = true then
    match s.xPair with
    | some { hs := some hs, .. } => removeHandle hs s.xMet
    | _ => s.xMet
  else s.xMet

/-- The slave transfer that a master's `DMA.START` is paired with (R112, R114): the active one, if it has not exchanged
bytes with an earlier master transfer. -/
def pairableSlave (s : State) : Option Handle :=
  if s.slave.ch.active = true ∧ s.slave.ch.handle ∉ metIfCut s then some s.slave.ch.handle else none

/-- The exchange that a master's `DMA.START` returning `hm` begins (R114): the frames of that moment, as corrupted; with no
slave transfer paired, the master receives any bytes (R108; log 12). -/
def exchangeBegun (s : State) (hm : Handle) : Exchange :=
  { hm := hm
    hs := pairableSlave s
    m2s := xorBytes s.master.txFrame s.bus.corruptM2s
    s2m :=
      match pairableSlave s with
      | some _ => xorBytes s.slave.txFrame s.bus.corruptS2m
      | none => freeBytes s.free 260 260
    late := none }

/-- The slave transfers that have exchanged bytes, after a master's `DMA.START` (R112). -/
def metBegun (s : State) : List Handle :=
  match pairableSlave s with
  | some hs => insertHandle hs (metIfCut s)
  | none => metIfCut s

/-- A notification that the reference transport delivers to an instance. DESIGN CHOICE (log 8): to an instance with a fault
recorded it delivers none. Such an instance takes no further step (R22, R207), and the spec does not say what becomes of a
delivery to it; left out, it stands in the way of no enabled step of the other instance (R5). -/
def notify (s : State) (r : Role) (i : Instr) : List Input :=
  match s.faultMark r with
  | [] => [.record r (encode i)]
  | _ :: _ => []

/-- What the transport delivers at the master's `DMA.START`: the reference transport `S.BEGIN` of the paired transfer (R114),
unless the slave has faulted (log 8); under the contract alone, it may offer that record or not (R110). -/
def beginOffered (s : State) : List Input :=
  if s.bus.reference = true then
    match pairableSlave s with
    | some hs => notify s .slave (.sBegin hs)
    | none => []
  else []

/-- The bus at a `DMA.START` that returns `h`. Only the master's makes bytes move (R113): it begins an exchange. The slave's
arms a transfer that has exchanged none. -/
def busStarted (s : State) (r : Role) (h : Handle) : State :=
  match r with
  | .master => ((s.withPair (some (exchangeBegun s h))).withMet (metBegun s)).offer (beginOffered s)
  | .slave => s.withMet (removeHandle h s.xMet)

/-- The bus at a `DMA.ABORT` of the active transfer: the master's ends the exchange (R112, R114). -/
def busAborted (s : State) : Role → State
  | .master => (s.withPair none).withMet (metIfCut s)
  | .slave => s

/-! ### Channel commands and deliveries -/

/-- The channel after `DMA.START` returned `h` (R100). The model's `next` moves past `h` (R69; log 9). -/
def channelStarted (c : Channel) (h : Handle) : Channel :=
  { c with active := true, handle := h, pending := insertHandle h c.pending, next := h + 1, begun := false }

/-- `DMA.START` on an instance's own buffers with its channel idle (R100): the state after it, in which the channel's
`handle` is the one returned. The rx buffer's previous content is lost: it holds free bytes until the adapter writes it
(R100, R106; log 11). -/
def startTransfer (s : State) (r : Role) : State :=
  let h := freshHandle s r
  let s1 := ((busStarted s r h).withChannel r (channelStarted (s.channel r) h)).withRx r (freeFrame s.free)
  s1.drawn.emit (.dmaStart r h)

/-- The adapter keeps an aborted handle pending: its choice at each abort (R102; log 10), but not the reference transport's
(R114). -/
def abortKept (s : State) (r : Role) : Bool :=
  (s.channel r).keep && !s.bus.reference

/-- The channel after `DMA.ABORT` of its active transfer (R102), whose handle stays pending or not. -/
def channelAborted (c : Channel) (kept : Bool) : Channel :=
  { c with active := false, pending := if kept then c.pending else removeHandle c.handle c.pending }

/-- `DMA.ABORT(h)` on an instance's channel (R102). For a handle that is not the active transfer's it has no effect but
that the command was issued (U22; log 21). After it the rx buffer's content is unspecified (R50; log 11). -/
def abortTransfer (s : State) (r : Role) (h : Handle) : State :=
  let c := s.channel r
  let s1 :=
    if c.active = true ∧ c.handle = h then
      (((busAborted s r).withChannel r (channelAborted c (abortKept s r))).withRx r (freeFrame s.free)).drawn
    else s
  s1.emit (.dmaAbort r h)

/-- The channel after the delivery of `S.BEGIN` for its transfer (R110, R183). -/
def channelBegun (c : Channel) : Channel := { c with begun := true }

/-- `S.BEGIN(h)` can be delivered (R110, R183; log 20): the slave's channel is active with `h`, the master is clocking, and
it was not delivered for this transfer before. -/
def beginDeliverable (s : State) (h : Handle) : Bool :=
  s.slave.ch.active && decide (s.slave.ch.handle = h) && masterClocking s && !s.slave.ch.begun

/-- The channel after the completion for `h` was delivered (R101). -/
def channelDelivered (c : Channel) (h : Handle) : Channel :=
  { c with
    active := c.active && decide (c.handle ≠ h)
    pending := removeHandle h c.pending
    orphans := removeHandle h c.orphans }

/-- The transport's part of the delivery of a completion (R101). With `Error` the rx buffer's content of the active
transfer is unspecified (R50, R111; log 11). -/
def deliverCompletion (s : State) (r : Role) (h : Handle) (st : RawStatus) : State :=
  let c := s.channel r
  let s1 := s.withChannel r (channelDelivered c h)
  if c.active = true ∧ c.handle = h ∧ st = .error then (s1.withRx r (freeFrame s.free)).drawn else s1

/-- A step of an instance: the given next state, unless its fault mark is not empty, for then it takes no further step
(R22, R207; log 8). -/
def instanceStep (s : State) (r : Role) (next : State) : Result :=
  match s.faultMark r with
  | [] => .next next
  | reason :: _ => .fault (.instanceFaulted r reason)

/-- A channel after `SYS.RESET` of its instance: only `ch_active` is the block's to reset (R203). A transfer that was
active may still run in the adapter (R204). DESIGN CHOICE (log 18): the spec does not say which of several transfers, cut
off by several resets and not yet completed, may still write the rx buffer; the model lets each of them, until its own
completion is delivered. -/
def channelReset (c : Channel) : Channel :=
  { c with active := false, orphans := if c.active then insertHandle c.handle c.orphans else c.orphans }

/-- A master instance after `SYS.RESET` (R201): the registers the spec leaves unspecified hold the free values of draw `n`
(R205; log 12). The fault mark stays (R22, R207; log 8), as do the pending sets (R203) and the parameters (R200). -/
def masterReset (m : MasterInst) (n : Nat) : MasterInst :=
  { m with
    state := .idle
    payload := freeBytes n 256 0
    txFrame := freeBytes n 260 256
    rxBuffer := freeBytes n 260 516
    attempts := 0
    attStatus := .noAttempt
    attStart := Config.freeTime n
    handle := Config.freeHandle n
    rawStatus := freeRawStatus n
    outcome := freeOutcome n
    outcomeValid := false
    rxPayload := freeBytes n 256 776
    ch := channelReset m.ch }

/-- A slave instance after `SYS.RESET` (R202), as `masterReset`. -/
def slaveReset (v : SlaveInst) (n : Nat) : SlaveInst :=
  { v with
    state := .idle
    payload := freeBytes n 256 0
    txFrame := freeBytes n 260 256
    rxBuffer := freeBytes n 260 516
    handle := Config.freeHandle n
    attStatus := .noAttempt
    rawStatus := freeRawStatus n
    outcome := freeOutcome n
    outcomeValid := false
    ch := channelReset v.ch }

/-! ### The transport's own actions -/

/-- The adapter of an instance runs the transfer `h`, and so owns the instance's rx buffer: `h` is the active transfer, or
one that a reset cut off (R46, R115, R204; log 18). -/
def ownsTransfer (s : State) (r : Role) (h : Handle) : Bool :=
  ((s.channel r).active && decide ((s.channel r).handle = h)) || decide (h ∈ (s.channel r).orphans)

/-- A slave transfer that armed while the master is clocking can still be reached by this exchange, which has no slave
transfer yet (R108, R112; log 27). -/
def lateJoinable (s : State) : Bool :=
  masterClocking s &&
    match s.xPair with
    | some x => x.hs.isNone && x.late.isNone
    | none => false

/-- The exchange in progress has reached the late slave transfer `h` (log 27). -/
def lateJoined (s : State) (h : Handle) : State :=
  (s.withPair (s.xPair.map fun x => { x with late := some h })).withMet (insertHandle h s.xMet)

/-- Bytes arrive in an instance's rx buffer for its transfer `h`, any 260 of them (R106). Only the master's start moves
bytes (R113): a slave's transfer receives none unless an exchange reached it. -/
def receive (s : State) (r : Role) (h : Handle) (bytes : Frame) : State :=
  if ownsTransfer s r h = true then
    match r with
    | .master => s.withRx .master bytes
    | .slave =>
      if h ∈ s.xMet then s.withRx .slave bytes
      else if lateJoinable s = true then (lateJoined s h).withRx .slave bytes
      else s
  else s

/-- The bytes of an exchange arrive in an instance's rx buffer (R107, R114): in the slave's, if it is still the transfer
that was paired. -/
def clockExchange (s : State) (x : Exchange) : Role → State
  | .master => if ownsTransfer s .master x.hm = true then s.withRx .master x.s2m else s
  | .slave =>
    match x.hs with
    | some hs => if ownsTransfer s .slave hs = true ∧ hs ∈ s.xMet then s.withRx .slave x.m2s else s
    | none => s

/-- The slave's completion at the reference transport's exchange end (R114): for the paired transfer, if it is still
active. -/
def slaveFinish (s : State) (x : Exchange) : Option Handle :=
  match x.hs with
  | some hs => if s.slave.ch.active = true ∧ s.slave.ch.handle = hs ∧ hs ∈ s.xMet then some hs else none
  | none => none

/-- The master's completion at the reference transport's exchange end (R114). -/
def masterFinish (s : State) (x : Exchange) : Option Handle :=
  if x.hs.isSome = true ∨ s.bus.completeUnpaired = true then some x.hm else none

/-- The completions that the exchange end delivers, in the one order or the other (R114), none to an instance that has
faulted (log 8). -/
def finishOffered (s : State) (x : Exchange) (masterFirst : Bool) : List Input :=
  let m := match masterFinish s x with
    | some hm => notify s .master (.mComplete hm .ok)
    | none => []
  let v := match slaveFinish s x with
    | some hs => notify s .slave (.sComplete hs .ok)
    | none => []
  if masterFirst then m ++ v else v ++ m

/-- The exchange end of the reference transport (R114): each side that completes holds the other's frame, as corrupted, and
its completion is what is delivered next, unless its instance has faulted (log 8). -/
def finishExchange (s : State) (x : Exchange) (masterFirst : Bool) : State :=
  let s1 := match slaveFinish s x with
    | some _ => s.withRx .slave x.m2s
    | none => s
  let s2 := match masterFinish s x with
    | some _ => s1.withRx .master x.s2m
    | none => s1
  (s2.withPair none).offer (finishOffered s x masterFirst)

/-- One action of the transport (logs 9, 10, 11, 23, 27). An action the contract does not let the adapter take has no effect
(R115). The reference transport moves bytes at its exchange end only, and any other transport never takes that action. -/
def envAct (a : EnvAct) (s : State) : State :=
  match a with
  | .rxWrite r h bytes => if s.bus.reference = true then s else receive s r h bytes
  | .clock r =>
    match s.xPair with
    | some x => if s.bus.reference = true then s else clockExchange s x r
    | none => s
  | .endExchange => if s.bus.reference = true then s else s.withPair none
  | .finish masterFirst =>
    match s.xPair with
    | some x =>
      if s.bus.reference = true ∧ x.hm ∈ s.master.ch.pending then finishExchange s x masterFirst else s
    | none => s
  | .bus b => { s with bus := b }
  | .nextHandle r h => s.withChannel r { s.channel r with next := h }
  | .abortKeeps r keeps => s.withChannel r { s.channel r with keep := keeps }

/-- The internal step an instance of the system can take by itself, the master's first where both can (R4; log 5): the
operand that the environment supplies is free. A faulted instance takes none (R207). -/
def internalStep? (s : State) : Option Instr :=
  match s.master.state, s.master.fault with
  | .encoding, [] => some (.mEncode (Config.freeTime s.free))
  | .evaluating, [] => some .mEvaluate
  | .retrying, [] => some (.mRetry (freeRetryPayload s.free))
  | _, _ =>
    match s.slave.state, s.slave.fault with
    | .completed, [] => some .sReport
    | _, _ => none

end Sys2Proof.Machine
end

