-- ==== Sys2Proof/Machine/CodecFamily.lean ====
section
/-! DEFINITION. The frame codec family: `FC.ENCODE`, `FC.DECODE` (41_frame_codec.md). -/

namespace Sys2Proof.Machine

/-- `FC.ENCODE(payload) -> frame` (R90): reads and writes no state; the result goes to the caller (log 17). -/
def execFcEncode (payload : Payload) (s : State) : Result :=
  .next (s.emit (.frame (frameEncode payload)))

/-- `FC.DECODE(buf, len) -> (payload, received_crc, valid)` (R91, R93): reads and writes no state; the results go to the
caller (log 17). It runs on every `buf` and `len` (log 28). -/
def execFcDecode (buf : List Byte) (len : Nat) (s : State) : Result :=
  let d := sequenceDecode s.free buf len
  .next (s.drawn.emit (.decoded d.payload d.receivedCrc d.valid))

end Sys2Proof.Machine
end

