-- ==== Sys2Proof/Machine/CrcFamily.lean ====
section
/-! DEFINITION. The CRC engine family: `CRC.COMPUTE` (40_crc_engine.md). -/

namespace Sys2Proof.Machine

/-- `CRC.COMPUTE(payload) -> crc` (R82): reads and writes no state (R80); the result goes to the caller (log 17). -/
def execCrcCompute (payload : Payload) (s : State) : Result :=
  .next (s.emit (.crc (crcCompute payload)))

end Sys2Proof.Machine
end

