-- ==== Sys2Proof/Machine/DmaFamily.lean ====
section
/-! DEFINITION. The DMA channel adapter commands, driven directly (42_dma_channel_adapter.md; R22 last sentence; log 24). -/

namespace Sys2Proof.Machine

/-- `DMA.START(tx_frame, rx_buffer) -> handle` on an instance's channel (R100); while a transfer is active it is
`fault(StartWhileActive)` (R104). -/
def execDmaStart (r : Role) (s : State) : Result :=
  instanceStep s r
    (if (s.channel r).active = true then s.withFault r .startWhileActive else startTransfer s r)

/-- `DMA.ABORT(handle)` on an instance's channel (R102). -/
def execDmaAbort (r : Role) (h : Handle) (s : State) : Result :=
  instanceStep s r (abortTransfer s r h)

end Sys2Proof.Machine
end

