-- ==== Sys2Proof/Machine/MasterFamily.lean ====
section
/-! DEFINITION. The master FSM (44_master_protocol.md). A notification that its source cannot deliver (R183, column
enabled) and an internal step that is not enabled (R152) leave the state as it is (log 6); a delivered event that the FSM
does not accept is discarded (R149). -/

namespace Sys2Proof.Machine

/-- `M.SEND(payload)` (R141): accepted in `M_Idle`, `M_Success`, `M_Failed`, elsewhere `refuse(Busy)` (R72; log 7). -/
def execMSend (payload : Payload) (s : State) : Result :=
  instanceStep s .master <|
    if s.master.state = .idle ∨ s.master.state = .success ∨ s.master.state = .failed then
      s.withMaster { s.master with
        payload := payload
        attempts := 1
        attStatus := .noAttempt
        outcomeValid := false
        state := .encoding }
    else s.emit (.report (.busy .master))

/-- `M.ENCODE(now)` (R142), internal, enabled in `M_Encoding`. Writing the tx frame while the adapter owns it is
`fault(BufferOwnership)` (R47; log 22). -/
def execMEncode (now : Time) (s : State) : Result :=
  instanceStep s .master <|
    if s.master.state = .encoding then
      if s.master.ch.active = true then s.withFault .master .bufferOwnership
      else
        let s1 := startTransfer (s.withMaster { s.master with txFrame := frameEncode s.master.payload }) .master
        let h := s1.master.ch.handle
        s1.withMaster { s1.master with
          handle := h
          attStatus := .pending
          attStart := now
          tmPending := insertHandle h s1.master.tmPending
          state := .transferring }
    else s

/-- `M.COMPLETE(handle, raw_status)` (R143): can be delivered while the handle is pending (R101); accepted in
`M_Transferring` with `handle = m_handle`. -/
def execMComplete (h : Handle) (st : RawStatus) (s : State) : Result :=
  instanceStep s .master <|
    if h ∈ s.master.ch.pending then
      let s1 := deliverCompletion s .master h st
      if s.master.state = .transferring ∧ h = s.master.handle then
        s1.withMaster { s1.master with rawStatus := st, attStatus := .complete, state := .evaluating }
      else s1
    else s

/-- `M.TIMEOUT(handle)` (R144): can be delivered while the timer is pending for the handle (R183); accepted in
`M_Transferring` with `handle = m_handle`. -/
def execMTimeout (h : Handle) (s : State) : Result :=
  instanceStep s .master <|
    if h ∈ s.master.tmPending then
      let s1 := s.withMaster { s.master with tmPending := removeHandle h s.master.tmPending }
      if s.master.state = .transferring ∧ h = s.master.handle then
        let s2 := abortTransfer s1 .master s.master.handle
        s2.withMaster { s2.master with attStatus := .timedOut, state := .evaluating }
      else s1
    else s

/-- `M.EVALUATE` (R145), internal, enabled in `M_Evaluating`: a timeout first, then a transport error, then the CRC
comparison (R187). Reading the rx buffer while the adapter owns it is `fault(BufferOwnership)` (R47; log 22). -/
def execMEvaluate (s : State) : Result :=
  instanceStep s .master <|
    if s.master.state = .evaluating then
      if s.master.attStatus ≠ .timedOut ∧ s.master.rawStatus = .ok ∧ s.master.ch.active = true then
        s.withFault .master .bufferOwnership
      else
        let o := if s.master.attStatus = .timedOut then .timeout
          else completionOutcome s.master.rawStatus s.master.rxBuffer
        if o = .crcValid then
          let p := (frameDecode s.master.rxBuffer).payload
          (s.withMaster { s.master with
            outcome := o
            outcomeValid := true
            rxPayload := p
            state := .success }).emit (.report (.success p))
        else s.withMaster { s.master with outcome := o, outcomeValid := true, state := .retrying }
    else s

/-- `M.RETRY(retry_payload)` (R146), internal, enabled in `M_Retrying`: the policy is asked with the one-based attempt
count (R171; 90_conflicts.md C1). -/
def execMRetry (retryPayload : Option Payload) (s : State) : Result :=
  instanceStep s .master <|
    if s.master.state = .retrying then
      match policyDecide s.master.outcome s.master.attempts s.master.cfg.maxAttempts with
      | .retry =>
        s.withMaster { s.master with
          attempts := s.master.attempts + 1
          payload := retryPayload.getD s.master.payload
          state := .encoding }
      | .giveUp =>
        (s.withMaster { s.master with state := .failed }).emit (.report (.failed s.master.outcome s.master.attempts))
    else s

/-- `M.CANCEL` (R148): accepted in the four session states, discarded elsewhere; the transfer in flight is aborted. -/
def execMCancel (s : State) : Result :=
  instanceStep s .master <|
    if s.master.state = .idle ∨ s.master.state = .success ∨ s.master.state = .failed then s
    else
      let s1 :=
        if s.master.state = .transferring then
          let s2 := abortTransfer s .master s.master.handle
          s2.withMaster { s2.master with attStatus := .aborted }
        else s
      (s1.withMaster { s1.master with outcome := .cancelled, outcomeValid := true, state := .failed }).emit
        (.report (.failed .cancelled s.master.attempts))

end Sys2Proof.Machine
end

