-- ==== Sys2Proof/Machine/PolicyFamily.lean ====
section
/-! DEFINITION. The retry policy family: `RP.DECIDE` (45_retry_policy.md). -/

namespace Sys2Proof.Machine

/-- `RP.DECIDE(outcome, attempt_index, max_attempts) -> decision` (R170): reads and writes no state; the result goes to
the caller (log 17). -/
def execRpDecide (outcome : TransferOutcome) (attemptIndex maxAttempts : Nat) (s : State) : Result :=
  .next (s.emit (.decision (policyDecide outcome attemptIndex maxAttempts)))

end Sys2Proof.Machine
end

