-- ==== Sys2Proof/Machine/SlaveFamily.lean ====
section
/-! DEFINITION. The slave FSM (43_slave_protocol.md). A notification that its source cannot deliver (R183, column enabled)
and an internal step that is not enabled (R131) leave the state as it is (log 6); a delivered event that the FSM does not
accept is discarded (R126). -/

namespace Sys2Proof.Machine

/-- `S.PROVIDE(payload)` (R121): accepted in `S_Idle`, elsewhere `refuse(Busy)` (R72; log 7). Writing the tx frame while
the adapter owns it is `fault(BufferOwnership)` (R47; log 22). -/
def execSProvide (payload : Payload) (s : State) : Result :=
  instanceStep s .slave <|
    if s.slave.state = .idle then
      if s.slave.ch.active = true then s.withFault .slave .bufferOwnership
      else
        let s1 := startTransfer
          (s.withSlave { s.slave with payload := payload, txFrame := frameEncode payload }) .slave
        let h := s1.slave.ch.handle
        s1.withSlave { s1.slave with
          handle := h
          attStatus := .pending
          tmPending := if s1.slave.cfg.armTimeout.isSome then insertHandle h s1.slave.tmPending else s1.slave.tmPending
          state := .armed }
    else s.emit (.report (.busy .slave))

/-- `S.BEGIN(handle)` (R122): can be delivered while the slave's channel is active with the handle and the master is
clocking, at most once per transfer (R110, R183; log 20); accepted in `S_Armed` with `handle = s_handle`. -/
def execSBegin (h : Handle) (s : State) : Result :=
  instanceStep s .slave <|
    if beginDeliverable s h = true then
      let s1 := s.withChannel .slave (channelBegun s.slave.ch)
      if s.slave.state = .armed ∧ h = s.slave.handle then s1.withSlave { s1.slave with state := .receiving } else s1
    else s

/-- `S.COMPLETE(handle, raw_status)` (R123): can be delivered while the handle is pending (R101); accepted in `S_Armed`
and `S_Receiving` with `handle = s_handle`. -/
def execSComplete (h : Handle) (st : RawStatus) (s : State) : Result :=
  instanceStep s .slave <|
    if h ∈ s.slave.ch.pending then
      let s1 := deliverCompletion s .slave h st
      if (s.slave.state = .armed ∨ s.slave.state = .receiving) ∧ h = s.slave.handle then
        s1.withSlave { s1.slave with rawStatus := st, attStatus := .complete, state := .completed }
      else s1
    else s

/-- `S.REPORT` (R124), internal, enabled in `S_Completed`. The rx buffer is decoded only when the transport reported no
error (R187); reading it while the adapter owns it is `fault(BufferOwnership)` (R47; log 22). The payload reported with
`HardwareFault` is free (U5; log 12). -/
def execSReport (s : State) : Result :=
  instanceStep s .slave <|
    if s.slave.state = .completed then
      if s.slave.rawStatus = .ok ∧ s.slave.ch.active = true then s.withFault .slave .bufferOwnership
      else
        let o := completionOutcome s.slave.rawStatus s.slave.rxBuffer
        let p := match s.slave.rawStatus with
          | .ok => (frameDecode s.slave.rxBuffer).payload
          | .error => freePayload s.free
        (s.withSlave { s.slave with outcome := o, outcomeValid := true, state := .idle }).drawn.emit
          (.report (.frameReceived o p))
    else s

/-- `S.ARM_TIMEOUT(handle)` (R125): can be delivered while the timer is pending for the handle (R183); accepted in
`S_Armed` with `handle = s_handle`. The reported payload is free (U5; log 12). -/
def execSArmTimeout (h : Handle) (s : State) : Result :=
  instanceStep s .slave <|
    if h ∈ s.slave.tmPending then
      let s1 := s.withSlave { s.slave with tmPending := removeHandle h s.slave.tmPending }
      if s.slave.state = .armed ∧ h = s.slave.handle then
        let s2 := abortTransfer s1 .slave s.slave.handle
        (s2.withSlave { s2.slave with
          attStatus := .timedOut
          outcome := .timeout
          outcomeValid := true
          state := .idle }).drawn.emit (.report (.frameReceived .timeout (freePayload s2.free)))
      else s1
    else s

/-- `S.TRANSPORT_ABORT` (R127): accepted in `S_Idle`, `S_Armed`, `S_Receiving`, discarded in `S_Completed`. The reported
payload is free (U5; log 12). -/
def execSTransportAbort (s : State) : Result :=
  instanceStep s .slave <|
    if s.slave.state = .completed then s
    else
      let s1 :=
        if s.slave.state = .armed ∨ s.slave.state = .receiving then
          let s2 := abortTransfer s .slave s.slave.handle
          s2.withSlave { s2.slave with attStatus := .aborted }
        else s
      (s1.withSlave { s1.slave with outcome := .aborted, outcomeValid := true, state := .idle }).drawn.emit
        (.report (.frameReceived .aborted (freePayload s1.free)))

end Sys2Proof.Machine
end

