-- ==== Sys2Proof/Machine/SysFamily.lean ====
section
/-! DEFINITION. The system family: `SYS.RESET` (70_reset_and_hazards.md). -/

namespace Sys2Proof.Machine

/-- `SYS.RESET` of one instance (R200 to R204), in any state: no report, no adapter command. -/
def execSysReset (r : Role) (s : State) : Result :=
  match r with
  | .master => .next (s.withMaster (masterReset s.master s.free)).drawn
  | .slave => .next (s.withSlave (slaveReset s.slave s.free)).drawn

end Sys2Proof.Machine
end

