-- ==== Sys2Proof/Machine/Dispatch.lean ====
section
/-! DEFINITION. One arm per row of rule R64. -/

namespace Sys2Proof.Machine

def exec (i : Instr) (s : State) : Host.Outcome State Fault Refusal :=
  match i with
  | .sysReset r => Sys2Proof.Machine.execSysReset r s
  | .crcCompute payload => Sys2Proof.Machine.execCrcCompute payload s
  | .fcEncode payload => Sys2Proof.Machine.execFcEncode payload s
  | .fcDecode buf len => Sys2Proof.Machine.execFcDecode buf len s
  | .dmaStart r => Sys2Proof.Machine.execDmaStart r s
  | .dmaAbort r h => Sys2Proof.Machine.execDmaAbort r h s
  | .sProvide payload => Sys2Proof.Machine.execSProvide payload s
  | .sBegin h => Sys2Proof.Machine.execSBegin h s
  | .sComplete h st => Sys2Proof.Machine.execSComplete h st s
  | .sReport => Sys2Proof.Machine.execSReport s
  | .sArmTimeout h => Sys2Proof.Machine.execSArmTimeout h s
  | .sTransportAbort => Sys2Proof.Machine.execSTransportAbort s
  | .mSend payload => Sys2Proof.Machine.execMSend payload s
  | .mEncode now => Sys2Proof.Machine.execMEncode now s
  | .mComplete h st => Sys2Proof.Machine.execMComplete h st s
  | .mTimeout h => Sys2Proof.Machine.execMTimeout h s
  | .mEvaluate => Sys2Proof.Machine.execMEvaluate s
  | .mRetry retryPayload => Sys2Proof.Machine.execMRetry retryPayload s
  | .mCancel => Sys2Proof.Machine.execMCancel s
  | .rpDecide outcome attemptIndex maxAttempts => Sys2Proof.Machine.execRpDecide outcome attemptIndex maxAttempts s

end Sys2Proof.Machine
end

