-- ==== Sys2Proof/Machine/Step.lean ====
section
/-! DEFINITION. One step of the system. The block fetches no instructions (R11): a step takes what the environment offers
next, a delivered record (R63) or an action of the transport; with nothing offered, an enabled internal step runs (R4), and
where none is enabled the block waits (R130, R154; log 5). -/

namespace Sys2Proof.Machine

/-- How the machine refuses bytes that are no record (R70). -/
def refuseRecord : DecodeError → Refusal
  | .reservedCode c => .reservedCode c
  | .reservedOperand v => .reservedOperand v
  | .truncated => .truncatedRecord

/-- One atomic step (R4, R51). Under a configuration the spec has a model refuse, none (R1, R3; log 19). -/
def step (s : State) : Host.Outcome State Fault Refusal :=
  if configLegal s = true then
    match s.input with
    | .record dest bytes :: rest =>
      match decode dest bytes with
      | .ok (i, _) => exec i { s with input := rest }
      | .error e => .refused (refuseRecord e)
    | .env a :: rest => .next (envAct a { s with input := rest })
    | [] =>
      match internalStep? s with
      | some i => exec i s.drawn
      | none => .next s
  else .refused .illegalConfiguration

/-- `s` with the record of `nbits` bits and value `w`, zeros after it, delivered to the master next (logs 3, 4). -/
def State.withFetchWord (s : State) (nbits w : Nat) : State :=
  { s with input := .record .master (layoutWord nbits w) :: s.input }

end Sys2Proof.Machine
end

