-- ==== Sys2Proof/Safety.lean ====
section
/-! DEFINITION. The terms in which claims speak of the machine: the invariants of R23 and of the FSM files, which records the
FSMs' own environment issues, what a step leaves alone, counts of reports and commands, and the chains of steps of R157. -/

namespace Sys2Proof.Machine

/-! ### What a step leaves alone -/

/-- Every byte of every named array outside `stored` reads as before. -/
def bytesKept (s t : State) (stored : List Buffer) : Prop :=
  ∀ b, b ∉ stored → ∀ i, t.readByte b i = s.readByte b i

/-- The bus is as it was: its exchange (R114), the slave transfers that exchanged bytes (R112), its parameters. -/
def busKept (s t : State) : Prop :=
  t.xPair = s.xPair ∧ t.xMet = s.xMet ∧ t.bus = s.bus

/-- No fault is recorded against an instance (R22). -/
def faultFree (s : State) (r : Role) : Prop :=
  s.faultMark r = []

/-- The instance whose step a record is; none for the operations of R182, which read and write no state, and for
`SYS.RESET`, a step of the environment (R200). -/
def instrOwner : Instr → Option Role
  | .sysReset _ => none
  | .crcCompute _ => none
  | .fcEncode _ => none
  | .fcDecode _ _ => none
  | .dmaStart r => some r
  | .dmaAbort r _ => some r
  | .sProvide _ => some .slave
  | .sBegin _ => some .slave
  | .sComplete _ _ => some .slave
  | .sReport => some .slave
  | .sArmTimeout _ => some .slave
  | .sTransportAbort => some .slave
  | .mSend _ => some .master
  | .mEncode _ => some .master
  | .mComplete _ _ => some .master
  | .mTimeout _ => some .master
  | .mEvaluate => some .master
  | .mRetry _ => some .master
  | .mCancel => some .master
  | .rpDecide _ _ _ => none

/-- A record of the FSM-driven system: every row of R64 but the two adapter commands, which there only the FSMs issue
(R199; R22 last sentence). -/
def fsmDriven : Instr → Bool
  | .dmaStart _ => false
  | .dmaAbort _ _ => false
  | _ => true

/-- Every record the environment offers is one of the FSM-driven system. -/
def inputsFsmDriven (s : State) : Prop :=
  ∀ dest bytes, Input.record dest bytes ∈ s.input → ∀ i rest, decode dest bytes = .ok (i, rest) → fsmDriven i = true

/-- Nothing the environment offers leads to a `DMA.START` of a master outside a session: no `M.SEND`, and no such command
itself (R148, R157 D). -/
def offersNoStart (s : State) : Prop :=
  ∀ dest bytes, Input.record dest bytes ∈ s.input → ∀ i rest, decode dest bytes = .ok (i, rest) →
    (∀ p, i ≠ .mSend p) ∧ i ≠ .dmaStart .master

/-! ### Invariants -/

/-- A set of handles in its one form: strictly rising. -/
def risingHandles (l : List Handle) : Prop :=
  l.Pairwise fun a b => a.toNat < b.toNat

/-- The channel: its pending set is a set, as are the transfers a reset cut off, and an active transfer's completion can
still be delivered (R19, R20, R101, R204). -/
structure ChannelInv (c : Channel) : Prop where
  pending_rising : risingHandles c.pending
  orphans_rising : risingHandles c.orphans
  active_pending : c.active = true → c.handle ∈ c.pending

/-- A session is in progress: the four session states of R148. -/
def inSession : MState → Bool
  | .idle => false
  | .encoding => true
  | .transferring => true
  | .evaluating => true
  | .retrying => true
  | .success => false
  | .failed => false

/-- The slave has a transfer in flight: `S_Armed`, `S_Receiving` (R120). -/
def inFlight : SState → Bool
  | .idle => false
  | .armed => true
  | .receiving => true
  | .completed => false

/-- The states of the master that a session reaches only through `M.ENCODE` (R23 item 5): there its tx frame is
well-formed. `M_Failed` is no such state: a session cancelled in `M_Encoding` ends there too. -/
def txEncoded : MState → Bool
  | .idle => false
  | .encoding => false
  | .transferring => true
  | .evaluating => true
  | .retrying => true
  | .success => true
  | .failed => false

/-- What holds of a master instance in every reachable state (R23 items 4 and 5, R145, R146, R147, R150, R151, R155, R181). -/
structure MasterInv (m : MasterInst) : Prop where
  channel : ChannelInv m.ch
  timer_rising : risingHandles m.tmPending
  attempts_le : m.attempts ≤ m.cfg.maxAttempts
  idle_iff : m.state = .idle ↔ m.attempts = 0
  transferring : m.state = .transferring → m.attStatus = .pending
  evaluating : m.state = .evaluating → m.attStatus = .complete ∨ m.attStatus = .timedOut
  retrying : m.state = .retrying → m.outcomeValid = true ∧ retryable m.outcome = true
  success : m.state = .success → m.outcomeValid = true ∧ m.outcome = .crcValid
  failed : m.state = .failed → m.outcomeValid = true ∧ (retryable m.outcome = true ∨ m.outcome = .cancelled)
  outcomes : m.outcomeValid = true → m.outcome ≠ .aborted ∧ m.outcome ≠ .configurationMismatch
  tx_wellFormed : txEncoded m.state = true ∨ m.attStatus ≠ .noAttempt → frameValid m.txFrame = true

/-- What holds of a slave instance in every reachable state (R16, R21, R23 item 5, R181). -/
structure SlaveInv (v : SlaveInst) : Prop where
  channel : ChannelInv v.ch
  timer_rising : risingHandles v.tmPending
  timer_disabled : v.cfg.armTimeout = none → v.tmPending = []
  inflight : inFlight v.state = true → v.attStatus = .pending
  completed : v.state = .completed → v.attStatus = .complete
  outcomes : v.outcomeValid = true → v.outcome ≠ .cancelled ∧ v.outcome ≠ .configurationMismatch
  tx_wellFormed : v.state ≠ .idle → frameValid v.txFrame = true

/-- What holds of the system in every reachable state, whoever drives the adapter commands: both instances' invariants, and
while an exchange is in progress the master's adapter runs its transfer, and so owns the buffer it clocks into (R46, R114). -/
structure SystemInv (s : State) : Prop where
  master : MasterInv s.master
  slave : SlaveInv s.slave
  met_rising : risingHandles s.xMet
  exchange_owned : masterClocking s = true → ∀ x, s.xPair = some x → ownsTransfer s .master x.hm = true

/-- Buffer ownership in the FSM-driven system (R23 items 1 to 3, R120): no fault was recorded, and a channel is active
exactly while its FSM waits for that transfer. -/
structure OwnershipInv (s : State) : Prop where
  master_clean : s.master.fault = []
  slave_clean : s.slave.fault = []
  master_active : s.master.ch.active = true ↔ s.master.state = .transferring
  master_handle : s.master.state = .transferring → s.master.ch.handle = s.master.handle
  slave_active : s.slave.ch.active = true ↔ inFlight s.slave.state = true
  slave_handle : inFlight s.slave.state = true → s.slave.ch.handle = s.slave.handle

/-! ### Transition tables -/

/-- The edges of the master's transition table (R152) other than staying: the next state a record can give. -/
inductive MasterEdge (m : MasterInst) : Instr → MState → Prop where
  | send (p : Payload) : inSession m.state = false → MasterEdge m (.mSend p) .encoding
  | encode (now : Time) : m.state = .encoding → MasterEdge m (.mEncode now) .transferring
  | complete (st : RawStatus) : m.state = .transferring → MasterEdge m (.mComplete m.handle st) .evaluating
  | timeout : m.state = .transferring → MasterEdge m (.mTimeout m.handle) .evaluating
  | succeed : m.state = .evaluating → MasterEdge m .mEvaluate .success
  | judgeFailed : m.state = .evaluating → MasterEdge m .mEvaluate .retrying
  | retry (p : Option Payload) : m.state = .retrying → MasterEdge m (.mRetry p) .encoding
  | giveUp (p : Option Payload) : m.state = .retrying → MasterEdge m (.mRetry p) .failed
  | cancel : inSession m.state = true → MasterEdge m .mCancel .failed
  | reset : MasterEdge m (.sysReset .master) .idle

/-- The edges of the slave's transition table (R131) other than staying. -/
inductive SlaveEdge (v : SlaveInst) : Instr → SState → Prop where
  | provide (p : Payload) : v.state = .idle → SlaveEdge v (.sProvide p) .armed
  | begin : v.state = .armed → SlaveEdge v (.sBegin v.handle) .receiving
  | complete (st : RawStatus) : inFlight v.state = true → SlaveEdge v (.sComplete v.handle st) .completed
  | report : v.state = .completed → SlaveEdge v .sReport .idle
  | armTimeout : v.state = .armed → SlaveEdge v (.sArmTimeout v.handle) .idle
  | transportAbort : inFlight v.state = true → SlaveEdge v .sTransportAbort .idle
  | reset : SlaveEdge v (.sysReset .slave) .idle

/-! ### What was emitted -/

/-- A report that ends a master session (R153). -/
def isSessionReport : Output → Bool
  | .report (.success _) => true
  | .report (.failed _ _) => true
  | _ => false

/-- A `FrameReceived` report (R132). -/
def isFrameReport : Output → Bool
  | .report (.frameReceived _ _) => true
  | _ => false

/-- The command `DMA.START` of the master's channel. -/
def isMasterStart : Output → Bool
  | .dmaStart .master _ => true
  | _ => false

/-- How many session reports stand in the outputs. -/
def sessionReports (s : State) : Nat := s.outputs.countP isSessionReport

/-- How many `FrameReceived` reports stand in the outputs. -/
def frameReports (s : State) : Nat := s.outputs.countP isFrameReport

/-- How many `DMA.START` commands the master's channel was given. -/
def masterStarts (s : State) : Nat := s.outputs.countP isMasterStart

/-! ### Corruption and chains of steps -/

/-- `a` with bit `j` of byte `i` inverted (R88, R95). -/
def flipBit {n : Nat} (a : Bytes n) (i j : Nat) : Bytes n :=
  ⟨a.data.modify i (· ^^^ 1#8 <<< j), by simp [a.len]⟩

/-- One step after another, stopping where one does not answer a next state. -/
def andThen (o : Result) (k : State → Result) : Result :=
  match o with
  | .next s => k s
  | .fault f => .fault f
  | .refused r => .refused r

/-- Records run one after another. -/
def execAll : List Instr → State → Result
  | [], s => .next s
  | i :: is, s => andThen (exec i s) (execAll is)

/-- The next step of one side of a faithful exchange, once the master is clocking: the bus clocks the peer's frame in and
the completion carries `Ok` (R107); after it that side judges what it received. -/
def faithfulTurn (r : Role) (s : State) : Result :=
  match r with
  | .slave =>
    if s.slave.state = .completed then exec .sReport s
    else exec (.sComplete s.slave.handle .ok) (envAct (.clock .slave) s)
  | .master =>
    if s.master.state = .evaluating then exec .mEvaluate s
    else exec (.mComplete s.master.handle .ok) (envAct (.clock .master) s)

/-- Such steps one after another. -/
def faithfulTurns : List Role → State → Result
  | [], s => .next s
  | r :: rs, s => andThen (faithfulTurn r s) (faithfulTurns rs)

/-- A first attempt whose exchange is faithful (R107; R157 A): the slave arms with `q` and the master is given `p`, in either
order; the master encodes and starts; the transport reports the begin or omits it (R110); then the turns of both sides. -/
def faithfulSession (sendFirst begins : Bool) (turns : List Role) (p q : Payload) (now : Time) (s : State) : Result :=
  andThen (execAll (if sendFirst then [.mSend p, .sProvide q] else [.sProvide q, .mSend p]) s) fun s =>
  andThen (exec (.mEncode now) s) fun s =>
  andThen (if begins then exec (.sBegin s.slave.handle) s else .next s) fun s =>
  faithfulTurns turns s

/-- One attempt whose timer fires before any completion, and the decision after it (R157 C); the application may give a new
payload for a retry (R146). -/
def timedOutAttempt (now : Time) (retryPayload : Option Payload) (s : State) : Result :=
  andThen (exec (.mEncode now) s) fun s =>
  andThen (exec (.mTimeout s.master.handle) s) fun s =>
  andThen (exec .mEvaluate s) fun s =>
  exec (.mRetry retryPayload) s

/-- Such attempts one after another. -/
def timedOutAttempts : List (Time × Option Payload) → State → Result
  | [], s => .next s
  | (now, q) :: rest, s => andThen (timedOutAttempt now q s) (timedOutAttempts rest)

end Sys2Proof.Machine
end

