-- ==== Sys2Proof/Certificates/Slice0/Obligations.lean ====
section
/-! DEFINITION. The statements for the provers. Each docstring names the rules of spec/ it formalises; "log n" is
notes/assumptions/n.md, where a clause rests on a choice of the model. -/

open Sys2Proof Sys2Proof.Machine

/-! ### Records -/

/-- R63, R64 with the operand layout of log 2: the decoder reads from the bytes of a well-formed record, delivered to the
instance it is for, that record, and leaves the bytes after it. -/
def Obligations.DecodeOfEncode : Prop :=
  ∀ (i : Instr) (dest : Role) (rest : List Byte), wellFormed i = true →
    decode (addressee i dest) (encode i ++ rest) = .ok (i, rest)

/-- R63, R64 with the operand layout of log 2: what decodes is a well-formed record for the instance it was delivered to, and
the bytes are that record's. -/
def Obligations.EncodeOfDecode : Prop :=
  ∀ (dest : Role) (bytes : List Byte) (i : Instr) (rest : List Byte),
    decode dest bytes = .ok (i, rest) → wellFormed i = true ∧ addressee i dest = dest ∧ encode i ++ rest = bytes

/-- R70: a code that R64 does not list is refused by name and has no meaning. -/
def Obligations.ReservedCodeRefused : Prop :=
  ∀ (s : State) (dest : Role) (code : Byte) (bytes : List Byte) (later : List Input),
    configLegal s = true → s.input = .record dest (code :: bytes) :: later →
    code ∉ ([0x00, 0x10, 0x20, 0x21, 0x30, 0x31, 0x40, 0x41, 0x42, 0x43, 0x44, 0x45, 0x50, 0x51, 0x52, 0x53, 0x54,
      0x55, 0x56, 0x60] : List Byte) →
    step s = .refused (.reservedCode code)

/-- R64: a few records written out byte by byte decode to what they stand for (operand layout: log 2). -/
def Obligations.SampleRecordsDecode : Prop :=
  decode .slave [0x00] = .ok (.sysReset .slave, []) ∧
  decode .master [0x31, 0x02, 0x01, 0x00, 0x80] = .ok (.dmaAbort .master 0x80000102, []) ∧
  decode .slave [0x42, 0x07, 0x00, 0x00, 0x00, 0x01] = .ok (.sComplete 7 .error, []) ∧
  decode .master [0x54, 0x56] = .ok (.mEvaluate, [0x56]) ∧
  decode .master [0x60, 0x05, 0x01, 0x00, 0x00, 0x00, 0x00, 0x01, 0x00, 0x00] =
    .ok (.rpDecide .hardwareFault 1 256, []) ∧
  decode .master [0x60, 0x07, 0x01, 0x00, 0x00, 0x00, 0x00, 0x01, 0x00, 0x00] = .error (.reservedOperand 7)

/-- R65 to R68: each code of the enumerations, in the order the spec lists them; every code is read back as what it stands
for (`RawStatus` from its operand byte), and a reserved code is read as nothing. -/
def Obligations.EnumerationCodes : Prop :=
  (mStateCode .idle = 0 ∧ mStateCode .encoding = 1 ∧ mStateCode .transferring = 2 ∧ mStateCode .evaluating = 3 ∧
    mStateCode .retrying = 4 ∧ mStateCode .success = 5 ∧ mStateCode .failed = 6) ∧
  (∀ x, mStateOfCode? (mStateCode x) = some x) ∧ mStateOfCode? 7 = none ∧
  (sStateCode .idle = 0 ∧ sStateCode .armed = 1 ∧ sStateCode .receiving = 2 ∧ sStateCode .completed = 3) ∧
  (∀ x, sStateOfCode (sStateCode x) = x) ∧
  (attStatusCode .noAttempt = 0 ∧ attStatusCode .pending = 1 ∧ attStatusCode .complete = 2 ∧ attStatusCode .aborted = 3 ∧
    attStatusCode .timedOut = 4) ∧
  (∀ x, attStatusOfCode? (attStatusCode x) = some x) ∧
    attStatusOfCode? 5 = none ∧ attStatusOfCode? 6 = none ∧ attStatusOfCode? 7 = none ∧
  (outcomeCode .crcValid = 0 ∧ outcomeCode .crcMismatch = 1 ∧ outcomeCode .timeout = 2 ∧ outcomeCode .aborted = 3 ∧
    outcomeCode .cancelled = 4 ∧ outcomeCode .hardwareFault = 5 ∧ outcomeCode .configurationMismatch = 6) ∧
  (∀ x, outcomeOfCode? (outcomeCode x) = some x) ∧ outcomeOfCode? 7 = none ∧
  (rawStatusCode .ok = 0 ∧ rawStatusCode .error = 1) ∧ (∀ x, rawStatusOfByte? (rawStatusByte x) = some x) ∧
  (decisionCode .giveUp = 0 ∧ decisionCode .retry = 1) ∧ (∀ x, decisionOfCode (decisionCode x) = x)

/-! ### One step -/

/-- R4, R63: when the next thing the environment offers is a record, the step is that record's meaning, with the record
taken (log 4). -/
def Obligations.StepRunsTheDecodedRecord : Prop :=
  ∀ (s : State) (dest : Role) (bytes rest : List Byte) (later : List Input) (i : Instr),
    configLegal s = true → s.input = .record dest bytes :: later → decode dest bytes = .ok (i, rest) →
    step s = exec i { s with input := later }

/-- R4, R130, R154, R22, R207 with the order of log 5: with nothing offered, an internal step that is enabled runs by itself,
the master's first, with a free operand; a faulted instance takes none, and the other goes on; where none is enabled the block
waits and nothing changes. -/
def Obligations.StepWithNothingOffered : Prop :=
  ∀ s : State, configLegal s = true → s.input = [] →
    let masterSteps := faultFree s .master ∧
      (s.master.state = .encoding ∨ s.master.state = .evaluating ∨ s.master.state = .retrying)
    let slaveSteps := faultFree s .slave ∧ s.slave.state = .completed
    (faultFree s .master →
      (s.master.state = .encoding → step s = exec (.mEncode (Config.freeTime s.free)) s.drawn) ∧
      (s.master.state = .evaluating → step s = exec .mEvaluate s.drawn) ∧
      (s.master.state = .retrying → step s = exec (.mRetry (freeRetryPayload s.free)) s.drawn)) ∧
    (¬masterSteps → slaveSteps → step s = exec .sReport s.drawn) ∧
    (¬masterSteps → ¬slaveSteps → step s = .next s)

/-- R46, R106, R113, R114, R115 (the actions are the model's form of them: logs 11, 18, 23, 27): what each action of the
transport stores. An adapter's own write and the clocking of the exchange's bytes store 260 bytes in one rx buffer, only for
a transfer that the adapter runs (the active one, or one that a reset cut off), in the slave's only for a transfer that an
exchange with the master has reached, and not where the reference transport is the bus. Every other action stores nothing,
but for the reference transport's exchange end (`ReferenceExchangeEnd`). -/
def Obligations.AdapterWritesOnlyItsRxBuffer : Prop :=
  ∀ (s : State) (later : List Input), configLegal s = true →
    let runs := fun (r : Role) (h : Handle) =>
      ((s.channel r).active = true ∧ (s.channel r).handle = h) ∨ h ∈ (s.channel r).orphans
    let clocking := fun (x : Exchange) => s.xPair = some x ∧ x.hm ∈ s.master.ch.pending
    let s' : State := { s with input := later }
    (∀ r h f, s.input = .env (.rxWrite r h f) :: later → ∃ t, step s = .next t ∧
      (s.bus.reference = false → runs r h → (r = .slave → h ∈ s.xMet) →
        t = s'.withRx r f ∧ t.rxContent r = f ∧ bytesKept s t [rxBufferOf r]) ∧
      (s.bus.reference = false → runs r h → r = .slave → h ∉ s.xMet →
        (∀ x, clocking x → x.hs = none → x.late = none →
          t = ({ s' with xPair := some { x with late := some h }, xMet := insertHandle h s.xMet } : State).withRx .slave f ∧
            t.rxContent .slave = f ∧ bytesKept s t [.sRxBuffer]) ∧
        ((¬∃ x, clocking x ∧ x.hs = none ∧ x.late = none) → t = s')) ∧
      ((s.bus.reference = true ∨ ¬runs r h) → t = s')) ∧
    (∀ r, s.input = .env (.clock r) :: later → ∃ t, step s = .next t ∧
      (∀ x, s.bus.reference = false → s.xPair = some x → r = .master → runs .master x.hm →
        t = s'.withRx .master x.s2m ∧ bytesKept s t [.mRxBuffer]) ∧
      (∀ x hs, s.bus.reference = false → s.xPair = some x → r = .slave → x.hs = some hs → runs .slave hs → hs ∈ s.xMet →
        t = s'.withRx .slave x.m2s ∧ bytesKept s t [.sRxBuffer]) ∧
      ((s.bus.reference = true ∨ ¬∃ x, s.xPair = some x ∧ ((r = .master ∧ runs .master x.hm) ∨
          (r = .slave ∧ ∃ hs, x.hs = some hs ∧ runs .slave hs ∧ hs ∈ s.xMet))) → t = s')) ∧
    (∀ a, s.input = .env a :: later →
      (a = .endExchange ∨ (∃ b, a = .bus b) ∨ (∃ r h, a = .nextHandle r h) ∨ ∃ r k, a = .abortKeeps r k) →
      ∃ t, step s = .next t ∧ t.input = later ∧ bytesKept s t [])

/-- R114 (the action is the model's form of it: log 23): the exchange end of the reference transport, enabled while the
master's transfer of the exchange is pending. The slave's side completes if the paired transfer is still active, the
master's if a slave transfer was paired or the parameter says so; each side that completes holds the other's bytes, and its
completion with `Ok` is what is delivered next, in the one order or the other. The model's choices beside R114: the paired
transfer is still the one that exchanged (`hs ∈ xMet`), and not a later one with its handle (log 27); an instance with a
fault recorded gets no completion (log 8). The exchange is over, and nothing else changes; where it is not enabled nothing
happens. -/
def Obligations.ReferenceExchangeEnd : Prop :=
  ∀ (s : State) (later : List Input) (first : Bool), configLegal s = true → s.input = .env (.finish first) :: later →
    let clocking := fun (x : Exchange) => s.xPair = some x ∧ x.hm ∈ s.master.ch.pending
    ∃ t, step s = .next t ∧
      (∀ x, s.bus.reference = true → clocking x →
        let toSlave := ∃ hs, x.hs = some hs ∧ s.slave.ch.active = true ∧ s.slave.ch.handle = hs ∧ hs ∈ s.xMet
        let toMaster := x.hs ≠ none ∨ s.bus.completeUnpaired = true
        let m := if s.master.fault = [] then [Input.record .master (encode (.mComplete x.hm .ok))] else []
        let v := if s.slave.fault = [] then [Input.record .slave (encode (.sComplete s.slave.ch.handle .ok))] else []
        t.master = { s.master with rxBuffer := t.master.rxBuffer } ∧ t.slave = { s.slave with rxBuffer := t.slave.rxBuffer } ∧
        t.xPair = none ∧ t.xMet = s.xMet ∧ t.bus = s.bus ∧ t.outputs = s.outputs ∧ t.free = s.free ∧
        (toSlave → t.slave.rxBuffer = x.m2s) ∧ (¬toSlave → t.slave.rxBuffer = s.slave.rxBuffer) ∧
        (toMaster → t.master.rxBuffer = x.s2m) ∧ (¬toMaster → t.master.rxBuffer = s.master.rxBuffer) ∧
        (toSlave → toMaster → t.input = (if first then m ++ v else v ++ m) ++ later) ∧
        (¬toSlave → toMaster → t.input = m ++ later) ∧ (¬toSlave → ¬toMaster → t.input = later)) ∧
      ((s.bus.reference = false ∨ ¬∃ x, clocking x) → t = { s with input := later })

/-- R1, R3, R173 (log 19): under a configuration whose constants differ from 256 and 4 at either end, or with
`MAX_ATTEMPTS = 0` or too wide, the machine takes no step. -/
def Obligations.IllegalConfigurationRefused : Prop :=
  ∀ s : State,
    (s.master.cfg.bufferSize ≠ 256 ∨ s.master.cfg.crcSize ≠ 4 ∨ s.slave.cfg.bufferSize ≠ 256 ∨ s.slave.cfg.crcSize ≠ 4 ∨
      s.master.cfg.maxAttempts = 0 ∨ 2 ^ 32 ≤ s.master.cfg.maxAttempts) →
    step s = .refused .illegalConfiguration

/-! ### CRC engine and frame codec -/

/-- R81, R82, R80: `CRC.COMPUTE` gives the bit-serial CRC of its payload, written out here from R81 and R2, and changes no
state. -/
def Obligations.CrcComputeResult : Prop :=
  ∀ (p : Payload) (s : State),
    let shift : Word32 → Word32 := fun c => if c.getLsbD 0 then (c >>> 1) ^^^ 0xEDB88320 else c >>> 1
    let byte : Word32 → Byte → Word32 := fun c b => shift^[8] (c ^^^ b.setWidth 32)
    exec (.crcCompute p) s =
      .next { s with outputs := s.outputs ++ [.crc (p.data.foldl byte 0xFFFFFFFF ^^^ 0xFFFFFFFF)] }

/-- R85: the table-driven form computes the same, byte step by byte step and for byte sequences of every length. -/
def Obligations.TableFormAgrees : Prop :=
  (∀ c b, crcByteTable c b = crcByte c b) ∧ ∀ B, crc32BytesTable B = crc32Bytes B

/-- R88: two payloads that differ in exactly one bit have different CRCs. -/
def Obligations.SingleBitChangesCrc : Prop :=
  ∀ (p : Payload) (i j : Nat), i < 256 → j < 8 → crcCompute (flipBit p i j) ≠ crcCompute p

/-- R95: an encoded frame with exactly one of its 2080 bits inverted decodes with `valid = 0`. -/
def Obligations.SingleBitFlipIsInvalid : Prop :=
  ∀ (p : Payload) (i j : Nat), i < 260 → j < 8 → (frameDecode (flipBit (frameEncode p) i j)).valid = false

/-- R87 (93_implementation_defined.md G3): `crc32_bytes` over all 260 bytes of a well-formed frame is one constant. -/
def Obligations.ResidueOfWellFormedFrame : Prop :=
  ∀ f : Frame, frameValid f = true → crc32Bytes f.data = 0x2144DF1C

/-- R94: decoding an encoded payload gives it back, with its CRC and `valid = 1`. -/
def Obligations.DecodeUndoesEncode : Prop :=
  ∀ p : Payload, frameDecode (frameEncode p) = { payload := p, receivedCrc := crcCompute p, valid := true }

/-- R96: encoding is injective, and a frame is valid exactly when it is the encoding of its first 256 bytes. -/
def Obligations.ValidFramesAreEncodings : Prop :=
  (∀ p q, frameEncode p = frameEncode q → p = q) ∧
    ∀ f : Frame, (frameDecode f).valid = true ↔ f = frameEncode (framePayload f)

/-- R90: `FC.ENCODE` gives the frame with the payload at 0 to 255 and its CRC little-endian at 256 to 259; no state
changes but that the result is emitted (log 17). -/
def Obligations.FcEncodeResult : Prop :=
  ∀ (p : Payload) (s : State), ∃ f : Frame,
    exec (.fcEncode p) s = .next { s with outputs := s.outputs ++ [.frame f] } ∧
    (∀ i, i < 256 → byteAt f i = byteAt p i) ∧
    byteAt f 256 = some ((crcCompute p).extractLsb' 0 8) ∧
    byteAt f 257 = some ((crcCompute p).extractLsb' 8 8) ∧
    byteAt f 258 = some ((crcCompute p).extractLsb' 16 8) ∧
    byteAt f 259 = some ((crcCompute p).extractLsb' 24 8)

/-- R91, R93: `FC.DECODE` of a byte sequence and its length. At 260: payload and received CRC are the bytes as received, and
`valid` says whether they agree. At any other `len` `valid` is 0 and nothing is said of the two other results. A `len` that is
not the length of `buf` stops nothing (the model's choice: log 28); where it is 260 nothing is said of the results. No state
changes but that the results are emitted and a draw of free values is counted (logs 12, 17). -/
def Obligations.FcDecodeResult : Prop :=
  ∀ (buf : List Byte) (len : Nat) (s : State),
    ∃ (p : Payload) (rc : Word32) (v : Bool),
      exec (.fcDecode buf len) s = .next { s with outputs := s.outputs ++ [.decoded p rc v], free := s.free + 1 } ∧
      (len ≠ 260 → v = false) ∧
      (len = 260 → buf.length = 260 →
        p.data = buf.take 256 ∧
        (∃ b0 b1 b2 b3, buf.drop 256 = [b0, b1, b2, b3] ∧
          rc = b0.setWidth 32 ||| b1.setWidth 32 <<< 8 ||| b2.setWidth 32 <<< 16 ||| b3.setWidth 32 <<< 24) ∧
        (v = true ↔ crcCompute p = rc))

/-! ### Retry policy -/

/-- R170: `RP.DECIDE` answers `Retry` exactly for the three retryable outcomes with attempts left; total on all operands,
and no state changes but that the result is emitted (log 17). -/
def Obligations.RpDecideResult : Prop :=
  ∀ (o : TransferOutcome) (a m : Nat) (s : State), ∃ d : Decision,
    exec (.rpDecide o a m) s = .next { s with outputs := s.outputs ++ [.decision d] } ∧
    (d = .retry ↔ (o = .crcMismatch ∨ o = .timeout ∨ o = .hardwareFault) ∧ a < m)

/-! ### Reset -/

/-- R201, R202, R203: the values the spec states for reset, in the state the machine starts in. -/
def Obligations.StateAfterReset : Prop :=
  State.reset.master.state = .idle ∧ State.reset.master.attempts = 0 ∧ State.reset.master.attStatus = .noAttempt ∧
  State.reset.master.outcomeValid = false ∧ State.reset.master.ch.active = false ∧ State.reset.master.fault = [] ∧
  State.reset.slave.state = .idle ∧ State.reset.slave.attStatus = .noAttempt ∧
  State.reset.slave.outcomeValid = false ∧ State.reset.slave.ch.active = false ∧ State.reset.slave.fault = [] ∧
  payloadRequest State.reset = true

/-- R200 to R204: `SYS.RESET` of one instance, in any state: the stated values; no report, no adapter command; the pending
sets, the parameters, the other instance and the transport stay, and so does the fault mark (R22, R207; log 8). Of the
channel only `ch_active` changes, and a transfer that was active joins those the adapter may still run (the model's field
`orphans`: log 18). Nothing is said of the registers the spec leaves unspecified. -/
def Obligations.ResetOfOneInstance : Prop :=
  ∀ s : State,
    (∃ t, exec (.sysReset .master) s = .next t ∧
      t.master = { s.master with
        state := .idle
        attempts := 0
        attStatus := .noAttempt
        outcomeValid := false
        payload := t.master.payload
        txFrame := t.master.txFrame
        rxBuffer := t.master.rxBuffer
        attStart := t.master.attStart
        handle := t.master.handle
        rawStatus := t.master.rawStatus
        outcome := t.master.outcome
        rxPayload := t.master.rxPayload
        ch := { s.master.ch with active := false, orphans := t.master.ch.orphans } } ∧
      (∀ h, h ∈ t.master.ch.orphans ↔
        h ∈ s.master.ch.orphans ∨ s.master.ch.active = true ∧ h = s.master.ch.handle) ∧
      t.slave = s.slave ∧ busKept s t ∧ t.outputs = s.outputs ∧ t.input = s.input ∧
      bytesKept s t [.mPayload, .mTxFrame, .mRxBuffer, .mRxPayload]) ∧
    (∃ t, exec (.sysReset .slave) s = .next t ∧
      t.slave = { s.slave with
        state := .idle
        attStatus := .noAttempt
        outcomeValid := false
        payload := t.slave.payload
        txFrame := t.slave.txFrame
        rxBuffer := t.slave.rxBuffer
        handle := t.slave.handle
        rawStatus := t.slave.rawStatus
        outcome := t.slave.outcome
        ch := { s.slave.ch with active := false, orphans := t.slave.ch.orphans } } ∧
      (∀ h, h ∈ t.slave.ch.orphans ↔ h ∈ s.slave.ch.orphans ∨ s.slave.ch.active = true ∧ h = s.slave.ch.handle) ∧
      t.master = s.master ∧ busKept s t ∧ t.outputs = s.outputs ∧ t.input = s.input ∧
      bytesKept s t [.sPayload, .sTxFrame, .sRxBuffer])

/-! ### DMA channel commands -/

/-- R100: `DMA.START` on an idle channel of an instance: the channel is active with the handle returned, which joins the
pending set; the adapter owns the buffers, so the rx buffer's content is open; every other array, the FSM's registers and
the other instance stay. The master's start begins an exchange of the bus (R113, R114; logs 8, 23), and only that; the slave's
arms a transfer that has exchanged nothing (log 27). -/
def Obligations.DmaStartOnIdleChannel : Prop :=
  ∀ (r : Role) (s : State), faultFree s r → (s.channel r).active = false →
    ∃ t, exec (.dmaStart r) s = .next t ∧
      t.channel r = { s.channel r with
        active := true
        handle := freshHandle s r
        pending := (t.channel r).pending
        next := freshHandle s r + 1
        begun := false } ∧
      (∀ x, x ∈ (t.channel r).pending ↔ x = freshHandle s r ∨ x ∈ (s.channel r).pending) ∧
      t.outputs = s.outputs ++ [.dmaStart r (freshHandle s r)] ∧
      t.master = { s.master with ch := t.master.ch, rxBuffer := t.master.rxBuffer } ∧
      t.slave = { s.slave with ch := t.slave.ch, rxBuffer := t.slave.rxBuffer } ∧ t.bus = s.bus ∧
      (r = .master → t.slave = s.slave ∧ t.xPair = some (exchangeBegun s (freshHandle s .master)) ∧ t.xMet = metBegun s ∧
        t.input = beginOffered s ++ s.input) ∧
      (r = .slave → t.master = s.master ∧ t.xPair = s.xPair ∧ t.xMet = removeHandle (freshHandle s .slave) s.xMet ∧
        t.input = s.input) ∧
      bytesKept s t [rxBufferOf r]

/-- R112, R113, R114, R108 (in the model's form: logs 23, 27): the exchange that the master's `DMA.START` begins. It is paired
with the slave's active transfer, unless that has exchanged bytes already; the frames are those of that moment, as
corrupted; the reference transport delivers `S.BEGIN` next, unless the slave has faulted (log 8), any other may. With no slave transfer to pair, nothing is said of
the bytes the master will receive. From then on the master is clocking. -/
def Obligations.ExchangeBegunAtMasterStart : Prop :=
  ∀ s : State, faultFree s .master → s.master.ch.active = false →
    ∃ t x, exec (.dmaStart .master) s = .next t ∧ t.xPair = some x ∧ x.hm = freshHandle s .master ∧
      x.hm ∈ t.master.ch.pending ∧ x.m2s = xorBytes s.master.txFrame s.bus.corruptM2s ∧ x.late = none ∧
      (s.bus.reference = false → metIfCut s = s.xMet) ∧
      (s.slave.ch.active = true → s.slave.ch.handle ∉ metIfCut s →
        x.hs = some s.slave.ch.handle ∧ x.s2m = xorBytes s.slave.txFrame s.bus.corruptS2m ∧
        (∀ h, h ∈ t.xMet ↔ h = s.slave.ch.handle ∨ h ∈ metIfCut s) ∧
        t.input = if s.bus.reference = true ∧ s.slave.fault = [] then .record .slave (encode (.sBegin s.slave.ch.handle)) :: s.input
          else s.input) ∧
      (¬(s.slave.ch.active = true ∧ s.slave.ch.handle ∉ metIfCut s) →
        x.hs = none ∧ t.xMet = metIfCut s ∧ t.input = s.input)

/-- R104, R22, R207: `DMA.START` while a transfer is active records `StartWhileActive` and does nothing else; after it the
instance takes no further step (log 8). -/
def Obligations.DmaStartWhileActive : Prop :=
  ∀ (r : Role) (s : State), faultFree s r → (s.channel r).active = true →
    exec (.dmaStart r) s = .next (s.withFault r .startWhileActive) ∧
      ∀ i, instrOwner i = some r →
        exec i (s.withFault r .startWhileActive) = .fault (.instanceFaulted r .startWhileActive)

/-- R105, R204, R211 (93_implementation_defined.md U31): the handle that `DMA.START` returns differs from every pending
handle, from the FSM's handle in use, and from every handle for which the timer is pending, as long as fewer than `2^32`
handles are in those positions (log 9). -/
def Obligations.ReturnedHandleIsFresh : Prop :=
  ∀ (s : State) (r : Role), (handleInUse s r ++ (s.channel r).pending ++ s.timer r).length < 2 ^ 32 →
    freshHandle s r ∉ handleInUse s r ∧ freshHandle s r ∉ (s.channel r).pending ∧ freshHandle s r ∉ s.timer r

/-- R102: `DMA.ABORT` of the active transfer's handle ends it; the handle stays pending or not as the adapter chose
(log 10), and does not under the reference transport (R114); the rx buffer's content is open (R50). The master's abort also
ends the exchange of the bus (R114: `x_pair` becomes none; for every transport of the contract this is the model's reading,
DEDUCED, log 23). Of any other handle it has no effect but that the command is seen (log 21). -/
def Obligations.DmaAbortResult : Prop :=
  ∀ (r : Role) (h : Handle) (s : State), faultFree s r →
    (((s.channel r).active = true ∧ (s.channel r).handle = h) →
      ∃ t, exec (.dmaAbort r h) s = .next t ∧
        t.channel r = { s.channel r with active := false, pending := (t.channel r).pending } ∧
        (∀ x, x ∈ (t.channel r).pending ↔
          x ∈ (s.channel r).pending ∧ (((s.channel r).keep = true ∧ s.bus.reference = false) ∨ x ≠ h)) ∧
        t.outputs = s.outputs ++ [.dmaAbort r h] ∧ t.input = s.input ∧ t.bus = s.bus ∧
        t.master = { s.master with ch := t.master.ch, rxBuffer := t.master.rxBuffer } ∧
        t.slave = { s.slave with ch := t.slave.ch, rxBuffer := t.slave.rxBuffer } ∧
        (r = .master → t.slave = s.slave ∧ t.xPair = none ∧ t.xMet = metIfCut s) ∧
        (r = .slave → t.master = s.master ∧ busKept s t) ∧
        bytesKept s t [rxBufferOf r]) ∧
    (¬((s.channel r).active = true ∧ (s.channel r).handle = h) →
      exec (.dmaAbort r h) s = .next { s with outputs := s.outputs ++ [.dmaAbort r h] })

/-! ### Slave FSM -/

/-- R121: `S.PROVIDE` in `S_Idle` with the channel idle stores the payload, encodes it, starts the transfer, starts the arm
timer unless `ARM_TIMEOUT` is none, and arms. The handle is the adapter's fresh one (R105; log 9), the rx buffer's content is
open (log 11), and the transfer is a new one for the bus, which has exchanged no bytes (the model's form: log 27). -/
def Obligations.SProvideArms : Prop :=
  ∀ (p : Payload) (s : State), faultFree s .slave → s.slave.state = .idle → s.slave.ch.active = false →
    ∃ t, exec (.sProvide p) s = .next t ∧
      t.slave = { s.slave with
        payload := p
        txFrame := frameEncode p
        rxBuffer := t.slave.rxBuffer
        handle := freshHandle s .slave
        attStatus := .pending
        tmPending := if s.slave.cfg.armTimeout = none then s.slave.tmPending
          else insertHandle (freshHandle s .slave) s.slave.tmPending
        state := .armed
        ch := channelStarted s.slave.ch (freshHandle s .slave) } ∧
      t.master = s.master ∧ t.xPair = s.xPair ∧ t.xMet = removeHandle (freshHandle s .slave) s.xMet ∧ t.bus = s.bus ∧
      t.input = s.input ∧
      t.outputs = s.outputs ++ [.dmaStart .slave (freshHandle s .slave)] ∧ payloadRequest t = false ∧
      bytesKept s t [.sPayload, .sTxFrame, .sRxBuffer]

/-- R122, R110, R183: `S.BEGIN(h)` can be delivered while the slave's channel is active with `h` and the master is clocking
(log 20), once per transfer; in `S_Armed` with `h = s_handle` it moves to `S_Receiving` and writes only `s_state`, otherwise
it is discarded. Where it cannot be delivered nothing happens (log 6). That it was delivered is the transport's to remember,
not the FSM's. -/
def Obligations.SBeginResult : Prop :=
  ∀ (h : Handle) (s : State), faultFree s .slave →
    let deliverable := s.slave.ch.active = true ∧ s.slave.ch.handle = h ∧ s.slave.ch.begun = false ∧
      ∃ x, s.xPair = some x ∧ x.hm ∈ s.master.ch.pending
    (deliverable → s.slave.state = .armed → h = s.slave.handle →
      exec (.sBegin h) s =
        .next { s with slave := { s.slave with state := .receiving, ch := { s.slave.ch with begun := true } } }) ∧
    (deliverable → ¬(s.slave.state = .armed ∧ h = s.slave.handle) →
      exec (.sBegin h) s = .next { s with slave := { s.slave with ch := { s.slave.ch with begun := true } } }) ∧
    (¬deliverable → exec (.sBegin h) s = .next s)

/-- R123, R101, R183: `S.COMPLETE(h, st)`, delivered while `h` is pending, takes `h` out of the pending set and ends the
active transfer if it is its handle; in `S_Armed` or `S_Receiving` with `h = s_handle` it stores the status and completes the
attempt, otherwise it is discarded (R126). No byte of any array changes, but for the rx buffer where the active transfer
ended with `Error` (R50; log 11). A transfer that a reset cut off is no longer among those the adapter may still run (the
model's field `orphans`: log 18, from R204). -/
def Obligations.SCompleteResult : Prop :=
  ∀ (h : Handle) (st : RawStatus) (s : State), faultFree s .slave → h ∈ s.slave.ch.pending →
    ∃ t, exec (.sComplete h st) s = .next t ∧
      t.slave.ch = { s.slave.ch with
        active := s.slave.ch.active && !decide (s.slave.ch.handle = h)
        pending := removeHandle h s.slave.ch.pending
        orphans := removeHandle h s.slave.ch.orphans } ∧
      (((s.slave.state = .armed ∨ s.slave.state = .receiving) ∧ h = s.slave.handle) →
        t.slave = { s.slave with
          rawStatus := st, attStatus := .complete, state := .completed, ch := t.slave.ch, rxBuffer := t.slave.rxBuffer }) ∧
      (¬((s.slave.state = .armed ∨ s.slave.state = .receiving) ∧ h = s.slave.handle) →
        t.slave = { s.slave with ch := t.slave.ch, rxBuffer := t.slave.rxBuffer }) ∧
      t.master = s.master ∧ busKept s t ∧ t.outputs = s.outputs ∧ t.input = s.input ∧
      bytesKept s t (if s.slave.ch.active = true ∧ s.slave.ch.handle = h ∧ st = .error then [.sRxBuffer] else [])

/-- R124, R187: `S.REPORT` in `S_Completed`: `HardwareFault` if the transport reported an error (and nothing is said of the
payload), otherwise the CRC verdict with the bytes as received; the slave returns to `S_Idle`. The channel is idle where the
buffer is read (R46). -/
def Obligations.SReportResult : Prop :=
  ∀ s : State, faultFree s .slave → s.slave.state = .completed →
    (s.slave.rawStatus = .ok → s.slave.ch.active = false) →
    ∃ t o p, exec .sReport s = .next t ∧
      (s.slave.rawStatus = .error → o = .hardwareFault) ∧
      (s.slave.rawStatus = .ok → p.data = memRead s.slave.rxBuffer 0 256 ∧
        o = if crcCompute p = frameCrc s.slave.rxBuffer then .crcValid else .crcMismatch) ∧
      t.slave = { s.slave with outcome := o, outcomeValid := true, state := .idle } ∧
      t.outputs = s.outputs ++ [.report (.frameReceived o p)] ∧
      t.master = s.master ∧ busKept s t ∧ t.input = s.input ∧ payloadRequest t = true ∧ bytesKept s t []

/-- R125: `S.ARM_TIMEOUT(h)`, delivered while the timer is pending for `h`, in `S_Armed` with `h = s_handle` aborts the
transfer (R102), reports `Timeout` and returns to `S_Idle`; otherwise it is discarded (its delivery alone takes `h` from the
timer's set, R21). The abort's part is the model's as in `DmaAbortResult`: whether the handle stays pending is the adapter's
choice (log 10), the rx buffer's content is open (log 11), and where the handle is not the active transfer's the command has
no effect (log 21). -/
def Obligations.SArmTimeoutResult : Prop :=
  ∀ (h : Handle) (s : State), faultFree s .slave → h ∈ s.slave.tmPending →
    ((s.slave.state = .armed ∧ h = s.slave.handle) →
      ∃ t p, exec (.sArmTimeout h) s = .next t ∧
        t.slave = { s.slave with
          attStatus := .timedOut
          outcome := .timeout
          outcomeValid := true
          state := .idle
          tmPending := removeHandle h s.slave.tmPending
          ch := if s.slave.ch.active = true ∧ s.slave.ch.handle = h
            then channelAborted s.slave.ch (abortKept s .slave) else s.slave.ch
          rxBuffer := t.slave.rxBuffer } ∧
        t.outputs = s.outputs ++ [.dmaAbort .slave h, .report (.frameReceived .timeout p)] ∧
        t.master = s.master ∧ busKept s t ∧ t.input = s.input ∧
        bytesKept s t (if s.slave.ch.active = true ∧ s.slave.ch.handle = h then [.sRxBuffer] else [])) ∧
    (¬(s.slave.state = .armed ∧ h = s.slave.handle) →
      exec (.sArmTimeout h) s =
        .next { s with slave := { s.slave with tmPending := removeHandle h s.slave.tmPending } })

/-- R127: `S.TRANSPORT_ABORT` in `S_Idle`, `S_Armed`, `S_Receiving` reports `Aborted` and ends in `S_Idle`, aborting a
transfer in flight (R102); in `S_Completed` it is discarded. The abort's part is the model's as in `DmaAbortResult`: whether
the handle stays pending is the adapter's choice (log 10), the rx buffer's content is open (log 11), and where the handle is
not the active transfer's the command has no effect (log 21). -/
def Obligations.STransportAbortResult : Prop :=
  ∀ s : State, faultFree s .slave →
    ((s.slave.state = .armed ∨ s.slave.state = .receiving) →
      ∃ t p, exec .sTransportAbort s = .next t ∧
        t.slave = { s.slave with
          attStatus := .aborted
          outcome := .aborted
          outcomeValid := true
          state := .idle
          ch := if s.slave.ch.active = true ∧ s.slave.ch.handle = s.slave.handle
            then channelAborted s.slave.ch (abortKept s .slave) else s.slave.ch
          rxBuffer := t.slave.rxBuffer } ∧
        t.outputs = s.outputs ++ [.dmaAbort .slave s.slave.handle, .report (.frameReceived .aborted p)] ∧
        t.master = s.master ∧ busKept s t ∧ t.input = s.input ∧
        bytesKept s t (if s.slave.ch.active = true ∧ s.slave.ch.handle = s.slave.handle then [.sRxBuffer] else [])) ∧
    (s.slave.state = .idle →
      ∃ t p, exec .sTransportAbort s = .next t ∧
        t.slave = { s.slave with outcome := .aborted, outcomeValid := true } ∧
        t.outputs = s.outputs ++ [.report (.frameReceived .aborted p)] ∧
        t.master = s.master ∧ busKept s t ∧ t.input = s.input ∧ bytesKept s t []) ∧
    (s.slave.state = .completed → exec .sTransportAbort s = .next s)

/-! ### Master FSM -/

/-- R141: `M.SEND` outside a session stores the payload and starts a session; in one it is refused with `Busy` (R72;
log 7) and changes nothing. -/
def Obligations.MSendResult : Prop :=
  ∀ (p : Payload) (s : State), faultFree s .master →
    ((s.master.state = .idle ∨ s.master.state = .success ∨ s.master.state = .failed) →
      ∃ t, exec (.mSend p) s = .next t ∧
        t = { s with master := { s.master with
          payload := p, attempts := 1, attStatus := .noAttempt, outcomeValid := false, state := .encoding } } ∧
        bytesKept s t [.mPayload]) ∧
    ((s.master.state = .encoding ∨ s.master.state = .transferring ∨ s.master.state = .evaluating ∨
        s.master.state = .retrying) →
      exec (.mSend p) s = .next { s with outputs := s.outputs ++ [.report (.busy .master)] })

/-- R142: `M.ENCODE(now)` in `M_Encoding` with the channel idle encodes the payload, starts the transfer and the attempt
timer, and waits in `M_Transferring`. The handle is the adapter's fresh one (R105), and the bus begins the exchange of the
frame just encoded, as at any start of the master (`ExchangeBegunAtMasterStart`; logs 8, 23, 27). -/
def Obligations.MEncodeStartsTransfer : Prop :=
  ∀ (now : Time) (s : State), faultFree s .master → s.master.state = .encoding → s.master.ch.active = false →
    let h := freshHandle s .master
    ∃ t, exec (.mEncode now) s = .next t ∧
      t.master = { s.master with
        txFrame := frameEncode s.master.payload
        rxBuffer := t.master.rxBuffer
        handle := h
        attStatus := .pending
        attStart := now
        tmPending := insertHandle h s.master.tmPending
        state := .transferring
        ch := channelStarted s.master.ch h } ∧
      t.slave = s.slave ∧ t.bus = s.bus ∧ t.input = beginOffered s ++ s.input ∧ t.xMet = metBegun s ∧
      t.xPair = some { exchangeBegun s h with m2s := xorBytes (frameEncode s.master.payload) s.bus.corruptM2s } ∧
      t.outputs = s.outputs ++ [.dmaStart .master h] ∧
      bytesKept s t [.mTxFrame, .mRxBuffer]

/-- R143, R101, R183: `M.COMPLETE(h, st)`, delivered while `h` is pending, takes `h` out of the pending set and ends the
active transfer if it is its handle; in `M_Transferring` with `h = m_handle` it stores the status and moves to
`M_Evaluating`, otherwise it is discarded (R149). No byte of any array changes, but for the rx buffer where the active
transfer ended with `Error` (R50; log 11). A transfer that a reset cut off is no longer among those the adapter may still
run (the model's field `orphans`: log 18, from R204). -/
def Obligations.MCompleteResult : Prop :=
  ∀ (h : Handle) (st : RawStatus) (s : State), faultFree s .master → h ∈ s.master.ch.pending →
    ∃ t, exec (.mComplete h st) s = .next t ∧
      t.master.ch = { s.master.ch with
        active := s.master.ch.active && !decide (s.master.ch.handle = h)
        pending := removeHandle h s.master.ch.pending
        orphans := removeHandle h s.master.ch.orphans } ∧
      ((s.master.state = .transferring ∧ h = s.master.handle) →
        t.master = { s.master with
          rawStatus := st
          attStatus := .complete
          state := .evaluating
          ch := t.master.ch
          rxBuffer := t.master.rxBuffer }) ∧
      (¬(s.master.state = .transferring ∧ h = s.master.handle) →
        t.master = { s.master with ch := t.master.ch, rxBuffer := t.master.rxBuffer }) ∧
      t.slave = s.slave ∧ busKept s t ∧ t.outputs = s.outputs ∧ t.input = s.input ∧
      bytesKept s t (if s.master.ch.active = true ∧ s.master.ch.handle = h ∧ st = .error then [.mRxBuffer] else [])

/-- R144: `M.TIMEOUT(h)`, delivered while the timer is pending for `h`, in `M_Transferring` with `h = m_handle` aborts the
transfer (R102) and moves to `M_Evaluating` as timed out; otherwise it is discarded (its delivery alone takes `h` from the
timer's set, R21). The abort's part is the model's as in `DmaAbortResult`: whether the handle stays pending is the adapter's
choice (log 10), the rx buffer's content is open (log 11), the exchange ends under every transport (DEDUCED, log 23) with
its slave transfer as logs 23 and 27 say, and where the handle is not the active transfer's the command has no effect
(log 21). -/
def Obligations.MTimeoutResult : Prop :=
  ∀ (h : Handle) (s : State), faultFree s .master → h ∈ s.master.tmPending →
    ((s.master.state = .transferring ∧ h = s.master.handle) →
      let aborts := s.master.ch.active = true ∧ s.master.ch.handle = h
      ∃ t, exec (.mTimeout h) s = .next t ∧
        t.master = { s.master with
          attStatus := .timedOut
          state := .evaluating
          tmPending := removeHandle h s.master.tmPending
          ch := if s.master.ch.active = true ∧ s.master.ch.handle = h
            then channelAborted s.master.ch (abortKept s .master) else s.master.ch
          rxBuffer := t.master.rxBuffer } ∧
        t.outputs = s.outputs ++ [.dmaAbort .master h] ∧ t.slave = s.slave ∧ t.input = s.input ∧ t.bus = s.bus ∧
        (aborts → t.xPair = none ∧ t.xMet = metIfCut s ∧ bytesKept s t [.mRxBuffer]) ∧
        (¬aborts → busKept s t ∧ bytesKept s t [])) ∧
    (¬(s.master.state = .transferring ∧ h = s.master.handle) →
      exec (.mTimeout h) s =
        .next { s with master := { s.master with tmPending := removeHandle h s.master.tmPending } })

/-- R145, R187: `M.EVALUATE` in `M_Evaluating`: a timed-out attempt is a `Timeout`; else an errored completion is a
`HardwareFault`; else the CRC decides, and only a valid frame delivers its payload. The channel is idle where the buffer is
read (R46). -/
def Obligations.MEvaluateResult : Prop :=
  ∀ s : State, faultFree s .master → s.master.state = .evaluating →
    (s.master.attStatus = .timedOut →
      exec .mEvaluate s = .next
        { s with master := { s.master with outcome := .timeout, outcomeValid := true, state := .retrying } }) ∧
    (s.master.attStatus ≠ .timedOut → s.master.rawStatus = .error →
      exec .mEvaluate s = .next
        { s with master := { s.master with outcome := .hardwareFault, outcomeValid := true, state := .retrying } }) ∧
    (s.master.attStatus ≠ .timedOut → s.master.rawStatus = .ok → s.master.ch.active = false →
      ∃ p : Payload, p.data = memRead s.master.rxBuffer 0 256 ∧
        (crcCompute p ≠ frameCrc s.master.rxBuffer →
          exec .mEvaluate s = .next
            { s with master := { s.master with outcome := .crcMismatch, outcomeValid := true, state := .retrying } }) ∧
        (crcCompute p = frameCrc s.master.rxBuffer →
          ∃ t, exec .mEvaluate s = .next t ∧
            t.master = { s.master with outcome := .crcValid, outcomeValid := true, rxPayload := p, state := .success } ∧
            t.outputs = s.outputs ++ [.report (.success p)] ∧
            t.slave = s.slave ∧ busKept s t ∧ t.input = s.input ∧ bytesKept s t [.mRxPayload]))

/-- R146, R171: `M.RETRY` in `M_Retrying` asks the policy with the one-based attempt count: with `Retry` the next attempt
begins, with the application's payload if it gave one; with `GiveUp` the session fails and reports. -/
def Obligations.MRetryResult : Prop :=
  ∀ (q : Option Payload) (s : State), faultFree s .master → s.master.state = .retrying →
    (((s.master.outcome = .crcMismatch ∨ s.master.outcome = .timeout ∨ s.master.outcome = .hardwareFault) ∧
        s.master.attempts < s.master.cfg.maxAttempts) →
      ∃ t, exec (.mRetry q) s = .next t ∧
        t = { s with master := { s.master with
          attempts := s.master.attempts + 1, payload := t.master.payload, state := .encoding } } ∧
        (∀ p, q = some p → t.master.payload = p) ∧ (q = none → t.master.payload = s.master.payload) ∧
        bytesKept s t [.mPayload]) ∧
    (¬((s.master.outcome = .crcMismatch ∨ s.master.outcome = .timeout ∨ s.master.outcome = .hardwareFault) ∧
        s.master.attempts < s.master.cfg.maxAttempts) →
      exec (.mRetry q) s = .next { s with
        master := { s.master with state := .failed }
        outputs := s.outputs ++ [.report (.failed s.master.outcome s.master.attempts)] })

/-- R148: `M.CANCEL` in `M_Transferring` aborts the transfer (R102) and fails the session with `Cancelled`; in the three other
session states it fails the session without a command; elsewhere it is discarded. The abort's part is the model's as in
`DmaAbortResult`: whether the handle stays pending is the adapter's choice (log 10), the rx buffer's content is open
(log 11), the exchange ends under every transport (DEDUCED, log 23) with its slave transfer as logs 23 and 27 say, and where
the handle is not the active transfer's the command has no effect (log 21). -/
def Obligations.MCancelResult : Prop :=
  ∀ s : State, faultFree s .master →
    (s.master.state = .transferring →
      let aborts := s.master.ch.active = true ∧ s.master.ch.handle = s.master.handle
      ∃ t, exec .mCancel s = .next t ∧
        t.master = { s.master with
          attStatus := .aborted
          outcome := .cancelled
          outcomeValid := true
          state := .failed
          ch := if s.master.ch.active = true ∧ s.master.ch.handle = s.master.handle
            then channelAborted s.master.ch (abortKept s .master) else s.master.ch
          rxBuffer := t.master.rxBuffer } ∧
        t.outputs = s.outputs ++
          [.dmaAbort .master s.master.handle, .report (.failed .cancelled s.master.attempts)] ∧
        t.slave = s.slave ∧ t.input = s.input ∧ t.bus = s.bus ∧
        (aborts → t.xPair = none ∧ t.xMet = metIfCut s ∧ bytesKept s t [.mRxBuffer]) ∧
        (¬aborts → busKept s t ∧ bytesKept s t [])) ∧
    ((s.master.state = .encoding ∨ s.master.state = .evaluating ∨ s.master.state = .retrying) →
      exec .mCancel s = .next { s with
        master := { s.master with outcome := .cancelled, outcomeValid := true, state := .failed }
        outputs := s.outputs ++ [.report (.failed .cancelled s.master.attempts)] }) ∧
    ((s.master.state = .idle ∨ s.master.state = .success ∨ s.master.state = .failed) →
      exec .mCancel s = .next s)

/-! ### Refused, discarded and faulting steps -/

/-- R72 (log 7): `S.PROVIDE` outside `S_Idle` is refused with `Busy` and changes nothing. -/
def Obligations.SProvideBusy : Prop :=
  ∀ (p : Payload) (s : State), faultFree s .slave → s.slave.state ≠ .idle →
    exec (.sProvide p) s = .next { s with outputs := s.outputs ++ [.report (.busy .slave)] }

/-- R131, R152, R183 (log 6): an internal step that is not enabled, and a notification that its source cannot deliver,
change nothing. -/
def Obligations.StepsNotEnabledChangeNothing : Prop :=
  ∀ s : State,
    (faultFree s .master →
      (∀ now, s.master.state ≠ .encoding → exec (.mEncode now) s = .next s) ∧
      (s.master.state ≠ .evaluating → exec .mEvaluate s = .next s) ∧
      (∀ q, s.master.state ≠ .retrying → exec (.mRetry q) s = .next s) ∧
      (∀ h st, h ∉ s.master.ch.pending → exec (.mComplete h st) s = .next s) ∧
      (∀ h, h ∉ s.master.tmPending → exec (.mTimeout h) s = .next s)) ∧
    (faultFree s .slave →
      (s.slave.state ≠ .completed → exec .sReport s = .next s) ∧
      (∀ h st, h ∉ s.slave.ch.pending → exec (.sComplete h st) s = .next s) ∧
      (∀ h, h ∉ s.slave.tmPending → exec (.sArmTimeout h) s = .next s))

/-- R47, R22 (log 22): a step that would touch a frame buffer while the adapter owns it records `BufferOwnership` and does
nothing else. -/
def Obligations.BufferOwnershipFaults : Prop :=
  ∀ s : State,
    (faultFree s .master → s.master.ch.active = true →
      (∀ now, s.master.state = .encoding → exec (.mEncode now) s = .next (s.withFault .master .bufferOwnership)) ∧
      (s.master.state = .evaluating → s.master.attStatus ≠ .timedOut → s.master.rawStatus = .ok →
        exec .mEvaluate s = .next (s.withFault .master .bufferOwnership))) ∧
    (faultFree s .slave → s.slave.ch.active = true →
      (∀ p, s.slave.state = .idle → exec (.sProvide p) s = .next (s.withFault .slave .bufferOwnership)) ∧
      (s.slave.state = .completed → s.slave.rawStatus = .ok →
        exec .sReport s = .next (s.withFault .slave .bufferOwnership)))

/-- R22, R207 (log 8): an instance with a fault recorded takes no further step: each of its records stops the machine with
the first reason recorded. -/
def Obligations.FaultedInstanceStops : Prop :=
  ∀ (i : Instr) (s : State) (r : Role) (reason : FaultReason) (more : List FaultReason),
    instrOwner i = some r → s.faultMark r = reason :: more → exec i s = .fault (.instanceFaulted r reason)

/-! ### The whole machine -/

/-- R23 items 4 and 5, R145, R146, R147, R181: the invariants hold in the state the machine starts in, and its configuration
is legal. Where the spec gives no value there, the clause rests on the model's choice: the empty pending sets on log 13, the
parameters on log 14. -/
def Obligations.InvariantAtReset : Prop :=
  SystemInv State.reset ∧ OwnershipInv State.reset ∧ configLegal State.reset = true

/-- R20, R23 items 4 and 5, R46, R145, R146, R147, R181: every step keeps the invariant, from every state that has it. -/
def Obligations.EveryStepKeepsInvariant : Prop :=
  ∀ s t : State, SystemInv s → step s = .next t → SystemInv t

/-- R46, R115, R113 (logs 18, 27): whatever the transport does by itself, an rx buffer changes only while its adapter runs a
transfer, the active one or one that a reset cut off (log 18), the slave's only where an exchange with the master has reached
a transfer that the adapter runs (log 27) or the master is clocking now; no other array changes, and no FSM register. -/
def Obligations.TransportTouchesOnlyOwnedRxBuffers : Prop :=
  ∀ (a : EnvAct) (s : State), SystemInv s →
    (∀ r, (envAct a s).rxContent r ≠ s.rxContent r →
      ∃ h, (((s.channel r).active = true ∧ (s.channel r).handle = h) ∨ h ∈ (s.channel r).orphans) ∧
        (r = .slave → h ∈ s.xMet ∨ masterClocking s = true)) ∧
    (∃ rx next keep, (envAct a s).master =
      { s.master with rxBuffer := rx, ch := { s.master.ch with next := next, keep := keep } }) ∧
    (∃ rx next keep, (envAct a s).slave =
      { s.slave with rxBuffer := rx, ch := { s.slave.ch with next := next, keep := keep } }) ∧
    bytesKept s (envAct a s) [.mRxBuffer, .sRxBuffer]

/-- R113, R112 (log 27): a slave transfer comes to exchange bytes only while the master is clocking, and the master comes to
clock only by its own `DMA.START`. -/
def Obligations.OnlyTheMastersStartMovesBytes : Prop :=
  (∀ (s t : State), step s = .next t → ∀ h, h ∈ t.xMet → h ∈ s.xMet ∨ masterClocking t = true) ∧
  (∀ (i : Instr) (s t : State), exec i s = .next t → masterClocking s = false → masterClocking t = true →
    masterStarts t = masterStarts s + 1) ∧
  ∀ (a : EnvAct) (s : State), masterClocking s = false → masterClocking (envAct a s) = false

/-- R23 items 1, 2 and 3, R120, R207: where only the FSMs issue adapter commands, no step stops with a fault, none records
one, and a channel is active exactly while its FSM waits for that transfer. -/
def Obligations.FsmDrivenSystemNeverFaults : Prop :=
  ∀ s : State, OwnershipInv s → inputsFsmDriven s →
    (∀ f, step s ≠ .fault f) ∧ ∀ t, step s = .next t → OwnershipInv t ∧ inputsFsmDriven t

/-- R18, R22: a step never changes the parameters, never takes a reason out of a fault mark, and only adds to what was
emitted. -/
def Obligations.ParametersFaultsAndOutputsOnlyGrow : Prop :=
  ∀ s t : State, step s = .next t →
    t.master.cfg = s.master.cfg ∧ t.slave.cfg = s.slave.cfg ∧ s.outputs <+: t.outputs ∧
      s.master.fault <+: t.master.fault ∧ s.slave.fault <+: t.slave.fault

/-- R53, R194: the instances share nothing but the bus: a master's record leaves the slave instance as it is, a slave's
record the master instance and the exchange in progress, and the four operations everything but what is emitted and drawn.
No record changes the parameters of the bus, and none offers anything but the master's start, at which the reference
transport delivers `S.BEGIN` (R114; log 23). -/
def Obligations.InstancesShareNothing : Prop :=
  ∀ (i : Instr) (s t : State), exec i s = .next t →
    ((instrOwner i = some .master ∨ i = .sysReset .master) → t.slave = s.slave) ∧
    ((instrOwner i = some .slave ∨ i = .sysReset .slave) → t.master = s.master ∧ t.xPair = s.xPair) ∧
    ((instrOwner i = none ∧ ∀ r, i ≠ .sysReset r) → t.master = s.master ∧ t.slave = s.slave ∧ busKept s t) ∧
    t.bus = s.bus ∧
    (t.input = s.input ∨ s.bus.reference = true ∧ (i = .dmaStart .master ∨ ∃ now, i = .mEncode now) ∧
      s.slave.ch.active = true ∧ t.input = .record .slave (encode (.sBegin s.slave.ch.handle)) :: s.input)

/-- R152: `m_state` changes only along the edges of the table. -/
def Obligations.MasterMovesByItsTable : Prop :=
  ∀ (i : Instr) (s t : State), exec i s = .next t →
    t.master.state = s.master.state ∨ MasterEdge s.master i t.master.state

/-- R131: `s_state` changes only along the edges of the table. -/
def Obligations.SlaveMovesByItsTable : Prop :=
  ∀ (i : Instr) (s t : State), exec i s = .next t →
    t.slave.state = s.slave.state ∨ SlaveEdge s.slave i t.slave.state

/-- R147: the attempt counter is written by `M.SEND` (1), by `M.RETRY` when it retries (one more, and only below
`MAX_ATTEMPTS`) and by reset (0), and by nothing else. -/
def Obligations.AttemptCounterWriters : Prop :=
  ∀ (i : Instr) (s t : State), exec i s = .next t →
    t.master.attempts = s.master.attempts ∨
    (∃ p, i = .mSend p ∧ t.master.attempts = 1) ∨
    (∃ q, i = .mRetry q ∧ t.master.attempts = s.master.attempts + 1 ∧
      s.master.attempts < s.master.cfg.maxAttempts ∧ t.master.state = .encoding) ∨
    (i = .sysReset .master ∧ t.master.attempts = 0)

/-- R153: a session report is emitted exactly when a record ends a session, one of them; a reset emits none (R200). -/
def Obligations.OneReportPerSession : Prop :=
  ∀ (i : Instr) (s t : State), exec i s = .next t →
    sessionReports t = sessionReports s +
      if inSession s.master.state = true ∧ inSession t.master.state = false ∧ i ≠ .sysReset .master then 1 else 0

/-- R132: one `FrameReceived` is emitted exactly when a record returns the slave to `S_Idle`, or is an
`S.TRANSPORT_ABORT` in `S_Idle`; a reset emits none (R200). -/
def Obligations.OneFrameReportPerArming : Prop :=
  ∀ (i : Instr) (s t : State), exec i s = .next t →
    frameReports t = frameReports s +
      if t.slave.state = .idle ∧ (s.slave.state ≠ .idle ∨ i = .sTransportAbort) ∧ i ≠ .sysReset .slave then 1 else 0

/-- R55, R149, R185: completion and timeout of one attempt race: whichever comes first commits the attempt, the other is
discarded: after it the FSM's registers and the outputs are as the first left them. -/
def Obligations.FirstOfCompletionAndTimeoutCommits : Prop :=
  ∀ (h : Handle) (st : RawStatus) (s : State), faultFree s .master → s.master.state = .transferring →
    h = s.master.handle → h ∈ s.master.ch.pending → h ∈ s.master.tmPending →
    (∃ t u, exec (.mComplete h st) s = .next t ∧ exec (.mTimeout h) t = .next u ∧
      t.master.state = .evaluating ∧ t.master.attStatus = .complete ∧
      u = { t with master := { t.master with tmPending := removeHandle h t.master.tmPending } }) ∧
    (∃ t u, exec (.mTimeout h) s = .next t ∧ exec (.mComplete h st) t = .next u ∧
      t.master.state = .evaluating ∧ t.master.attStatus = .timedOut ∧
      u = { t with master := { t.master with ch := u.master.ch } })

/-- R157 A, R107, R110, R114 last sentence (95_test_vectors.md section 3.1): a first attempt whose exchange is faithful ends
in `Success` with the slave's payload after one attempt, and the slave reports the master's payload. The schedules are all
those in which each agent does what it must: the master is given its payload before or after the slave arms, the transport
reports the begin or omits it, and the two sides' steps after it (each side's completion, then its judgement) are taken in
any order. The bus is one of the contract that corrupts nothing and clocks the paired frames (log 23); the handles are the
adapters' fresh ones (log 9). -/
def Obligations.FaithfulSessionSucceeds : Prop :=
  ∀ (sendFirst begins : Bool) (turns : List Role) (p q : Payload) (now : Time) (s : State),
    faultFree s .master → faultFree s .slave → inSession s.master.state = false → s.slave.state = .idle →
    s.master.ch.active = false → s.slave.ch.active = false →
    s.bus = { s.bus with reference := false, corruptM2s := bytesOf 260 0, corruptS2m := bytesOf 260 0 } →
    turns.Perm [.slave, .slave, .master, .master] →
    ∃ t, faithfulSession sendFirst begins turns p q now s = .next t ∧
      t.master.state = .success ∧ t.master.attempts = 1 ∧ t.master.rxPayload = q ∧
      t.slave.state = .idle ∧ t.slave.outcome = .crcValid ∧ t.slave.outcomeValid = true ∧
      t.outputs = s.outputs ++
        [.dmaStart .slave (freshHandle s .slave), .dmaStart .master (freshHandle s .master)] ++
        (if turns.getLast? = some .master then [.report (.frameReceived .crcValid p), .report (.success q)]
          else [.report (.success q), .report (.frameReceived .crcValid p)])

/-- R157 C, R171, R146: from the first attempt of a session, if every attempt's timer fires before a completion, then the
session goes on while fewer than `MAX_ATTEMPTS` attempts were made, each retry with the application's new payload if it gave
one, and after `MAX_ATTEMPTS` attempts it has failed with `Timeout` and that count. -/
def Obligations.AllAttemptsTimedOutFails : Prop :=
  ∀ (tries : List (Time × Option Payload)) (s : State), faultFree s .master → s.master.state = .encoding →
    s.master.ch.active = false → s.master.attempts = 1 →
    (tries.length < s.master.cfg.maxAttempts →
      ∃ t, timedOutAttempts tries s = .next t ∧ t.master.state = .encoding ∧ t.master.attempts = tries.length + 1 ∧
        t.master.payload = tries.foldl (fun p try' => try'.2.getD p) s.master.payload ∧
        sessionReports t = sessionReports s ∧ masterStarts t = masterStarts s + tries.length) ∧
    (tries.length = s.master.cfg.maxAttempts → 1 ≤ s.master.cfg.maxAttempts →
      ∃ t, timedOutAttempts tries s = .next t ∧ t.master.state = .failed ∧
        t.master.outcome = .timeout ∧ t.master.attempts = s.master.cfg.maxAttempts ∧
        t.outputs.getLast? = some (.report (.failed .timeout s.master.cfg.maxAttempts)) ∧
        sessionReports t = sessionReports s + 1 ∧ masterStarts t = masterStarts s + s.master.cfg.maxAttempts)

/-- R148, R157 D: outside a session (after a cancel in particular) nothing but `M.SEND` leads to another `DMA.START` on the
master's channel, where only the FSMs issue it, and no session begins. So for every list of records without those two, and
for every step of the machine, be it a record, an action of the transport or an internal step, while the environment offers
neither of the two; and it does not come to offer them by such a step. -/
def Obligations.NoStartUntilTheNextSend : Prop :=
  (∀ (is : List Instr) (s t : State), inSession s.master.state = false →
    (∀ i ∈ is, (∀ p, i ≠ .mSend p) ∧ i ≠ .dmaStart .master) → execAll is s = .next t →
    masterStarts t = masterStarts s ∧ inSession t.master.state = false) ∧
  ∀ s t : State, inSession s.master.state = false → offersNoStart s → step s = .next t →
    masterStarts t = masterStarts s ∧ inSession t.master.state = false ∧ offersNoStart t
end

