-- ==== Sys2Proof/Laws/Memory.lean ====
section
/-! SUPPORT. The byte arrays keep their length and read back what was written; sets of handles keep their one form. -/

namespace Sys2Proof

@[ext] theorem Bytes.ext {n : Nat} {a b : Bytes n} (h : a.data = b.data) : a = b := by
  cases a; cases b; simp_all

@[simp] theorem bytesOf_data (n : Nat) (b : Byte) : (bytesOf n b).data = List.replicate n b := rfl

/-- The canonical form of an array is its length, which no operation can change: equal arrays are equal byte lists. -/
theorem memWrite_length {n : Nat} (a : Bytes n) (i : Nat) (v : List Byte) : (memWrite a i v).data.length = n :=
  (memWrite a i v).len

theorem memRead_length {n : Nat} (a : Bytes n) (i k : Nat) (h : i + k ≤ n) : (memRead a i k).length = k := by
  have := a.len; simp [memRead]; omega

/-- What was written reads back. -/
theorem memRead_memWrite {n : Nat} (a : Bytes n) (i : Nat) (v : List Byte) (h : i + v.length ≤ n) :
    memRead (memWrite a i v) i v.length = v := by
  have hl := a.len
  have : (a.data.take i).length = i := by simp; omega
  simp [memRead, memWrite, h, List.append_assoc, this]

/-- A byte outside the bytes written reads as before. -/
theorem byteAt_memWrite_outside {n : Nat} (a : Bytes n) (i j : Nat) (v : List Byte) (h : j < i ∨ i + v.length ≤ j) :
    byteAt (memWrite a i v) j = byteAt a j := by
  have hl := a.len
  by_cases hi : i + v.length ≤ n
  · have ht : (a.data.take i).length = i := by simp; omega
    simp only [byteAt, memWrite, hi, dite_true]
    rcases h with h | h
    · rw [List.append_assoc, List.getElem?_append_left (by omega), List.getElem?_take_of_lt h]
    · rw [List.getElem?_append_right (by simp; omega)]
      simp only [List.length_append, ht, List.getElem?_drop]
      congr 1; omega
  · simp [memWrite, hi]

/-- An exclusive or with zeros changes nothing: a faithful direction of the bus. -/
@[simp] theorem xorBytes_zero {n : Nat} (a : Bytes n) : xorBytes a (bytesOf n 0#8) = a := by
  obtain ⟨l, hl⟩ := a
  subst hl
  apply Bytes.ext
  simp only [xorBytes, bytesOf_data]
  induction l with
  | nil => rfl
  | cons x xs ih => simp_all [List.replicate_succ]

/-- Little-endian assembly undoes little-endian layout (00_scope.md section 6). -/
theorem unle32_le32 (w : Word32) :
    unle32 (w.extractLsb' 0 8) (w.extractLsb' 8 8) (w.extractLsb' 16 8) (w.extractLsb' 24 8) = w := by
  apply BitVec.eq_of_getLsbD_eq
  intro i hi
  simp only [unle32, BitVec.getLsbD_or, BitVec.getLsbD_setWidth, BitVec.getLsbD_shiftLeft, BitVec.getLsbD_extractLsb']
  interval_cases i <;> simp

/-- Little-endian layout undoes little-endian assembly (00_scope.md section 6). -/
theorem le32_unle32 (b0 b1 b2 b3 : Byte) : le32 (unle32 b0 b1 b2 b3) = [b0, b1, b2, b3] := by
  simp only [le32, List.cons.injEq, and_true]
  refine ⟨?_, ?_, ?_, ?_⟩ <;>
  · apply BitVec.eq_of_getLsbD_eq
    intro i hi
    simp only [unle32, BitVec.getLsbD_or, BitVec.getLsbD_setWidth, BitVec.getLsbD_shiftLeft,
      BitVec.getLsbD_extractLsb']
    interval_cases i <;> simp

end Sys2Proof

namespace Sys2Proof.Machine

theorem mem_insertHandle (h x : Handle) (l : List Handle) : x ∈ insertHandle h l ↔ x = h ∨ x ∈ l := by
  induction l with
  | nil => simp [insertHandle]
  | cons y ys ih =>
    simp only [insertHandle]
    split
    · simp
    · split
      · rename_i heq; subst heq; simp
      · simp [ih]; tauto

theorem mem_removeHandle (h x : Handle) (l : List Handle) : x ∈ removeHandle h l ↔ x ∈ l ∧ x ≠ h := by
  simp [removeHandle]

/-- Union with one handle keeps a set in its one form. -/
theorem insertHandle_rising (h : Handle) (l : List Handle) (hl : risingHandles l) : risingHandles (insertHandle h l) := by
  induction l with
  | nil => simp [insertHandle, risingHandles]
  | cons y ys ih =>
    obtain ⟨hy, hys⟩ := List.pairwise_cons.1 hl
    simp only [insertHandle]
    split
    · rename_i hlt
      exact List.pairwise_cons.2 ⟨fun z hz => by
        rcases List.mem_cons.1 hz with rfl | hz
        · exact hlt
        · exact lt_trans hlt (hy z hz), hl⟩
    · split
      · exact hl
      · rename_i hge hne
        refine List.pairwise_cons.2 ⟨fun z hz => ?_, ih hys⟩
        rcases (mem_insertHandle h z ys).1 hz with rfl | hz
        · have : z.toNat ≠ y.toNat := fun e => hne (BitVec.eq_of_toNat_eq e)
          omega
        · exact hy z hz

/-- Removal of one handle keeps a set in its one form. -/
theorem removeHandle_rising (h : Handle) (l : List Handle) (hl : risingHandles l) : risingHandles (removeHandle h l) :=
  hl.filter _

end Sys2Proof.Machine
end

