-- ==== Sys2Proof/Laws/Crc.lean ====
section
/-! SUPPORT. Small lemmas of the CRC engine and the codec, and a twin of R81 that the kernel evaluates byte by byte. -/

namespace Sys2Proof.Machine

@[simp] theorem crcShifts_zero (c : Word32) : crcShifts 0 c = c := rfl

@[simp] theorem crcShifts_succ (k : Nat) (c : Word32) : crcShifts (k + 1) c = crcShifts k (crcShift c) := rfl

theorem crcShifts_add (j k : Nat) (c : Word32) : crcShifts (j + k) c = crcShifts k (crcShifts j c) := by
  induction j generalizing c with
  | zero => simp
  | succ j ih => rw [Nat.succ_add]; exact ih _

@[simp] theorem frameEncode_data (p : Payload) : (frameEncode p).data = p.data ++ le32 (crcCompute p) := rfl

@[simp] theorem framePayload_data (f : Frame) : (framePayload f).data = f.data.take 256 := by
  simp [framePayload, memRead]

/-- `k c`, with `c` evaluated first. -/
def strictly {α : Type} (c : Word32) (k : Word32 → α) : α :=
  match c.toNat with
  | 0 => k 0#32
  | n + 1 => k (BitVec.ofNat 32 (n + 1))

theorem strictly_eq {α : Type} (c : Word32) (k : Word32 → α) : strictly c k = k c := by
  have hc : BitVec.ofNat 32 c.toNat = c := by simp
  unfold strictly
  split <;> rename_i h
  · rw [h] at hc; exact congrArg k hc
  · rw [h] at hc; exact congrArg k hc

/-- The fold of R81, one byte evaluated before the next. -/
def crcRun : Word32 → List Byte → Word32
  | c, [] => c ^^^ crcFinalXor
  | c, b :: bs => strictly (crcByte c b) fun c' => crcRun c' bs

theorem crcRun_eq (c : Word32) (B : List Byte) : crcRun c B = B.foldl crcByte c ^^^ crcFinalXor := by
  induction B generalizing c with
  | nil => rfl
  | cons b bs ih => rw [crcRun, strictly_eq, ih, List.foldl_cons]

/-- `crc32_bytes` by the strict fold. -/
theorem crc32Bytes_eq_run (B : List Byte) : crc32Bytes B = crcRun crcInit B := (crcRun_eq crcInit B).symm

/-- `FC.DECODE` of a frame and its length. -/
theorem sequenceDecode_frame (n : Nat) (f : Frame) : sequenceDecode n f.data 260 = frameDecode f := by
  simp [sequenceDecode, bytesOfList?, f.len]

/-- `FC.DECODE` at any length but 260. -/
theorem sequenceDecode_length {n len : Nat} {buf : List Byte} (h : len ≠ 260) : (sequenceDecode n buf len).valid = false := by
  simp [sequenceDecode, h]

end Sys2Proof.Machine
end

