-- ==== Sys2Proof/Laws/Decode.lean ====
section
/-! SUPPORT. One lemma per operand field of a record: what it reads from the bytes that stand for a value, and what bytes
stand for a value it read. -/

namespace Sys2Proof

theorem readBytes_append {n : Nat} (p : Bytes n) (rest : List Byte) :
    readBytes n (p.data ++ rest) = .ok (p, rest) := by
  simp only [readBytes, List.take_left' p.len, List.drop_left' p.len, p.len, dite_true]

theorem readBytes_eq_ok {n : Nat} {bs rest : List Byte} {p : Bytes n} (h : readBytes n bs = .ok (p, rest)) :
    bs = p.data ++ rest := by
  unfold readBytes at h
  split at h
  · cases h; simp
  · cases h

theorem readWord_append (w : Word32) (rest : List Byte) : readWord (le32 w ++ rest) = .ok (w, rest) := by
  simp only [le32, List.cons_append, List.nil_append, readWord, unle32_le32]

theorem readWord_eq_ok {bs rest : List Byte} {w : Word32} (h : readWord bs = .ok (w, rest)) : bs = le32 w ++ rest := by
  unfold readWord at h
  split at h
  · cases h; rw [le32_unle32]; rfl
  · cases h

theorem readByte_eq_ok {bs rest : List Byte} {b : Byte} (h : readByte bs = .ok (b, rest)) : bs = b :: rest := by
  unfold readByte at h
  split at h
  · cases h; rfl
  · cases h

/-- A field then another reads exactly when each reads in turn. -/
theorem fieldThen_eq_ok {α β : Type} {f : OperandField α} {g : α → OperandField β} {bs rest : List Byte} {b : β} :
    fieldThen f g bs = .ok (b, rest) ↔ ∃ a mid, f bs = .ok (a, mid) ∧ g a mid = .ok (b, rest) := by
  unfold fieldThen
  cases h : f bs with
  | ok x => exact ⟨fun e => ⟨x.1, x.2, rfl, e⟩, fun ⟨a, mid, e, e'⟩ => by cases e; exact e'⟩
  | error x => exact ⟨fun e => (by cases e), fun ⟨_, _, e, _⟩ => (by cases e)⟩

theorem fieldDone_eq_ok {α : Type} {a b : α} {bs rest : List Byte} : fieldDone a bs = .ok (b, rest) ↔ a = b ∧ bs = rest := by
  simp [fieldDone]

theorem readEnum_eq_ok {α : Type} {f : Byte → Option α} {bs rest : List Byte} {a : α}
    (h : readEnum f bs = .ok (a, rest)) : ∃ b, f b = some a ∧ bs = b :: rest := by
  obtain ⟨b, mid, h1, h2⟩ := fieldThen_eq_ok.1 h
  cases hb : f b with
  | some x =>
    simp only [hb] at h2
    obtain ⟨rfl, rfl⟩ := fieldDone_eq_ok.1 h2
    exact ⟨b, hb, readByte_eq_ok h1⟩
  | none => simp only [hb] at h2; cases h2

/-- An enumeration's byte is read back. -/
theorem readEnum_cons {α : Type} {f : Byte → Option α} {b : Byte} {a : α} (h : f b = some a) (rest : List Byte) :
    readEnum f (b :: rest) = .ok (a, rest) := by
  simp [readEnum, fieldThen, readByte, fieldDone, h]

/-- A sequence of any length is read back, up to its end. -/
theorem readSequence_append (l rest : List Byte) : readSequence (sequenceBytes l ++ rest) = .ok (l, rest) := by
  induction l with
  | nil => cases rest <;> simp [sequenceBytes, readSequence]
  | cons b bs ih => simp [sequenceBytes, readSequence, ih]

/-- What reads as a sequence is that sequence's bytes. -/
theorem readSequence_eq_ok {bs l rest : List Byte} (h : readSequence bs = .ok (l, rest)) :
    bs = sequenceBytes l ++ rest := by
  induction bs using readSequence.induct generalizing l with
  | case1 => cases h
  | case2 => rw [readSequence, if_pos rfl] at h; cases h; rfl
  | case3 => simp [readSequence] at h
  | case4 m h0 h1 => rw [readSequence, if_neg h0, if_neg h1] at h; cases h
  | case5 b bs => rw [readSequence, if_pos rfl] at h; cases h; rfl
  | case6 b bs data rest' hd _ ih =>
    rw [readSequence, if_neg (by decide), if_pos rfl, hd] at h
    cases h
    rw [ih hd]; rfl
  | case7 b bs e hd => rw [readSequence, if_neg (by decide), if_pos rfl, hd] at h; cases h
  | case8 m b bs h0 h1 => rw [readSequence, if_neg h0, if_neg h1] at h; cases h

/-- The records that the bus offers by itself (R114) decode to what they stand for. -/
theorem decode_encode_sBegin (dest : Role) (h : Handle) : decode dest (encode (.sBegin h)) = .ok (.sBegin h, []) := by
  have := readWord_append h []
  rw [List.append_nil] at this
  simp [decode, encode, encodeOperands, opcode, fieldThen, readByte, decodeOperands, this, fieldDone]

theorem decode_encode_sComplete (dest : Role) (h : Handle) (st : RawStatus) :
    decode dest (encode (.sComplete h st)) = .ok (.sComplete h st, []) := by
  cases st <;> simp [decode, encode, encodeOperands, opcode, fieldThen, readByte, decodeOperands, readWord_append, readEnum,
    rawStatusByte, rawStatusCode, rawStatusOfByte?, fieldDone]

theorem decode_encode_mComplete (dest : Role) (h : Handle) (st : RawStatus) :
    decode dest (encode (.mComplete h st)) = .ok (.mComplete h st, []) := by
  cases st <;> simp [decode, encode, encodeOperands, opcode, fieldThen, readByte, decodeOperands, readWord_append, readEnum,
    rawStatusByte, rawStatusCode, rawStatusOfByte?, fieldDone]

end Sys2Proof
end

