-- ==== Sys2Proof/Laws/State.lean ====
section
/-! SUPPORT. One lemma per field per update of the state, true by rfl. -/

namespace Sys2Proof.Machine

@[simp] theorem State.withMaster_master (s : State) (m : MasterInst) : (s.withMaster m).master = m := rfl
@[simp] theorem State.withMaster_slave (s : State) (m : MasterInst) : (s.withMaster m).slave = s.slave := rfl
@[simp] theorem State.withMaster_xPair (s : State) (m : MasterInst) : (s.withMaster m).xPair = s.xPair := rfl
@[simp] theorem State.withMaster_xMet (s : State) (m : MasterInst) : (s.withMaster m).xMet = s.xMet := rfl
@[simp] theorem State.withMaster_bus (s : State) (m : MasterInst) : (s.withMaster m).bus = s.bus := rfl
@[simp] theorem State.withMaster_outputs (s : State) (m : MasterInst) : (s.withMaster m).outputs = s.outputs := rfl
@[simp] theorem State.withMaster_input (s : State) (m : MasterInst) : (s.withMaster m).input = s.input := rfl
@[simp] theorem State.withMaster_free (s : State) (m : MasterInst) : (s.withMaster m).free = s.free := rfl

@[simp] theorem State.withSlave_master (s : State) (v : SlaveInst) : (s.withSlave v).master = s.master := rfl
@[simp] theorem State.withSlave_slave (s : State) (v : SlaveInst) : (s.withSlave v).slave = v := rfl
@[simp] theorem State.withSlave_xPair (s : State) (v : SlaveInst) : (s.withSlave v).xPair = s.xPair := rfl
@[simp] theorem State.withSlave_xMet (s : State) (v : SlaveInst) : (s.withSlave v).xMet = s.xMet := rfl
@[simp] theorem State.withSlave_bus (s : State) (v : SlaveInst) : (s.withSlave v).bus = s.bus := rfl
@[simp] theorem State.withSlave_outputs (s : State) (v : SlaveInst) : (s.withSlave v).outputs = s.outputs := rfl
@[simp] theorem State.withSlave_input (s : State) (v : SlaveInst) : (s.withSlave v).input = s.input := rfl
@[simp] theorem State.withSlave_free (s : State) (v : SlaveInst) : (s.withSlave v).free = s.free := rfl

@[simp] theorem State.withPair_master (s : State) (p : Option Exchange) : (s.withPair p).master = s.master := rfl
@[simp] theorem State.withPair_slave (s : State) (p : Option Exchange) : (s.withPair p).slave = s.slave := rfl
@[simp] theorem State.withPair_xPair (s : State) (p : Option Exchange) : (s.withPair p).xPair = p := rfl
@[simp] theorem State.withPair_xMet (s : State) (p : Option Exchange) : (s.withPair p).xMet = s.xMet := rfl
@[simp] theorem State.withPair_bus (s : State) (p : Option Exchange) : (s.withPair p).bus = s.bus := rfl
@[simp] theorem State.withPair_outputs (s : State) (p : Option Exchange) : (s.withPair p).outputs = s.outputs := rfl
@[simp] theorem State.withPair_input (s : State) (p : Option Exchange) : (s.withPair p).input = s.input := rfl
@[simp] theorem State.withPair_free (s : State) (p : Option Exchange) : (s.withPair p).free = s.free := rfl

@[simp] theorem State.withMet_master (s : State) (l : List Handle) : (s.withMet l).master = s.master := rfl
@[simp] theorem State.withMet_slave (s : State) (l : List Handle) : (s.withMet l).slave = s.slave := rfl
@[simp] theorem State.withMet_xPair (s : State) (l : List Handle) : (s.withMet l).xPair = s.xPair := rfl
@[simp] theorem State.withMet_xMet (s : State) (l : List Handle) : (s.withMet l).xMet = l := rfl
@[simp] theorem State.withMet_bus (s : State) (l : List Handle) : (s.withMet l).bus = s.bus := rfl
@[simp] theorem State.withMet_outputs (s : State) (l : List Handle) : (s.withMet l).outputs = s.outputs := rfl
@[simp] theorem State.withMet_input (s : State) (l : List Handle) : (s.withMet l).input = s.input := rfl
@[simp] theorem State.withMet_free (s : State) (l : List Handle) : (s.withMet l).free = s.free := rfl

@[simp] theorem State.offer_master (s : State) (l : List Input) : (s.offer l).master = s.master := rfl
@[simp] theorem State.offer_slave (s : State) (l : List Input) : (s.offer l).slave = s.slave := rfl
@[simp] theorem State.offer_xPair (s : State) (l : List Input) : (s.offer l).xPair = s.xPair := rfl
@[simp] theorem State.offer_xMet (s : State) (l : List Input) : (s.offer l).xMet = s.xMet := rfl
@[simp] theorem State.offer_bus (s : State) (l : List Input) : (s.offer l).bus = s.bus := rfl
@[simp] theorem State.offer_outputs (s : State) (l : List Input) : (s.offer l).outputs = s.outputs := rfl
@[simp] theorem State.offer_input (s : State) (l : List Input) : (s.offer l).input = l ++ s.input := rfl
@[simp] theorem State.offer_free (s : State) (l : List Input) : (s.offer l).free = s.free := rfl

@[simp] theorem State.emit_master (s : State) (o : Output) : (s.emit o).master = s.master := rfl
@[simp] theorem State.emit_slave (s : State) (o : Output) : (s.emit o).slave = s.slave := rfl
@[simp] theorem State.emit_xPair (s : State) (o : Output) : (s.emit o).xPair = s.xPair := rfl
@[simp] theorem State.emit_xMet (s : State) (o : Output) : (s.emit o).xMet = s.xMet := rfl
@[simp] theorem State.emit_bus (s : State) (o : Output) : (s.emit o).bus = s.bus := rfl
@[simp] theorem State.emit_outputs (s : State) (o : Output) : (s.emit o).outputs = s.outputs ++ [o] := rfl
@[simp] theorem State.emit_input (s : State) (o : Output) : (s.emit o).input = s.input := rfl
@[simp] theorem State.emit_free (s : State) (o : Output) : (s.emit o).free = s.free := rfl

@[simp] theorem State.drawn_master (s : State) : s.drawn.master = s.master := rfl
@[simp] theorem State.drawn_slave (s : State) : s.drawn.slave = s.slave := rfl
@[simp] theorem State.drawn_xPair (s : State) : s.drawn.xPair = s.xPair := rfl
@[simp] theorem State.drawn_xMet (s : State) : s.drawn.xMet = s.xMet := rfl
@[simp] theorem State.drawn_bus (s : State) : s.drawn.bus = s.bus := rfl
@[simp] theorem State.drawn_outputs (s : State) : s.drawn.outputs = s.outputs := rfl
@[simp] theorem State.drawn_input (s : State) : s.drawn.input = s.input := rfl
@[simp] theorem State.drawn_free (s : State) : s.drawn.free = s.free + 1 := rfl

@[simp] theorem State.withChannel_to_master (s : State) (c : Channel) :
    s.withChannel .master c = s.withMaster { s.master with ch := c } := rfl
@[simp] theorem State.withChannel_to_slave (s : State) (c : Channel) :
    s.withChannel .slave c = s.withSlave { s.slave with ch := c } := rfl
@[simp] theorem State.withChannel_xPair (s : State) (r : Role) (c : Channel) : (s.withChannel r c).xPair = s.xPair := by
  cases r <;> rfl
@[simp] theorem State.withChannel_xMet (s : State) (r : Role) (c : Channel) : (s.withChannel r c).xMet = s.xMet := by
  cases r <;> rfl
@[simp] theorem State.withChannel_bus (s : State) (r : Role) (c : Channel) : (s.withChannel r c).bus = s.bus := by
  cases r <;> rfl
@[simp] theorem State.withChannel_outputs (s : State) (r : Role) (c : Channel) : (s.withChannel r c).outputs = s.outputs := by
  cases r <;> rfl
@[simp] theorem State.withChannel_input (s : State) (r : Role) (c : Channel) : (s.withChannel r c).input = s.input := by
  cases r <;> rfl
@[simp] theorem State.withChannel_free (s : State) (r : Role) (c : Channel) : (s.withChannel r c).free = s.free := by
  cases r <;> rfl

@[simp] theorem State.withRx_to_master (s : State) (f : Frame) :
    s.withRx .master f = s.withMaster { s.master with rxBuffer := f } := rfl
@[simp] theorem State.withRx_to_slave (s : State) (f : Frame) :
    s.withRx .slave f = s.withSlave { s.slave with rxBuffer := f } := rfl
@[simp] theorem State.withRx_xPair (s : State) (r : Role) (f : Frame) : (s.withRx r f).xPair = s.xPair := by
  cases r <;> rfl
@[simp] theorem State.withRx_xMet (s : State) (r : Role) (f : Frame) : (s.withRx r f).xMet = s.xMet := by
  cases r <;> rfl
@[simp] theorem State.withRx_bus (s : State) (r : Role) (f : Frame) : (s.withRx r f).bus = s.bus := by
  cases r <;> rfl
@[simp] theorem State.withRx_outputs (s : State) (r : Role) (f : Frame) : (s.withRx r f).outputs = s.outputs := by
  cases r <;> rfl
@[simp] theorem State.withRx_input (s : State) (r : Role) (f : Frame) : (s.withRx r f).input = s.input := by
  cases r <;> rfl
@[simp] theorem State.withRx_free (s : State) (r : Role) (f : Frame) : (s.withRx r f).free = s.free := by
  cases r <;> rfl

@[simp] theorem State.withFault_to_master (s : State) (x : FaultReason) :
    s.withFault .master x = s.withMaster { s.master with fault := s.master.fault ++ [x] } := rfl
@[simp] theorem State.withFault_to_slave (s : State) (x : FaultReason) :
    s.withFault .slave x = s.withSlave { s.slave with fault := s.slave.fault ++ [x] } := rfl
@[simp] theorem State.withFault_xPair (s : State) (r : Role) (x : FaultReason) : (s.withFault r x).xPair = s.xPair := by
  cases r <;> rfl
@[simp] theorem State.withFault_xMet (s : State) (r : Role) (x : FaultReason) : (s.withFault r x).xMet = s.xMet := by
  cases r <;> rfl
@[simp] theorem State.withFault_bus (s : State) (r : Role) (x : FaultReason) : (s.withFault r x).bus = s.bus := by
  cases r <;> rfl
@[simp] theorem State.withFault_outputs (s : State) (r : Role) (x : FaultReason) : (s.withFault r x).outputs = s.outputs := by
  cases r <;> rfl
@[simp] theorem State.withFault_input (s : State) (r : Role) (x : FaultReason) : (s.withFault r x).input = s.input := by
  cases r <;> rfl
@[simp] theorem State.withFault_free (s : State) (r : Role) (x : FaultReason) : (s.withFault r x).free = s.free := by
  cases r <;> rfl

@[simp] theorem State.channel_master (s : State) : s.channel .master = s.master.ch := rfl
@[simp] theorem State.channel_slave (s : State) : s.channel .slave = s.slave.ch := rfl
@[simp] theorem State.timer_master (s : State) : s.timer .master = s.master.tmPending := rfl
@[simp] theorem State.timer_slave (s : State) : s.timer .slave = s.slave.tmPending := rfl
@[simp] theorem State.faultMark_master (s : State) : s.faultMark .master = s.master.fault := rfl
@[simp] theorem State.faultMark_slave (s : State) : s.faultMark .slave = s.slave.fault := rfl
@[simp] theorem State.txContent_master (s : State) : s.txContent .master = s.master.txFrame := rfl
@[simp] theorem State.txContent_slave (s : State) : s.txContent .slave = s.slave.txFrame := rfl
@[simp] theorem State.rxContent_master (s : State) : s.rxContent .master = s.master.rxBuffer := rfl
@[simp] theorem State.rxContent_slave (s : State) : s.rxContent .slave = s.slave.rxBuffer := rfl

@[simp] theorem State.readByte_mPayload (s : State) (i : Nat) : s.readByte .mPayload i = byteAt s.master.payload i := rfl
@[simp] theorem State.readByte_mTxFrame (s : State) (i : Nat) : s.readByte .mTxFrame i = byteAt s.master.txFrame i := rfl
@[simp] theorem State.readByte_mRxBuffer (s : State) (i : Nat) : s.readByte .mRxBuffer i = byteAt s.master.rxBuffer i := rfl
@[simp] theorem State.readByte_mRxPayload (s : State) (i : Nat) : s.readByte .mRxPayload i = byteAt s.master.rxPayload i := rfl
@[simp] theorem State.readByte_sPayload (s : State) (i : Nat) : s.readByte .sPayload i = byteAt s.slave.payload i := rfl
@[simp] theorem State.readByte_sTxFrame (s : State) (i : Nat) : s.readByte .sTxFrame i = byteAt s.slave.txFrame i := rfl
@[simp] theorem State.readByte_sRxBuffer (s : State) (i : Nat) : s.readByte .sRxBuffer i = byteAt s.slave.rxBuffer i := rfl

/-- Two states with the same arrays read the same. -/
theorem State.readByte_congr {s t : State} (hm : t.master = s.master) (hs : t.slave = s.slave) (b : Buffer) (i : Nat) :
    t.readByte b i = s.readByte b i := by
  cases b <;> simp [hm, hs]

end Sys2Proof.Machine
end

