-- ==== Sys2Proof/Laws/Ops.lean ====
section
/-! SUPPORT. One lemma per shared operation that says everything it can do; later proofs cite it. -/

namespace Sys2Proof.Machine

theorem instanceStep_clean {s t : State} {r : Role} (h : faultFree s r) : instanceStep s r t = .next t := by
  simp only [faultFree] at h; simp [instanceStep, h]

theorem instanceStep_faulted {s t : State} {r : Role} {x : FaultReason} {xs : List FaultReason}
    (h : s.faultMark r = x :: xs) : instanceStep s r t = .fault (.instanceFaulted r x) := by
  simp [instanceStep, h]

/-- A step of an instance answers a next state exactly when no fault is recorded against it. -/
theorem instanceStep_next_iff {s t u : State} {r : Role} :
    instanceStep s r t = .next u ↔ faultFree s r ∧ u = t := by
  unfold instanceStep faultFree
  split
  · rename_i h
    rw [h]
    exact ⟨fun e => ⟨rfl, (Host.Outcome.next.inj e).symm⟩, fun e => e.2 ▸ rfl⟩
  · rename_i h
    rw [h]
    exact ⟨fun e => (by cases e), fun ⟨e, _⟩ => by cases e⟩

/-- It is never refused. -/
theorem instanceStep_not_refused {s t : State} {r : Role} {x : Refusal} : instanceStep s r t ≠ .refused x := by
  unfold instanceStep; split <;> simp

@[simp] theorem withFault_faultMark (s : State) (r : Role) (x : FaultReason) :
    (s.withFault r x).faultMark r = s.faultMark r ++ [x] := by
  cases r <;> rfl

/-- Recording a fault touches no byte. -/
@[simp] theorem withFault_readByte (s : State) (r : Role) (x : FaultReason) (b : Buffer) (i : Nat) :
    (s.withFault r x).readByte b i = s.readByte b i := by
  cases r <;> cases b <;> rfl

/-! ### The bus -/

/-- The master is clocking while the transfer of its exchange is pending. -/
theorem masterClocking_iff (s : State) :
    masterClocking s = true ↔ ∃ x, s.xPair = some x ∧ x.hm ∈ s.master.ch.pending := by
  cases hx : s.xPair <;> simp [masterClocking, hx]

/-- When `S.BEGIN` can be delivered. -/
theorem beginDeliverable_iff (s : State) (h : Handle) :
    beginDeliverable s h = true ↔
      s.slave.ch.active = true ∧ s.slave.ch.handle = h ∧ s.slave.ch.begun = false ∧
        ∃ x, s.xPair = some x ∧ x.hm ∈ s.master.ch.pending := by
  rw [← masterClocking_iff]
  simp [beginDeliverable, and_assoc, and_comm (a := masterClocking s = true)]

/-- The slave transfers that exchanged bytes stay a set when an exchange is cut short. -/
theorem metIfCut_rising {s : State} (h : risingHandles s.xMet) : risingHandles (metIfCut s) := by
  unfold metIfCut
  split
  · split
    · exact removeHandle_rising _ _ h
    · exact h
  · exact h

/-- They stay a set when an exchange begins. -/
theorem metBegun_rising {s : State} (h : risingHandles s.xMet) : risingHandles (metBegun s) := by
  unfold metBegun
  split
  · exact insertHandle_rising _ _ (metIfCut_rising h)
  · exact metIfCut_rising h

/-- Under the contract alone a cut exchange may have moved bytes. -/
@[simp] theorem metIfCut_contract {s : State} (h : s.bus.reference = false) : metIfCut s = s.xMet := by
  simp [metIfCut, h]

/-- An instance without a fault gets its notification. -/
theorem notify_clean {s : State} {r : Role} (h : faultFree s r) (i : Instr) : notify s r i = [.record r (encode i)] := by
  simp [notify, show s.faultMark r = [] from h]

/-- What is delivered to an instance is that notification, and only where no fault is recorded. -/
theorem mem_notify {s : State} {r : Role} {i : Instr} {x : Input} :
    x ∈ notify s r i ↔ faultFree s r ∧ x = .record r (encode i) := by
  unfold notify faultFree
  split <;> simp [*]

/-- Under the contract alone the record `S.BEGIN` comes from the environment. -/
@[simp] theorem beginOffered_contract {s : State} (h : s.bus.reference = false) : beginOffered s = [] := by
  simp [beginOffered, h]

/-- What the bus offers at the master's start is at most one `S.BEGIN`, of the transfer paired, to a slave without a fault. -/
theorem mem_beginOffered {s : State} {i : Input} (h : i ∈ beginOffered s) :
    ∃ hs, pairableSlave s = some hs ∧ faultFree s .slave ∧ i = .record .slave (encode (.sBegin hs)) := by
  unfold beginOffered at h
  split at h
  · split at h
    · rename_i hs e
      exact ⟨hs, e, mem_notify.1 h⟩
    · cases h
  · cases h

/-- What the bus offers at an exchange end are completions with `Ok`. -/
theorem mem_finishOffered {s : State} {x : Exchange} {first : Bool} {i : Input} (h : i ∈ finishOffered s x first) :
    i = .record .master (encode (.mComplete x.hm .ok)) ∨ ∃ hs, i = .record .slave (encode (.sComplete hs .ok)) := by
  have hm : ∀ hm, masterFinish s x = some hm → hm = x.hm := by
    intro hm e
    unfold masterFinish at e
    split at e
    · exact (Option.some.inj e).symm
    · cases e
  have one : (∃ hm, masterFinish s x = some hm ∧ i ∈ notify s .master (.mComplete hm .ok)) ∨
      ∃ hs, slaveFinish s x = some hs ∧ i ∈ notify s .slave (.sComplete hs .ok) := by
    unfold finishOffered at h
    cases em : masterFinish s x <;> cases ev : slaveFinish s x <;> cases first <;> simp [em, ev] at h ⊢ <;>
      first | exact h | exact h.symm
  rcases one with ⟨m, e, h⟩ | ⟨v, -, h⟩
  · left; rw [(mem_notify.1 h).2, hm m e]
  · exact .inr ⟨v, (mem_notify.1 h).2⟩

/-! ### Channel commands and deliveries -/

/-- `DMA.START` on the master's channel. -/
theorem startTransfer_master (s : State) :
    startTransfer s .master =
      { s with
        master := { s.master with
          ch := channelStarted s.master.ch (freshHandle s .master)
          rxBuffer := freeFrame s.free }
        xPair := some (exchangeBegun s (freshHandle s .master))
        xMet := metBegun s
        outputs := s.outputs ++ [.dmaStart .master (freshHandle s .master)]
        input := beginOffered s ++ s.input
        free := s.free + 1 } := rfl

/-- `DMA.START` on the slave's channel. -/
theorem startTransfer_slave (s : State) :
    startTransfer s .slave =
      { s with
        slave := { s.slave with
          ch := channelStarted s.slave.ch (freshHandle s .slave)
          rxBuffer := freeFrame s.free }
        xMet := removeHandle (freshHandle s .slave) s.xMet
        outputs := s.outputs ++ [.dmaStart .slave (freshHandle s .slave)]
        free := s.free + 1 } := rfl

/-- `DMA.ABORT` of the master's active transfer. -/
theorem abortTransfer_master_active {s : State} {h : Handle} (ha : s.master.ch.active = true)
    (hh : s.master.ch.handle = h) :
    abortTransfer s .master h =
      { s with
        master := { s.master with
          ch := channelAborted s.master.ch (abortKept s .master)
          rxBuffer := freeFrame s.free }
        xPair := none
        xMet := metIfCut s
        outputs := s.outputs ++ [.dmaAbort .master h]
        free := s.free + 1 } := by
  simp [abortTransfer, ha, hh]; rfl

/-- `DMA.ABORT` of the slave's active transfer. -/
theorem abortTransfer_slave_active {s : State} {h : Handle} (ha : s.slave.ch.active = true)
    (hh : s.slave.ch.handle = h) :
    abortTransfer s .slave h =
      { s with
        slave := { s.slave with
          ch := channelAborted s.slave.ch (abortKept s .slave)
          rxBuffer := freeFrame s.free }
        outputs := s.outputs ++ [.dmaAbort .slave h]
        free := s.free + 1 } := by
  simp [abortTransfer, ha, hh]; rfl

/-- `DMA.ABORT` of a handle that is not the active transfer's: only the command is seen (R102, U22). -/
theorem abortTransfer_inactive {s : State} {r : Role} {h : Handle}
    (hn : ¬((s.channel r).active = true ∧ (s.channel r).handle = h)) :
    abortTransfer s r h = s.emit (.dmaAbort r h) := by
  simp only [abortTransfer, if_neg hn]

@[simp] theorem abortTransfer_master_slave (s : State) (h : Handle) : (abortTransfer s .master h).slave = s.slave := by
  simp only [abortTransfer]; split <;> rfl

@[simp] theorem abortTransfer_slave_master (s : State) (h : Handle) : (abortTransfer s .slave h).master = s.master := by
  simp only [abortTransfer]; split <;> rfl

@[simp] theorem abortTransfer_outputs (s : State) (r : Role) (h : Handle) :
    (abortTransfer s r h).outputs = s.outputs ++ [.dmaAbort r h] := by
  simp only [abortTransfer]; split <;> cases r <;> rfl

@[simp] theorem abortTransfer_bus (s : State) (r : Role) (h : Handle) : (abortTransfer s r h).bus = s.bus := by
  simp only [abortTransfer]; split <;> cases r <;> rfl

@[simp] theorem abortTransfer_input (s : State) (r : Role) (h : Handle) : (abortTransfer s r h).input = s.input := by
  simp only [abortTransfer]; split <;> cases r <;> rfl

/-- The delivery of a completion on the master's channel. -/
theorem deliverCompletion_master (s : State) (h : Handle) (st : RawStatus) :
    deliverCompletion s .master h st =
      if s.master.ch.active = true ∧ s.master.ch.handle = h ∧ st = .error then
        { s with
          master := { s.master with ch := channelDelivered s.master.ch h, rxBuffer := freeFrame s.free }
          free := s.free + 1 }
      else { s with master := { s.master with ch := channelDelivered s.master.ch h } } := by
  by_cases hc : s.master.ch.active = true ∧ s.master.ch.handle = h ∧ st = .error
  · rw [if_pos hc]; unfold deliverCompletion; exact if_pos hc
  · rw [if_neg hc]; unfold deliverCompletion; exact if_neg hc

/-- The delivery of a completion on the slave's channel. -/
theorem deliverCompletion_slave (s : State) (h : Handle) (st : RawStatus) :
    deliverCompletion s .slave h st =
      if s.slave.ch.active = true ∧ s.slave.ch.handle = h ∧ st = .error then
        { s with
          slave := { s.slave with ch := channelDelivered s.slave.ch h, rxBuffer := freeFrame s.free }
          free := s.free + 1 }
      else { s with slave := { s.slave with ch := channelDelivered s.slave.ch h } } := by
  by_cases hc : s.slave.ch.active = true ∧ s.slave.ch.handle = h ∧ st = .error
  · rw [if_pos hc]; unfold deliverCompletion; exact if_pos hc
  · rw [if_neg hc]; unfold deliverCompletion; exact if_neg hc

@[simp] theorem channelStarted_active (c : Channel) (h : Handle) : (channelStarted c h).active = true := rfl
@[simp] theorem channelStarted_handle (c : Channel) (h : Handle) : (channelStarted c h).handle = h := rfl
@[simp] theorem channelStarted_pending (c : Channel) (h : Handle) : (channelStarted c h).pending = insertHandle h c.pending := rfl
@[simp] theorem channelStarted_orphans (c : Channel) (h : Handle) : (channelStarted c h).orphans = c.orphans := rfl
@[simp] theorem channelStarted_begun (c : Channel) (h : Handle) : (channelStarted c h).begun = false := rfl
@[simp] theorem channelAborted_active (c : Channel) (kept : Bool) : (channelAborted c kept).active = false := rfl
@[simp] theorem channelAborted_handle (c : Channel) (kept : Bool) : (channelAborted c kept).handle = c.handle := rfl
@[simp] theorem channelAborted_orphans (c : Channel) (kept : Bool) : (channelAborted c kept).orphans = c.orphans := rfl
@[simp] theorem channelAborted_begun (c : Channel) (kept : Bool) : (channelAborted c kept).begun = c.begun := rfl
@[simp] theorem channelDelivered_handle (c : Channel) (h : Handle) : (channelDelivered c h).handle = c.handle := rfl
@[simp] theorem channelDelivered_pending (c : Channel) (h : Handle) : (channelDelivered c h).pending = removeHandle h c.pending := rfl
@[simp] theorem channelDelivered_orphans (c : Channel) (h : Handle) : (channelDelivered c h).orphans = removeHandle h c.orphans := rfl
@[simp] theorem channelDelivered_begun (c : Channel) (h : Handle) : (channelDelivered c h).begun = c.begun := rfl
@[simp] theorem channelBegun_active (c : Channel) : (channelBegun c).active = c.active := rfl
@[simp] theorem channelBegun_handle (c : Channel) : (channelBegun c).handle = c.handle := rfl
@[simp] theorem channelBegun_pending (c : Channel) : (channelBegun c).pending = c.pending := rfl
@[simp] theorem channelBegun_orphans (c : Channel) : (channelBegun c).orphans = c.orphans := rfl
@[simp] theorem channelBegun_begun (c : Channel) : (channelBegun c).begun = true := rfl
@[simp] theorem channelReset_active (c : Channel) : (channelReset c).active = false := rfl
@[simp] theorem channelReset_handle (c : Channel) : (channelReset c).handle = c.handle := rfl
@[simp] theorem channelReset_pending (c : Channel) : (channelReset c).pending = c.pending := rfl
@[simp] theorem channelReset_begun (c : Channel) : (channelReset c).begun = c.begun := rfl

/-- A channel keeps its invariant when a transfer starts. -/
theorem channelStarted_inv {c : Channel} (hc : ChannelInv c) (h : Handle) : ChannelInv (channelStarted c h) :=
  ⟨insertHandle_rising h _ hc.pending_rising, hc.orphans_rising, fun _ => (mem_insertHandle h h _).2 (.inl rfl)⟩

/-- A channel keeps its invariant when its transfer is aborted. -/
theorem channelAborted_inv {c : Channel} (hc : ChannelInv c) (kept : Bool) : ChannelInv (channelAborted c kept) := by
  refine ⟨?_, hc.orphans_rising, fun h => by simp [channelAborted] at h⟩
  cases kept
  · exact removeHandle_rising _ _ hc.pending_rising
  · exact hc.pending_rising

/-- A channel keeps its invariant when a completion is delivered. -/
theorem channelDelivered_inv {c : Channel} (hc : ChannelInv c) (h : Handle) : ChannelInv (channelDelivered c h) := by
  refine ⟨removeHandle_rising _ _ hc.pending_rising, removeHandle_rising _ _ hc.orphans_rising, fun ha => ?_⟩
  simp only [channelDelivered, Bool.and_eq_true, decide_eq_true_eq] at ha
  exact (mem_removeHandle _ _ _).2 ⟨hc.active_pending ha.1, ha.2⟩

/-- A channel keeps its invariant when the begin of its exchange is notified. -/
theorem channelBegun_inv {c : Channel} (hc : ChannelInv c) : ChannelInv (channelBegun c) :=
  ⟨hc.pending_rising, hc.orphans_rising, hc.active_pending⟩

/-- A channel keeps its invariant when its instance is reset. -/
theorem channelReset_inv {c : Channel} (hc : ChannelInv c) : ChannelInv (channelReset c) := by
  refine ⟨hc.pending_rising, ?_, fun h => by simp [channelReset] at h⟩
  simp only [channelReset]
  split
  · exact insertHandle_rising _ _ hc.orphans_rising
  · exact hc.orphans_rising

/-- `DMA.ABORT` on the master's channel, in one form for both cases of R102. -/
theorem abortTransfer_master_form (s : State) (h : Handle) :
    ∃ c rx pair met n, abortTransfer s .master h =
        { s with
          master := { s.master with ch := c, rxBuffer := rx }
          xPair := pair
          xMet := met
          outputs := s.outputs ++ [.dmaAbort .master h]
          free := n } ∧
      (s.master.ch.active = true ∧ s.master.ch.handle = h →
        c = channelAborted s.master.ch (abortKept s .master) ∧ pair = none ∧ met = metIfCut s) ∧
      (¬(s.master.ch.active = true ∧ s.master.ch.handle = h) →
        c = s.master.ch ∧ rx = s.master.rxBuffer ∧ pair = s.xPair ∧ met = s.xMet ∧ n = s.free) ∧
      (s.master.ch.handle = h → c.active = false) ∧ (ChannelInv s.master.ch → ChannelInv c) := by
  by_cases hc : s.master.ch.active = true ∧ s.master.ch.handle = h
  · exact ⟨_, _, _, _, _, abortTransfer_master_active hc.1 hc.2, fun _ => ⟨rfl, rfl, rfl⟩, fun e => absurd hc e, fun _ => rfl,
      fun i => channelAborted_inv i _⟩
  · refine ⟨s.master.ch, s.master.rxBuffer, s.xPair, s.xMet, s.free, abortTransfer_inactive (by simpa using hc),
      fun e => absurd e hc, fun _ => ⟨rfl, rfl, rfl, rfl, rfl⟩, fun e => ?_, id⟩
    simpa [e] using hc

/-- `DMA.ABORT` on the slave's channel, in one form for both cases of R102. -/
theorem abortTransfer_slave_form (s : State) (h : Handle) :
    ∃ c rx n, abortTransfer s .slave h =
        { s with
          slave := { s.slave with ch := c, rxBuffer := rx }
          outputs := s.outputs ++ [.dmaAbort .slave h]
          free := n } ∧
      (s.slave.ch.active = true ∧ s.slave.ch.handle = h → c = channelAborted s.slave.ch (abortKept s .slave)) ∧
      (¬(s.slave.ch.active = true ∧ s.slave.ch.handle = h) → c = s.slave.ch ∧ rx = s.slave.rxBuffer ∧ n = s.free) ∧
      (s.slave.ch.handle = h → c.active = false) ∧ (ChannelInv s.slave.ch → ChannelInv c) := by
  by_cases hc : s.slave.ch.active = true ∧ s.slave.ch.handle = h
  · exact ⟨_, _, _, abortTransfer_slave_active hc.1 hc.2, fun _ => rfl, fun e => absurd hc e, fun _ => rfl,
      fun i => channelAborted_inv i _⟩
  · refine ⟨s.slave.ch, s.slave.rxBuffer, s.free, abortTransfer_inactive (by simpa using hc), fun e => absurd e hc,
      fun _ => ⟨rfl, rfl, rfl⟩, fun e => ?_, id⟩
    simpa [e] using hc

/-- The delivery of a completion on the master's channel, in one form for both statuses. -/
theorem deliverCompletion_master_form (s : State) (h : Handle) (st : RawStatus) :
    ∃ rx n, deliverCompletion s .master h st =
        { s with master := { s.master with ch := channelDelivered s.master.ch h, rxBuffer := rx }, free := n } ∧
      (¬(s.master.ch.active = true ∧ s.master.ch.handle = h ∧ st = .error) → rx = s.master.rxBuffer ∧ n = s.free) := by
  by_cases hc : s.master.ch.active = true ∧ s.master.ch.handle = h ∧ st = .error
  · exact ⟨_, _, (deliverCompletion_master s h st).trans (if_pos hc), fun e => absurd hc e⟩
  · exact ⟨s.master.rxBuffer, s.free, (deliverCompletion_master s h st).trans (if_neg hc), fun _ => ⟨rfl, rfl⟩⟩

/-- The delivery of a completion on the slave's channel, in one form for both statuses. -/
theorem deliverCompletion_slave_form (s : State) (h : Handle) (st : RawStatus) :
    ∃ rx n, deliverCompletion s .slave h st =
        { s with slave := { s.slave with ch := channelDelivered s.slave.ch h, rxBuffer := rx }, free := n } ∧
      (¬(s.slave.ch.active = true ∧ s.slave.ch.handle = h ∧ st = .error) → rx = s.slave.rxBuffer ∧ n = s.free) := by
  by_cases hc : s.slave.ch.active = true ∧ s.slave.ch.handle = h ∧ st = .error
  · exact ⟨_, _, (deliverCompletion_slave s h st).trans (if_pos hc), fun e => absurd hc e⟩
  · exact ⟨s.slave.rxBuffer, s.free, (deliverCompletion_slave s h st).trans (if_neg hc), fun _ => ⟨rfl, rfl⟩⟩

/-! ### The transport's own actions -/

/-- The transfers that an instance's adapter runs. -/
theorem ownsTransfer_iff (s : State) (r : Role) (h : Handle) :
    ownsTransfer s r h = true ↔
      ((s.channel r).active = true ∧ (s.channel r).handle = h) ∨ h ∈ (s.channel r).orphans := by
  simp [ownsTransfer]

/-- When a late slave transfer can be reached. -/
theorem lateJoinable_iff (s : State) :
    lateJoinable s = true ↔
      ∃ x, (s.xPair = some x ∧ x.hm ∈ s.master.ch.pending) ∧ x.hs = none ∧ x.late = none := by
  cases hx : s.xPair <;> simp [lateJoinable, masterClocking, hx]

/-- Bytes that arrive in an rx buffer change that buffer, and for a late slave transfer what the bus holds of it. -/
theorem receive_form (s : State) (r : Role) (h : Handle) (f : Frame) :
    receive s r h f = s ∨ (ownsTransfer s r h = true ∧
      (receive s r h f = s.withRx r f ∧ (r = .slave → h ∈ s.xMet) ∨
        r = .slave ∧ lateJoinable s = true ∧ receive s r h f = (lateJoined s h).withRx .slave f)) := by
  by_cases ho : ownsTransfer s r h = true
  · cases r
    · exact .inr ⟨ho, .inl ⟨by simp [receive, ho], nofun⟩⟩
    · by_cases hm : h ∈ s.xMet
      · exact .inr ⟨ho, .inl ⟨by simp [receive, ho, hm], fun _ => hm⟩⟩
      · by_cases hl : lateJoinable s = true
        · exact .inr ⟨ho, .inr ⟨rfl, hl, by simp [receive, ho, hm, hl]⟩⟩
        · exact .inl (by simp [receive, ho, hm, hl])
  · exact .inl (by simp [receive, ho])

/-- The bytes of an exchange arrive in one rx buffer and change nothing else. -/
theorem clockExchange_form (s : State) (x : Exchange) (r : Role) :
    clockExchange s x r = s ∨ ∃ f, clockExchange s x r = s.withRx r f := by
  cases r
  · simp only [clockExchange]
    split
    · exact .inr ⟨_, rfl⟩
    · exact .inl rfl
  · simp only [clockExchange]
    split
    · split
      · exact .inr ⟨_, rfl⟩
      · exact .inl rfl
    · exact .inl rfl

/-- An exchange end changes the rx buffers, ends the pairing and offers its completions. -/
theorem finishExchange_form (s : State) (x : Exchange) (first : Bool) :
    ∃ fm fs, finishExchange s x first =
      { s with
        master := { s.master with rxBuffer := fm }
        slave := { s.slave with rxBuffer := fs }
        xPair := none
        input := finishOffered s x first ++ s.input } := by
  cases em : masterFinish s x <;> cases ev : slaveFinish s x
  · exact ⟨s.master.rxBuffer, s.slave.rxBuffer, by simp [finishExchange, em, ev, State.offer, State.withPair]⟩
  · exact ⟨s.master.rxBuffer, x.m2s, by simp [finishExchange, em, ev, State.offer, State.withPair, State.withSlave]⟩
  · exact ⟨x.s2m, s.slave.rxBuffer, by simp [finishExchange, em, ev, State.offer, State.withPair, State.withMaster]⟩
  · exact ⟨x.s2m, x.m2s, by
      simp [finishExchange, em, ev, State.offer, State.withPair, State.withMaster, State.withSlave]⟩

/-- An action of the transport touches no FSM register: it leaves both instances as they are but for the rx buffers and the
adapter's own choices; of what was emitted and drawn it changes nothing; and it offers completions with `Ok` at most. -/
theorem envAct_form (a : EnvAct) (s : State) :
    ∃ fm nm km fs ns ks pair met b l,
      envAct a s =
        { s with
          master := { s.master with rxBuffer := fm, ch := { s.master.ch with next := nm, keep := km } }
          slave := { s.slave with rxBuffer := fs, ch := { s.slave.ch with next := ns, keep := ks } }
          xPair := pair
          xMet := met
          bus := b
          input := l ++ s.input } ∧
      (risingHandles s.xMet → risingHandles met) ∧
      ∀ i ∈ l, (∃ h, i = .record .master (encode (.mComplete h .ok))) ∨ ∃ h, i = .record .slave (encode (.sComplete h .ok)) := by
  have same : ∃ fm nm km fs ns ks pair met b l,
      s =
        { s with
          master := { s.master with rxBuffer := fm, ch := { s.master.ch with next := nm, keep := km } }
          slave := { s.slave with rxBuffer := fs, ch := { s.slave.ch with next := ns, keep := ks } }
          xPair := pair
          xMet := met
          bus := b
          input := l ++ s.input } ∧
      (risingHandles s.xMet → risingHandles met) ∧
      ∀ i ∈ l, (∃ h, i = .record .master (encode (.mComplete h .ok))) ∨
        ∃ h, i = .record .slave (encode (.sComplete h .ok)) :=
    ⟨_, _, _, _, _, _, _, _, _, [], rfl, id, by simp⟩
  cases a with
  | rxWrite r h f =>
    simp only [envAct]
    split
    · exact same
    · rcases receive_form s r h f with e | ⟨-, ⟨e, -⟩ | ⟨rfl, -, e⟩⟩
      · rw [e]; exact same
      · rw [e]; cases r
        · exact ⟨f, _, _, _, _, _, _, _, _, [], rfl, id, by simp⟩
        · exact ⟨_, _, _, f, _, _, _, _, _, [], rfl, id, by simp⟩
      · rw [e]
        exact ⟨_, _, _, f, _, _, _, _, _, [], rfl, fun hm => insertHandle_rising h _ hm, by simp⟩
  | clock r =>
    simp only [envAct]
    split
    · split
      · exact same
      · rename_i x _ _
        rcases clockExchange_form s x r with e | ⟨f, e⟩
        · rw [e]; exact same
        · rw [e]; cases r
          · exact ⟨f, _, _, _, _, _, _, _, _, [], rfl, id, by simp⟩
          · exact ⟨_, _, _, f, _, _, _, _, _, [], rfl, id, by simp⟩
    · exact same
  | endExchange =>
    simp only [envAct]
    split
    · exact same
    · exact ⟨_, _, _, _, _, _, none, _, _, [], rfl, id, by simp⟩
  | finish first =>
    simp only [envAct]
    split
    · split
      · rename_i x _ _
        obtain ⟨fm, fs, e⟩ := finishExchange_form s x first
        rw [e]
        refine ⟨fm, _, _, fs, _, _, none, _, _, finishOffered s x first, rfl, id, fun i hi => ?_⟩
        rcases mem_finishOffered hi with h | h
        · exact .inl ⟨_, h⟩
        · exact .inr h
      · exact same
    · exact same
  | bus b => exact ⟨_, _, _, _, _, _, _, _, b, [], rfl, id, by simp⟩
  | nextHandle r h =>
    cases r
    · exact ⟨_, h, _, _, _, _, _, _, _, [], rfl, id, by simp⟩
    · exact ⟨_, _, _, _, h, _, _, _, _, [], rfl, id, by simp⟩
  | abortKeeps r k =>
    cases r
    · exact ⟨_, _, k, _, _, _, _, _, _, [], rfl, id, by simp⟩
    · exact ⟨_, _, _, _, _, k, _, _, _, [], rfl, id, by simp⟩

@[simp] theorem envAct_outputs (a : EnvAct) (s : State) : (envAct a s).outputs = s.outputs := by
  obtain ⟨_, _, _, _, _, _, _, _, _, _, e, -⟩ := envAct_form a s
  rw [e]

/-- The internal step taken with nothing offered belongs to an instance that is not faulted. -/
theorem internalStep?_cases {s : State} {i : Instr} (h : internalStep? s = some i) :
    (s.master.fault = [] ∧
      (s.master.state = .encoding ∧ i = .mEncode (Config.freeTime s.free) ∨
        s.master.state = .evaluating ∧ i = .mEvaluate ∨
        s.master.state = .retrying ∧ i = .mRetry (freeRetryPayload s.free))) ∨
    (s.slave.fault = [] ∧ s.slave.state = .completed ∧ i = .sReport) := by
  unfold internalStep? at h
  split at h
  · simp_all
  · simp_all
  · simp_all
  · split at h <;> simp_all

end Sys2Proof.Machine
end

