-- ==== Sys2Proof/Laws/PerInstr.lean ====
section
/-! SUPPORT. A law of every instruction as syntax: its record begins with the code that R64 gives its row. -/

namespace Sys2Proof.Laws

/-- The record of `i` is the code of its row and then its operands, and that code is one of the twenty of R64. -/
def LeadingCode.Statement (i : Instr) : Prop :=
  (encode i).head? = some (opcode i) ∧
    opcode i ∈ ([0x00, 0x10, 0x20, 0x21, 0x30, 0x31, 0x40, 0x41, 0x42, 0x43, 0x44, 0x45, 0x50, 0x51, 0x52, 0x53, 0x54,
      0x55, 0x56, 0x60] : List Byte)

theorem LeadingCode.sysReset (r : Role) : LeadingCode.Statement (.sysReset r) :=
  ⟨rfl, by simp [opcode]⟩

theorem LeadingCode.crcCompute (p : Payload) : LeadingCode.Statement (.crcCompute p) :=
  ⟨rfl, by simp [opcode]⟩

theorem LeadingCode.fcEncode (p : Payload) : LeadingCode.Statement (.fcEncode p) :=
  ⟨rfl, by simp [opcode]⟩

theorem LeadingCode.fcDecode (b : List Byte) (n : Nat) : LeadingCode.Statement (.fcDecode b n) :=
  ⟨rfl, by simp [opcode]⟩

theorem LeadingCode.dmaStart (r : Role) : LeadingCode.Statement (.dmaStart r) :=
  ⟨rfl, by simp [opcode]⟩

theorem LeadingCode.dmaAbort (r : Role) (h : Handle) : LeadingCode.Statement (.dmaAbort r h) :=
  ⟨rfl, by simp [opcode]⟩

theorem LeadingCode.sProvide (p : Payload) : LeadingCode.Statement (.sProvide p) :=
  ⟨rfl, by simp [opcode]⟩

theorem LeadingCode.sBegin (h : Handle) : LeadingCode.Statement (.sBegin h) :=
  ⟨rfl, by simp [opcode]⟩

theorem LeadingCode.sComplete (h : Handle) (st : RawStatus) : LeadingCode.Statement (.sComplete h st) :=
  ⟨rfl, by simp [opcode]⟩

theorem LeadingCode.sReport : LeadingCode.Statement .sReport :=
  ⟨rfl, by simp [opcode]⟩

theorem LeadingCode.sArmTimeout (h : Handle) : LeadingCode.Statement (.sArmTimeout h) :=
  ⟨rfl, by simp [opcode]⟩

theorem LeadingCode.sTransportAbort : LeadingCode.Statement .sTransportAbort :=
  ⟨rfl, by simp [opcode]⟩

theorem LeadingCode.mSend (p : Payload) : LeadingCode.Statement (.mSend p) :=
  ⟨rfl, by simp [opcode]⟩

theorem LeadingCode.mEncode (t : Time) : LeadingCode.Statement (.mEncode t) :=
  ⟨rfl, by simp [opcode]⟩

theorem LeadingCode.mComplete (h : Handle) (st : RawStatus) : LeadingCode.Statement (.mComplete h st) :=
  ⟨rfl, by simp [opcode]⟩

theorem LeadingCode.mTimeout (h : Handle) : LeadingCode.Statement (.mTimeout h) :=
  ⟨rfl, by simp [opcode]⟩

theorem LeadingCode.mEvaluate : LeadingCode.Statement .mEvaluate :=
  ⟨rfl, by simp [opcode]⟩

theorem LeadingCode.mRetry (p : Option Payload) : LeadingCode.Statement (.mRetry p) :=
  ⟨rfl, by simp [opcode]⟩

theorem LeadingCode.mCancel : LeadingCode.Statement .mCancel :=
  ⟨rfl, by simp [opcode]⟩

theorem LeadingCode.rpDecide (o : TransferOutcome) (a m : Nat) : LeadingCode.Statement (.rpDecide o a m) :=
  ⟨rfl, by simp [opcode]⟩

end Sys2Proof.Laws
end

