-- ==== Sys2Proof/Tests/Slice0.lean ====
section
/-! SUPPORT. Tests of this model, with expected values from spec/ (the vector of 95_test_vectors.md or the rule is named at
each), and for each statement with hypotheses a concrete input that meets them. -/

namespace Sys2Proof.Tests

set_option Elab.async false

open Sys2Proof Sys2Proof.Machine

/-! ### States the tests start from -/

/-- A master in a given state with handle 7, one attempt of three, its timer pending; the channel is active exactly in
`M_Transferring` (95_test_vectors.md section 2.8). -/
def masterAt (st : MState) (att : AttemptStatus) : State :=
  { State.reset with
    master := { MasterInst.reset with
      state := st
      attempts := 1
      attStatus := att
      handle := 7
      tmPending := [7]
      ch := { Channel.reset with
        active := decide (st = .transferring)
        handle := 7
        pending := if st = .transferring then [7] else []
        next := 8 }
      cfg := { MasterInst.reset.cfg with maxAttempts := 3 } } }

/-- The exchange of a master transfer 3 with a slave transfer 7: zeros to the slave, ones to the master. -/
def exchange37 : Exchange := { hm := 3, hs := some 7, m2s := bytesOf 260 0, s2m := bytesOf 260 0xFF, late := none }

/-- A slave in a given state with handle 7, its timer pending; the channel is active in `S_Armed` and `S_Receiving`
(95_test_vectors.md section 2.7), and there a master is clocking an exchange with it. -/
def slaveAt (st : SState) : State :=
  { State.reset with
    master := { MasterInst.reset with
      state := .transferring
      attempts := 1
      attStatus := .pending
      handle := 3
      tmPending := [3]
      txFrame := ⟨List.replicate 256 0 ++ [0x58, 0x85, 0x96, 0x0D], by decide +kernel⟩
      ch := { Channel.reset with active := true, handle := 3, pending := [3], next := 4 } }
    xPair := if inFlight st = true then some exchange37 else none
    xMet := if inFlight st = true then [7] else []
    slave := { SlaveInst.reset with
      state := st
      attStatus := .pending
      handle := 7
      tmPending := [7]
      ch := { Channel.reset with
        active := inFlight st
        handle := 7
        pending := if inFlight st = true then [7] else []
        next := 8 } } }

/-- `s` with one input offered. -/
def offered (a : Input) (s : State) : State := { s with input := [a] }

/-- What a projection gives of the next state; none where the machine stops. -/
def see {α : Type} (f : State → α) : Result → Option α
  | .next s => some (f s)
  | .fault _ => none
  | .refused _ => none

/-- The well-formed frame of a zero payload (E1). -/
def zeroFrame : Frame := ⟨List.replicate 256 0 ++ [0x58, 0x85, 0x96, 0x0D], by decide +kernel⟩

/-- The corrupted frame of W1. -/
def frameW1 : Frame := ⟨0x01 :: List.replicate 255 0 ++ [0x58, 0x85, 0x96, 0x0D], by decide +kernel⟩

/-! ### Records, written out from R64 and the layout of log 2 -/

theorem test_decode_sysReset :
    decode .master [0x00] = .ok (.sysReset .master, []) ∧ decode .slave [0x00] = .ok (.sysReset .slave, []) := by
  decide +kernel
theorem test_decode_crcCompute :
    decode .master (0x10 :: List.replicate 256 0xAA ++ [0x43]) = .ok (.crcCompute (bytesOf 256 0xAA), [0x43]) := by decide +kernel
theorem test_decode_fcEncode :
    decode .master (0x20 :: List.replicate 255 0x00 ++ [0x80]) =
      .ok (.fcEncode ⟨List.replicate 255 0x00 ++ [0x80], by decide +kernel⟩, []) := by decide +kernel
theorem test_decode_fcDecode :
    decode .master [0x21, 0x01, 0x0A, 0x01, 0x00, 0x00, 0x02, 0x00, 0x00, 0x00, 0x0D] =
      .ok (.fcDecode [0x0A, 0x00] 2, [0x0D]) := by decide +kernel
/-- A `len` that is not the length of `buf` decodes (log 28); an ill-formed or unended sequence does not. -/
theorem test_decode_fcDecode_sequence :
    decode .master [0x21, 0x01, 0x0A, 0x00, 0x02, 0x00, 0x00, 0x00] = .ok (.fcDecode [0x0A] 2, []) ∧
      decode .master [0x21, 0x02, 0x0A] = .error (.reservedOperand 2) ∧
      decode .master [0x21, 0x01, 0x0A] = .error .truncated := by decide +kernel
theorem test_decode_dmaStart : decode .master [0x30, 0x01, 0x01] = .ok (.dmaStart .slave, []) := by decide +kernel
theorem test_decode_dmaStart_mixed : decode .master [0x30, 0x00, 0x01] = .error (.reservedOperand 1) := by decide +kernel
theorem test_decode_dmaAbort :
    decode .slave [0x31, 0x04, 0x03, 0x02, 0x81] = .ok (.dmaAbort .slave 0x81020304, []) := by decide +kernel
theorem test_decode_sProvide :
    decode .slave (0x40 :: List.replicate 256 0xFF) = .ok (.sProvide (bytesOf 256 0xFF), []) := by decide +kernel
theorem test_decode_sBegin : decode .slave [0x41, 0x01, 0x00, 0x00, 0x80] = .ok (.sBegin 0x80000001, []) := by decide +kernel
theorem test_decode_sComplete :
    decode .slave [0x42, 0x02, 0x01, 0x00, 0x00, 0x01] = .ok (.sComplete 0x102 .error, []) := by decide +kernel
theorem test_decode_sReport : decode .slave [0x43] = .ok (.sReport, []) := by decide +kernel
theorem test_decode_sArmTimeout : decode .slave [0x44, 0x02, 0x01, 0x00, 0x00] = .ok (.sArmTimeout 0x102, []) := by decide +kernel
theorem test_decode_sTransportAbort : decode .slave [0x45] = .ok (.sTransportAbort, []) := by decide +kernel
theorem test_decode_mSend :
    decode .master (0x50 :: 0x01 :: List.replicate 255 0x02) = .ok (.mSend ⟨0x01 :: List.replicate 255 0x02, by decide +kernel⟩, []) := by
  decide +kernel
theorem test_decode_mEncode : decode .master [0x51, 0xEF, 0xBE, 0xAD, 0xDE] = .ok (.mEncode 0xDEADBEEF, []) := by decide +kernel
theorem test_decode_mComplete :
    decode .master [0x52, 0x07, 0x00, 0x00, 0x00, 0x00] = .ok (.mComplete 7 .ok, []) := by decide +kernel
theorem test_decode_mTimeout : decode .master [0x53, 0x07, 0x00, 0x01, 0x00] = .ok (.mTimeout 0x10007, []) := by decide +kernel
theorem test_decode_mEvaluate : decode .master [0x54] = .ok (.mEvaluate, []) := by decide +kernel
theorem test_decode_mRetry :
    decode .master [0x55, 0x00] = .ok (.mRetry none, []) ∧
      decode .master (0x55 :: 0x01 :: List.replicate 256 0xAA) = .ok (.mRetry (some (bytesOf 256 0xAA)), []) := by decide +kernel
theorem test_decode_mCancel : decode .master [0x56] = .ok (.mCancel, []) := by decide +kernel
theorem test_decode_rpDecide :
    decode .master [0x60, 0x01, 0x02, 0x00, 0x00, 0x00, 0x03, 0x00, 0x00, 0x00] = .ok (.rpDecide .crcMismatch 2 3, []) := by
  decide +kernel
theorem test_decode_truncated : decode .master [] = .error .truncated ∧ decode .slave [0x41, 0x01, 0x00, 0x00] = .error .truncated := by
  decide +kernel
theorem test_decode_reserved :
    decode .master [0x01] = .error (.reservedCode 0x01) ∧ decode .master [0x57, 0x00] = .error (.reservedCode 0x57) ∧
      decode .slave [0x42, 0x07, 0x00, 0x00, 0x00, 0x02] = .error (.reservedOperand 2) := by decide +kernel
theorem test_decodeTableWord :
    decodeTableWord 8 0x00 = some (.sysReset .master) ∧ decodeTableWord 8 0x43 = some .sReport ∧
      decodeTableWord 8 0x55 = some (.mRetry none) ∧ decodeTableWord 8 0x60 = some (.rpDecide .crcValid 0 0) ∧
      decodeTableWord 8 0x50 = some (.mSend (bytesOf 256 0)) ∧ decodeTableWord 8 0x21 = some (.fcDecode [] 0) ∧
      decodeTableWord 8 0x61 = none := by decide +kernel
theorem test_encode :
    encode (.rpDecide .hardwareFault 1 256) = [0x60, 0x05, 0x01, 0x00, 0x00, 0x00, 0x00, 0x01, 0x00, 0x00] ∧
      encode (.fcDecode [0x0A] 1) = [0x21, 0x01, 0x0A, 0x00, 0x01, 0x00, 0x00, 0x00] ∧ encode (.dmaStart .slave) = [0x30, 0x01, 0x01] ∧ encode (.sysReset .slave) = [0x00] := by
  decide +kernel

/-! ### Well-formedness -/

theorem test_wellFormed_length :
    wellFormed (.fcDecode [0x00] (2 ^ 32)) = false ∧ wellFormed (.fcDecode [0x00] 1) = true ∧
      wellFormed (.fcDecode [0x00] (2 ^ 32 - 1)) = true := by decide
theorem test_wellFormed_attempt :
    wellFormed (.rpDecide .timeout (2 ^ 32) 1) = false ∧ wellFormed (.rpDecide .timeout (2 ^ 32 - 1) 1) = true := by decide
theorem test_wellFormed_max : wellFormed (.rpDecide .timeout 1 (2 ^ 32)) = false := by decide

/-! ### CRC engine and codec -/

/-- V11, V12, V13, V14, V16, V17. -/
theorem test_crc_short :
    crc32Bytes [] = 0 ∧ crc32Bytes [0x00] = 0xD202EF8D ∧ crc32Bytes [0xFF] = 0xFF000000 ∧ crc32Bytes [0x61] = 0xE8B7BE43 ∧
      crc32Bytes [0, 0, 0, 0] = 0x2144DF1C ∧ crc32Bytes [0xFF, 0xFF, 0xFF, 0xFF] = 0xFFFFFFFF := by decide +kernel

/-- V18. -/
theorem test_crc_check_value :
    crc32Bytes [0x31, 0x32, 0x33, 0x34, 0x35, 0x36, 0x37, 0x38, 0x39] = 0xCBF43926 := by decide +kernel

set_option maxRecDepth 100000 in
/-- V1. -/
theorem test_crc_V1 : crcCompute (bytesOf 256 0) = 0x0D968558 := by
  unfold crcCompute; rw [crc32Bytes_eq_run]; decide +kernel

set_option maxRecDepth 100000 in
/-- V3. -/
theorem test_crc_V3 : crc32Bytes ((List.range 256).map (BitVec.ofNat 8)) = 0x29058C73 := by
  rw [crc32Bytes_eq_run]; decide +kernel

/-- Spot checks of the table of section 2.3. -/
theorem test_crcTable :
    crcTable 0x00 = 0 ∧ crcTable 0x01 = 0x77073096 ∧ crcTable 0x80 = 0xEDB88320 ∧ crcTable 0xFF = 0x2D02EF8D := by
  decide +kernel

/-- E1. -/
theorem test_fcEncode_E1 : frameEncode (bytesOf 256 0) = zeroFrame := by
  apply Bytes.ext; rw [frameEncode_data, test_crc_V1]; decide +kernel

/-- E4, W13: a zero payload with its CRC field, and with zeros in place of it. -/
theorem test_frameValid_E4_W13 : frameValid zeroFrame = true ∧ frameValid (bytesOf 260 0) = false := by
  have h (f : Frame) (e : framePayload f = bytesOf 256 0) : frameValid f = ((0x0D968558 : Word32) == frameCrc f) := by
    rw [frameValid, e, test_crc_V1]
  rw [h zeroFrame (by decide +kernel), h (bytesOf 260 0) (by decide +kernel)]
  decide +kernel

set_option maxRecDepth 100000 in
/-- W1. -/
theorem test_frameValid_W1 : crcCompute (framePayload frameW1) = 0xC3A5F493 ∧ frameValid frameW1 = false := by
  have h : crcCompute (framePayload frameW1) = 0xC3A5F493 := by
    unfold crcCompute; rw [crc32Bytes_eq_run]; decide +kernel
  refine ⟨h, ?_⟩
  rw [frameValid, h]; decide +kernel

/-- E8, E9, E10: the length is judged first. -/
theorem test_fcDecode_lengths :
    (sequenceDecode 0 (List.replicate 259 0) 259).valid = false ∧
      (sequenceDecode 0 (zeroFrame.data ++ [0]) 261).valid = false ∧ (sequenceDecode 0 [] 0).valid = false := by
  decide +kernel

/-- R91 (log 28): a `len` that is not the length of `buf` stops nothing; at a `len` other than 260 `valid` is 0 (R93). -/
theorem test_fcDecode_false_len :
    (∃ t, exec (.fcDecode [0x00] 260) State.reset = .next t) ∧ (sequenceDecode 0 zeroFrame.data 259).valid = false := by
  exact ⟨⟨_, rfl⟩, by decide +kernel⟩

/-- P1, P2, P5, P6, P9, P14, P15. -/
theorem test_policyDecide :
    policyDecide .crcMismatch 0 3 = .retry ∧ policyDecide .crcMismatch 3 3 = .giveUp ∧
      policyDecide .timeout 2 3 = .retry ∧ policyDecide .timeout 3 3 = .giveUp ∧ policyDecide .cancelled 0 3 = .giveUp ∧
      policyDecide .timeout 0 0 = .giveUp ∧ policyDecide .crcMismatch 4294967294 4294967295 = .retry := by decide +kernel

/-! ### DMA channel and reset -/

/-- A3: the aborted handle leaves the pending set, or stays, as the adapter chose. -/
theorem test_dmaAbort_A3 :
    see (fun t => (t.master.ch.active, t.master.ch.pending)) (exec (.dmaAbort .master 7) (masterAt .transferring .pending)) =
        some (false, []) ∧
      see (fun t => (t.master.ch.active, t.master.ch.pending))
        (exec (.dmaAbort .master 7) (envAct (.abortKeeps .master true) (masterAt .transferring .pending))) =
        some (false, [7]) := by decide +kernel

/-- A4, R105: a handle that is still pending is not returned again, even where the adapter wishes to. -/
theorem test_dmaStart_A4 :
    see (fun t => (t.master.ch.handle, t.master.ch.pending))
      (exec (.dmaStart .master)
        (envAct (.nextHandle .master 7)
          { masterAt .failed .aborted with master := { (masterAt .failed .aborted).master with
              ch := { Channel.reset with pending := [7] } } })) = some (8, [7, 8]) := by decide +kernel

/-- R204, R211, U31: a handle for which the timer is still pending is not returned either. -/
theorem test_dmaStart_stale_timer :
    see (fun t => t.master.ch.handle)
      (exec (.dmaStart .master) (envAct (.nextHandle .master 7) (masterAt .evaluating .complete))) = some 8 := by
  decide +kernel

/-- R112, R114: the slave's transfer is paired once: after its exchange a second transfer of the master is paired with none. -/
theorem test_dmaStart_pairs_once :
    let armed : State := { slaveAt .armed with xPair := none, xMet := [], master := MasterInst.reset }
    see (fun t => (t.xPair.map (·.hs), t.xMet, t.input)) (exec (.dmaStart .master) armed) = some (some (some 7), [7], []) ∧
      see (fun t => (t.xPair.map (·.hs), t.xMet)) (exec (.dmaStart .master) { armed with xMet := [7] }) =
        some (some none, [7]) := by decide +kernel

/-- R114: the reference transport delivers `S.BEGIN` at the master's start. -/
theorem test_dmaStart_reference_begin :
    see (fun t => t.input)
      (exec (.dmaStart .master)
        { slaveAt .armed with
          xPair := none, xMet := [], master := MasterInst.reset, bus := { BusParams.reset with reference := true } }) =
      some [.record .slave [0x41, 0x07, 0x00, 0x00, 0x00]] := by decide +kernel

/-- A6. -/
theorem test_dmaStart_A6 :
    see (fun t => t.master.fault) (exec (.dmaStart .master) (masterAt .transferring .pending)) =
      some [.startWhileActive] := by decide +kernel

/-- R201, R203: reset of a master in a transfer. -/
theorem test_sysReset :
    see (fun t => (t.master.state, t.master.attempts, t.master.ch.active, t.master.ch.pending, t.outputs))
      (exec (.sysReset .master) (masterAt .transferring .pending)) = some (.idle, 0, false, [7], []) := by decide +kernel

/-- R46, R204 (log 18): of two transfers cut off by two resets each is remembered until its own completion is delivered. -/
theorem test_sysReset_twice :
    (channelReset (channelStarted (channelReset { Channel.reset with active := true, handle := 7, pending := [7] }) 8)).orphans =
        [7, 8] ∧
      (channelDelivered { Channel.reset with pending := [7, 8], orphans := [7, 8] } 8).orphans = [7] := by decide +kernel

/-! ### The transport's own actions -/

/-- R113: bytes reach the slave's rx buffer only through an exchange with the master. -/
theorem test_rxWrite_slave :
    let alone : State := { slaveAt .armed with xPair := none, xMet := [] }
    envAct (.rxWrite .slave 7 zeroFrame) alone = alone ∧
      (envAct (.rxWrite .slave 7 zeroFrame) (slaveAt .armed)).slave.rxBuffer = zeroFrame := by decide +kernel

/-- R108, R112: one slave transfer that armed while the master is clocking can be reached, and no second one. -/
theorem test_rxWrite_late :
    let late : State := { slaveAt .armed with xPair := some { exchange37 with hs := none }, xMet := [] }
    (envAct (.rxWrite .slave 7 zeroFrame) late).slave.rxBuffer = zeroFrame ∧
      (envAct (.rxWrite .slave 7 zeroFrame) late).xMet = [7] ∧
      envAct (.rxWrite .slave 7 zeroFrame) { late with xPair := some { exchange37 with hs := some 6 } } =
        { late with xPair := some { exchange37 with hs := some 6 } } := by decide +kernel

/-- R114: the exchange end gives each side the other's frame and delivers both completions. -/
theorem test_finish :
    let s : State := { slaveAt .armed with bus := { BusParams.reset with reference := true } }
    let t := envAct (.finish false) s
    t.slave.rxBuffer = bytesOf 260 0 ∧ t.master.rxBuffer = bytesOf 260 0xFF ∧ t.xPair = none ∧
      t.input = [.record .slave [0x42, 0x07, 0x00, 0x00, 0x00, 0x00], .record .master [0x52, 0x03, 0x00, 0x00, 0x00, 0x00]] := by
  decide +kernel

/-- R114: with no slave armed the master completes only if `complete_unpaired`. -/
theorem test_finish_unpaired :
    let s (c : Bool) : State := { slaveAt .armed with
      xPair := some { exchange37 with hs := none }
      bus := { BusParams.reset with reference := true, completeUnpaired := c } }
    (envAct (.finish true) (s false)).input = [] ∧
      (envAct (.finish true) (s true)).input = [.record .master [0x52, 0x03, 0x00, 0x00, 0x00, 0x00]] := by decide +kernel

/-- R5, R22 (log 8): the reference transport delivers nothing to an instance that has faulted; the other side goes on. -/
theorem test_notify_faulted :
    let s : State := { slaveAt .armed with bus := { BusParams.reset with reference := true } }
    (envAct (.finish true) (s.withFault .slave .bufferOwnership)).input =
        [.record .master [0x52, 0x03, 0x00, 0x00, 0x00, 0x00]] ∧
      (envAct (.finish true) (s.withFault .master .startWhileActive)).input =
        [.record .slave [0x42, 0x07, 0x00, 0x00, 0x00, 0x00]] ∧
      see (fun t => (t.xPair.map (·.hs), t.input))
        (exec (.dmaStart .master)
          ({ s with xPair := none, xMet := [], master := MasterInst.reset }.withFault .slave .bufferOwnership)) =
        some (some (some 7), []) := by decide +kernel

/-! ### Slave events (95_test_vectors.md section 2.7) -/

/-- L1. -/
theorem test_sProvide_L1 :
    see (fun t => (t.slave.state, t.slave.attStatus, t.slave.handle, t.slave.tmPending, payloadRequest t))
      (exec (.sProvide (bytesOf 256 0xFF)) State.reset) = some (.armed, .pending, 0, [0], false) := by decide +kernel

/-- L2. -/
theorem test_sProvide_L2 :
    see (fun t => (t.slave, t.outputs)) (exec (.sProvide (bytesOf 256 0)) (slaveAt .armed)) =
      some ((slaveAt .armed).slave, [.report (.busy .slave)]) := by decide +kernel

/-- L3, L4, L5. -/
theorem test_sBegin :
    see (fun t => t.slave.state) (exec (.sBegin 7) (slaveAt .armed)) = some .receiving ∧
      see (fun t => t.slave.state) (exec (.sBegin 6) (slaveAt .armed)) = some .armed ∧
      see (fun t => t.slave.state) (exec (.sBegin 7) (slaveAt .receiving)) = some .receiving := by decide +kernel

/-- R110, R183: `S.BEGIN` is not delivered where the master is not clocking, and at most once per transfer. -/
theorem test_sBegin_undeliverable :
    let idle : State := { slaveAt .armed with xPair := none }
    let begun : State := { slaveAt .armed with slave := { (slaveAt .armed).slave with
      ch := { (slaveAt .armed).slave.ch with begun := true } } }
    see id (exec (.sBegin 7) idle) = some idle ∧ see id (exec (.sBegin 7) begun) = some begun := by decide +kernel

/-- L6, L7. -/
theorem test_sComplete_accepted :
    see (fun t => (t.slave.state, t.slave.rawStatus, t.slave.attStatus, t.slave.ch.active))
        (exec (.sComplete 7 .ok) (slaveAt .receiving)) = some (.completed, .ok, .complete, false) ∧
      see (fun t => (t.slave.state, t.slave.rawStatus)) (exec (.sComplete 7 .error) (slaveAt .armed)) =
        some (.completed, .error) := by decide +kernel

/-- L8. -/
theorem test_sComplete_L8 :
    see (fun t => t.slave.state) (exec (.sComplete 7 .ok) (slaveAt .idle)) = some .idle := by decide +kernel

/-- L9. -/
theorem test_sReport_L9 :
    see (fun t => (t.slave.state, t.slave.outcome, t.outputs))
      (exec .sReport ((slaveAt .completed).withRx .slave zeroFrame)) =
      some (.idle, .crcValid, [.report (.frameReceived .crcValid (bytesOf 256 0))]) := by
  have h : exec .sReport ((slaveAt .completed).withRx .slave zeroFrame) =
      .next ((((slaveAt .completed).withRx .slave zeroFrame).withSlave
        { ((slaveAt .completed).withRx .slave zeroFrame).slave with
          outcome := if frameValid zeroFrame = true then .crcValid else .crcMismatch
          outcomeValid := true
          state := .idle }).drawn.emit
        (.report (.frameReceived (if frameValid zeroFrame = true then .crcValid else .crcMismatch)
          (framePayload zeroFrame)))) := rfl
  rw [h, if_pos test_frameValid_E4_W13.1]; decide +kernel

/-- L11: with a transport error the buffer is not decoded. -/
theorem test_sReport_L11 :
    see (fun t => (t.slave.state, t.slave.outcome))
      (exec .sReport { slaveAt .completed with slave := { (slaveAt .completed).slave with rawStatus := .error } }) =
      some (.idle, .hardwareFault) := by decide +kernel

/-- L12. -/
theorem test_sArmTimeout_L12 :
    see (fun t => (t.slave.state, t.slave.attStatus, t.slave.outcome, t.slave.ch.active, t.outputs.head?))
      (exec (.sArmTimeout 7) (slaveAt .armed)) = some (.idle, .timedOut, .timeout, false, some (.dmaAbort .slave 7)) := by
  decide +kernel

/-- L13. -/
theorem test_sArmTimeout_L13 :
    see (fun t => (t.slave.state, t.slave.ch.active, t.outputs)) (exec (.sArmTimeout 7) (slaveAt .receiving)) =
      some (.receiving, true, []) := by decide +kernel

/-- L15. -/
theorem test_sTransportAbort_L15 :
    see (fun t => (t.slave.state, t.slave.outcome, t.slave.attStatus, t.outputs.length))
      (exec .sTransportAbort (slaveAt .idle)) = some (.idle, .aborted, .pending, 1) := by decide +kernel

/-- L16, L17. -/
theorem test_sTransportAbort_L16_L17 :
    see (fun t => (t.slave.state, t.slave.attStatus, t.outputs.head?)) (exec .sTransportAbort (slaveAt .receiving)) =
        some (.idle, .aborted, some (.dmaAbort .slave 7)) ∧
      see (fun t => (t.slave.state, t.outputs)) (exec .sTransportAbort (slaveAt .completed)) = some (.completed, []) := by
  decide +kernel

/-! ### Master events (95_test_vectors.md section 2.8) -/

/-- K1. -/
theorem test_mSend_K1 :
    see (fun t => (t.master.state, t.master.attempts, t.master.attStatus, t.master.outcomeValid, t.master.payload))
      (exec (.mSend (bytesOf 256 0x11)) State.reset) = some (.encoding, 1, .noAttempt, false, bytesOf 256 0x11) := by
  decide +kernel

/-- K2. -/
theorem test_mSend_K2 :
    see (fun t => (t.master.state, t.outputs)) (exec (.mSend (bytesOf 256 0)) (masterAt .transferring .pending)) =
      some (.transferring, [.report (.busy .master)]) := by decide +kernel

/-- K3. -/
theorem test_mEncode_K3 :
    see (fun t => (t.master.state, t.master.attStatus, t.master.attStart, t.master.tmPending, t.outputs))
      (exec (.mEncode 9) (masterAt .encoding .noAttempt)) =
      some (.transferring, .pending, 9, [7, 8], [.dmaStart .master 8]) := by decide +kernel

/-- K4. -/
theorem test_mComplete_K4 :
    see (fun t => (t.master.state, t.master.rawStatus, t.master.attStatus, t.master.ch.active))
      (exec (.mComplete 7 .ok) (masterAt .transferring .pending)) = some (.evaluating, .ok, .complete, false) := by
  decide +kernel

/-- K5, with the other handle pending (R21, A5). -/
theorem test_mComplete_K5 :
    see (fun t => (t.master.state, t.master.ch.active, t.master.ch.pending))
      (exec (.mComplete 6 .ok)
        { masterAt .transferring .pending with master := { (masterAt .transferring .pending).master with
            ch := { (masterAt .transferring .pending).master.ch with pending := [6, 7] } } }) =
      some (.transferring, true, [7]) := by decide +kernel

/-- K6. -/
theorem test_mTimeout_K6 :
    see (fun t => (t.master.state, t.master.attStatus, t.master.ch.active, t.outputs))
      (exec (.mTimeout 7) (masterAt .transferring .pending)) =
      some (.evaluating, .timedOut, false, [.dmaAbort .master 7]) := by decide +kernel

/-- K7. -/
theorem test_mTimeout_K7 :
    see (fun t => (t.master.state, t.master.attStatus, t.outputs)) (exec (.mTimeout 7) (masterAt .evaluating .complete)) =
      some (.evaluating, .complete, []) := by decide +kernel

/-- K8, with the frame of E1. -/
theorem test_mEvaluate_K8 :
    see (fun t => (t.master.state, t.master.outcome, t.master.rxPayload, t.outputs))
      (exec .mEvaluate ((masterAt .evaluating .complete).withRx .master zeroFrame)) =
      some (.success, .crcValid, bytesOf 256 0, [.report (.success (bytesOf 256 0))]) := by
  have hv := test_frameValid_E4_W13.1
  have hp : framePayload zeroFrame = bytesOf 256 0 := by decide +kernel
  simp [see, exec, execMEvaluate, instanceStep, masterAt, MasterInst.reset, completionOutcome, frameDecode, hv, hp]
  rfl

/-- K11. -/
theorem test_mEvaluate_K11 :
    see (fun t => (t.master.state, t.master.outcome, t.outputs)) (exec .mEvaluate (masterAt .evaluating .timedOut)) =
      some (.retrying, .timeout, []) := by decide +kernel

/-- K13, with one attempt made. -/
theorem test_mRetry_K13 :
    see (fun t => (t.master.state, t.master.attempts, t.master.payload))
      (exec (.mRetry (some (bytesOf 256 0xAA)))
        { masterAt .retrying .timedOut with master := { (masterAt .retrying .timedOut).master with outcome := .timeout } }) =
      some (.encoding, 2, bytesOf 256 0xAA) := by decide +kernel

/-- K14. -/
theorem test_mRetry_K14 :
    see (fun t => (t.master.state, t.outputs))
      (exec (.mRetry none)
        { masterAt .retrying .timedOut with
          master := { (masterAt .retrying .timedOut).master with outcome := .timeout, attempts := 3 } }) =
      some (.failed, [.report (.failed .timeout 3)]) := by decide +kernel

/-- K15. -/
theorem test_mCancel_K15 :
    see (fun t => (t.master.state, t.master.attStatus, t.master.outcome, t.outputs))
      (exec .mCancel (masterAt .transferring .pending)) =
      some (.failed, .aborted, .cancelled, [.dmaAbort .master 7, .report (.failed .cancelled 1)]) := by decide +kernel

/-- K18, K19. -/
theorem test_mCancel_K18_K19 :
    see (fun t => (t.master.state, t.outputs)) (exec .mCancel (masterAt .encoding .noAttempt)) =
        some (.failed, [.report (.failed .cancelled 1)]) ∧
      see (fun t => (t.master.state, t.outputs)) (exec .mCancel (masterAt .success .complete)) = some (.success, []) := by
  decide +kernel

/-- R4, log 4: the record placed by `withFetchWord` is the one the next step runs. -/
theorem test_withFetchWord :
    see (fun t => (t.master.state, t.input)) (step (State.reset.withFetchWord 8 0x50)) = some (.encoding, []) := by
  decide +kernel

/-! ### Concrete inputs that meet the hypotheses of the statements -/

theorem witness_DecodeOfEncode :
    wellFormed (.fcDecode [0xAA] 1) = true ∧ wellFormed (.rpDecide .timeout (2 ^ 32 - 1) (2 ^ 32 - 1)) = true ∧
      wellFormed (.mRetry (some (bytesOf 256 1))) = true := by decide

theorem witness_EncodeOfDecode : decode .slave [0x41, 0x01, 0x00, 0x00, 0x80, 0x43] = .ok (.sBegin 0x80000001, [0x43]) := by
  decide +kernel

theorem witness_ReservedCodeRefused :
    configLegal (offered (.record .master [0x61, 0x00]) State.reset) = true ∧
      (offered (.record .master [0x61, 0x00]) State.reset).input = .record .master (0x61 :: [0x00]) :: [] ∧
      (0x61 : Byte) ∉ ([0x00, 0x10, 0x20, 0x21, 0x30, 0x31, 0x40, 0x41, 0x42, 0x43, 0x44, 0x45, 0x50, 0x51, 0x52, 0x53,
        0x54, 0x55, 0x56, 0x60] : List Byte) := by decide

theorem witness_StepRunsTheDecodedRecord :
    configLegal (offered (.record .master [0x56]) State.reset) = true ∧
      (offered (.record .master [0x56]) State.reset).input = .record .master [0x56] :: [] ∧ decode .master [0x56] = .ok (.mCancel, []) := by
  decide +kernel

/-- Each internal step; a faulted master beside a slave that steps; a faulted slave; and nothing enabled. -/
theorem witness_StepWithNothingOffered :
    let masterSteps (s : State) := faultFree s .master ∧
      (s.master.state = .encoding ∨ s.master.state = .evaluating ∨ s.master.state = .retrying)
    let slaveSteps (s : State) := faultFree s .slave ∧ s.slave.state = .completed
    let both : State := { masterAt .encoding .noAttempt with slave := (slaveAt .completed).slave }
    (∀ st, configLegal (masterAt st .complete) = true ∧ (masterAt st .complete).input = [] ∧
      faultFree (masterAt st .complete) .master ∧ (masterAt st .complete).master.state = st) ∧
    (configLegal (both.withFault .master .startWhileActive) = true ∧ (both.withFault .master .startWhileActive).input = [] ∧
      ¬masterSteps (both.withFault .master .startWhileActive) ∧ slaveSteps (both.withFault .master .startWhileActive)) ∧
    (¬masterSteps ((slaveAt .completed).withFault .slave .startWhileActive) ∧
      ¬slaveSteps ((slaveAt .completed).withFault .slave .startWhileActive)) ∧
    ¬masterSteps State.reset ∧ ¬slaveSteps State.reset :=
  ⟨fun _ => ⟨rfl, rfl, rfl, rfl⟩, ⟨rfl, rfl, fun h => List.cons_ne_nil _ _ h.1, rfl, rfl⟩,
    ⟨fun h => absurd h.2 (by decide), fun h => List.cons_ne_nil _ _ h.1⟩, fun h => absurd h.2 (by decide),
    fun h => absurd h.2 (by decide)⟩

/-- A paired transfer of the slave, a late one, and the same with the reference transport. -/
theorem witness_AdapterWritesOnlyItsRxBuffer :
    let s := slaveAt .armed
    let late : State := { s with xPair := some { exchange37 with hs := none }, xMet := [] }
    (∀ a, configLegal (offered (.env a) s) = true ∧ (offered (.env a) s).input = .env a :: [] ∧
      configLegal (offered (.env a) late) = true) ∧
    (s.bus.reference = false ∧ (s.channel .slave).active = true ∧ (s.channel .slave).handle = 7 ∧ (7 : Handle) ∈ s.xMet ∧
      (s.channel .master).active = true ∧ (s.channel .master).handle = exchange37.hm ∧ s.xPair = some exchange37) ∧
    ((7 : Handle) ∉ late.xMet ∧ late.xPair = some { exchange37 with hs := none } ∧ exchange37.hm ∈ late.master.ch.pending) ∧
    { s with bus := { s.bus with reference := true } }.bus.reference = true ∧ (6 : Handle) ≠ (s.channel .slave).handle :=
  ⟨fun _ => ⟨rfl, rfl, rfl⟩, by decide +kernel⟩

/-- Paired, unpaired with and without `complete_unpaired`, with either side faulted, and not enabled. -/
theorem witness_ReferenceExchangeEnd (first c : Bool) :
    let s (hs : Option Handle) : State := offered (.env (.finish first)) { slaveAt .armed with
      xPair := some { exchange37 with hs := hs }, bus := { BusParams.reset with reference := true, completeUnpaired := c } }
    (∀ hs, configLegal (s hs) = true ∧ (s hs).input = .env (.finish first) :: [] ∧ (s hs).bus.reference = true ∧
      (s hs).xPair = some { exchange37 with hs := hs } ∧ exchange37.hm ∈ (s hs).master.ch.pending) ∧
    ((s (some 7)).slave.ch.active = true ∧ (s (some 7)).slave.ch.handle = 7 ∧ (7 : Handle) ∈ (s (some 7)).xMet) ∧
    (∀ r, configLegal ((s (some 7)).withFault r .bufferOwnership) = true ∧
      ((s (some 7)).withFault r .bufferOwnership).input = .env (.finish first) :: [] ∧
      ((s (some 7)).withFault r .bufferOwnership).xPair = some exchange37 ∧
      exchange37.hm ∈ ((s (some 7)).withFault r .bufferOwnership).master.ch.pending) ∧
    (offered (.env (.finish first)) State.reset).xPair = none :=
  ⟨fun _ => ⟨rfl, rfl, rfl, rfl, List.mem_singleton.2 rfl⟩, ⟨rfl, rfl, List.mem_singleton.2 rfl⟩,
    fun r => by cases r <;> exact ⟨rfl, rfl, rfl, List.mem_singleton.2 rfl⟩, rfl⟩

/-- Both ends of the range of attempts, a constant one off at one end. -/
theorem witness_IllegalConfigurationRefused :
    let atts (n : Nat) : State :=
      { State.reset with master := { MasterInst.reset with cfg := { MasterInst.reset.cfg with maxAttempts := n } } }
    (atts 0).master.cfg.maxAttempts = 0 ∧ 2 ^ 32 ≤ (atts (2 ^ 32)).master.cfg.maxAttempts ∧
      configLegal (atts 1) = true ∧ configLegal (atts (2 ^ 32 - 1)) = true ∧
      ({ SlaveInst.reset with cfg := { SlaveInst.reset.cfg with crcSize := 5 } } : SlaveInst).cfg.crcSize ≠ 4 := by
  decide

theorem witness_SingleBitChangesCrc : (0 < 256 ∧ 0 < 8) ∧ (255 < 256 ∧ 7 < 8) := by decide

theorem witness_SingleBitFlipIsInvalid : (0 < 260 ∧ 0 < 8) ∧ (255 < 260 ∧ 7 < 8) ∧ (256 < 260 ∧ 0 < 8) ∧ (259 < 260 ∧ 7 < 8) := by
  decide

theorem witness_ResidueOfWellFormedFrame : frameValid zeroFrame = true := test_frameValid_E4_W13.1

/-- A whole frame at 260, and a `len` beside it. -/
theorem witness_FcDecodeResult : zeroFrame.data.length = 260 ∧ (259 : Nat) ≠ 260 ∧ (261 : Nat) ≠ 260 := by decide +kernel

theorem witness_DmaStartOnIdleChannel (r : Role) : faultFree State.reset r ∧ (State.reset.channel r).active = false := by
  cases r <;> exact ⟨rfl, rfl⟩

/-- A slave to pair with, one that exchanged bytes before, and none. -/
theorem witness_ExchangeBegunAtMasterStart :
    let s (met : List Handle) : State := { slaveAt .armed with xPair := none, xMet := met, master := MasterInst.reset }
    (faultFree (s []) .master ∧ (s []).master.ch.active = false ∧ (s []).slave.ch.active = true ∧
      (s []).slave.ch.handle ∉ metIfCut (s [])) ∧
    ¬((s [7]).slave.ch.active = true ∧ (s [7]).slave.ch.handle ∉ metIfCut (s [7])) ∧
    State.reset.slave.ch.active = false := ⟨⟨rfl, rfl, rfl, by decide⟩, by decide, rfl⟩

theorem witness_DmaStartWhileActive :
    (faultFree (masterAt .transferring .pending) .master ∧ ((masterAt .transferring .pending).channel .master).active = true ∧
      instrOwner .mCancel = some .master) ∧
    (faultFree (slaveAt .armed) .slave ∧ ((slaveAt .armed).channel .slave).active = true ∧
      instrOwner .sTransportAbort = some .slave) := ⟨⟨rfl, rfl, rfl⟩, rfl, rfl, rfl⟩

theorem witness_ReturnedHandleIsFresh :
    (handleInUse (masterAt .transferring .pending) .master ++ ((masterAt .transferring .pending).channel .master).pending ++
      (masterAt .transferring .pending).timer .master).length < 2 ^ 32 := by decide

/-- The active transfer's handle, and another. -/
theorem witness_DmaAbortResult :
    faultFree (masterAt .transferring .pending) .master ∧
      (((masterAt .transferring .pending).channel .master).active = true ∧
        ((masterAt .transferring .pending).channel .master).handle = 7) ∧
      ¬(((masterAt .transferring .pending).channel .master).active = true ∧
        ((masterAt .transferring .pending).channel .master).handle = 6) := ⟨rfl, ⟨rfl, rfl⟩, by decide⟩

theorem witness_SProvideArms :
    faultFree State.reset .slave ∧ State.reset.slave.state = .idle ∧ State.reset.slave.ch.active = false := ⟨rfl, rfl, rfl⟩

/-- Accepted; discarded in `S_Receiving`; and not deliverable where the master is not clocking. -/
theorem witness_SBeginResult :
    let deliverable (s : State) := s.slave.ch.active = true ∧ s.slave.ch.handle = 7 ∧ s.slave.ch.begun = false ∧
      ∃ x, s.xPair = some x ∧ x.hm ∈ s.master.ch.pending
    (faultFree (slaveAt .armed) .slave ∧ deliverable (slaveAt .armed) ∧ (slaveAt .armed).slave.state = .armed ∧
      7 = (slaveAt .armed).slave.handle) ∧
    (faultFree (slaveAt .receiving) .slave ∧ deliverable (slaveAt .receiving) ∧
      ¬((slaveAt .receiving).slave.state = .armed ∧ 7 = (slaveAt .receiving).slave.handle)) ∧
    faultFree { slaveAt .armed with xPair := none } .slave ∧ ¬deliverable { slaveAt .armed with xPair := none } :=
  ⟨⟨rfl, ⟨rfl, rfl, rfl, exchange37, rfl, by decide⟩, rfl, rfl⟩,
    ⟨rfl, ⟨rfl, rfl, rfl, exchange37, rfl, by decide⟩, by decide⟩, rfl, fun h => by simpa using h.2.2.2⟩

/-- Accepted in both states, and discarded for a stale handle. -/
theorem witness_SCompleteResult :
    (faultFree (slaveAt .armed) .slave ∧ (7 : Handle) ∈ (slaveAt .armed).slave.ch.pending ∧
      ((slaveAt .armed).slave.state = .armed ∧ 7 = (slaveAt .armed).slave.handle)) ∧
    (faultFree (slaveAt .receiving) .slave ∧ (7 : Handle) ∈ (slaveAt .receiving).slave.ch.pending ∧
      (slaveAt .receiving).slave.state = .receiving) ∧
    let stale : State := { slaveAt .armed with slave := { (slaveAt .armed).slave with
      ch := { (slaveAt .armed).slave.ch with pending := [6, 7] } } }
    (faultFree stale .slave ∧ (6 : Handle) ∈ stale.slave.ch.pending ∧ 6 ≠ stale.slave.handle) :=
  ⟨⟨rfl, by decide⟩, ⟨rfl, by decide⟩, rfl, by decide⟩

theorem witness_SReportResult :
    let errored : State := { slaveAt .completed with slave := { (slaveAt .completed).slave with rawStatus := .error } }
    (faultFree (slaveAt .completed) .slave ∧ (slaveAt .completed).slave.state = .completed ∧
      (slaveAt .completed).slave.rawStatus = .ok ∧ (slaveAt .completed).slave.ch.active = false) ∧
    (faultFree errored .slave ∧ errored.slave.state = .completed ∧ errored.slave.rawStatus = .error) :=
  ⟨⟨rfl, rfl, rfl, rfl⟩, rfl, rfl, rfl⟩

theorem witness_SArmTimeoutResult :
    (faultFree (slaveAt .armed) .slave ∧ (7 : Handle) ∈ (slaveAt .armed).slave.tmPending ∧
      ((slaveAt .armed).slave.state = .armed ∧ 7 = (slaveAt .armed).slave.handle)) ∧
    (faultFree (slaveAt .receiving) .slave ∧ (7 : Handle) ∈ (slaveAt .receiving).slave.tmPending ∧
      ¬((slaveAt .receiving).slave.state = .armed ∧ 7 = (slaveAt .receiving).slave.handle)) :=
  ⟨⟨rfl, by decide⟩, rfl, by decide⟩

theorem witness_STransportAbortResult (st : SState) : faultFree (slaveAt st) .slave ∧ (slaveAt st).slave.state = st :=
  ⟨rfl, rfl⟩

theorem witness_MSendResult (st : MState) :
    faultFree (masterAt st .complete) .master ∧ (masterAt st .complete).master.state = st := ⟨rfl, rfl⟩

theorem witness_MEncodeStartsTransfer :
    faultFree (masterAt .encoding .noAttempt) .master ∧ (masterAt .encoding .noAttempt).master.state = .encoding ∧
      (masterAt .encoding .noAttempt).master.ch.active = false := ⟨rfl, rfl, rfl⟩

/-- Accepted, and discarded for a stale handle. -/
theorem witness_MCompleteResult :
    let stale : State := { masterAt .transferring .pending with master := { (masterAt .transferring .pending).master with
      ch := { (masterAt .transferring .pending).master.ch with pending := [6, 7] } } }
    (faultFree (masterAt .transferring .pending) .master ∧
      (7 : Handle) ∈ (masterAt .transferring .pending).master.ch.pending ∧
      ((masterAt .transferring .pending).master.state = .transferring ∧
        7 = (masterAt .transferring .pending).master.handle)) ∧
    (faultFree stale .master ∧ (6 : Handle) ∈ stale.master.ch.pending ∧ 6 ≠ stale.master.handle) :=
  ⟨⟨rfl, by decide⟩, rfl, by decide⟩

/-- Accepted, and discarded after the completion was taken. -/
theorem witness_MTimeoutResult :
    (faultFree (masterAt .transferring .pending) .master ∧ (7 : Handle) ∈ (masterAt .transferring .pending).master.tmPending ∧
      ((masterAt .transferring .pending).master.state = .transferring ∧
        7 = (masterAt .transferring .pending).master.handle)) ∧
    (faultFree (masterAt .evaluating .complete) .master ∧ (7 : Handle) ∈ (masterAt .evaluating .complete).master.tmPending ∧
      ¬((masterAt .evaluating .complete).master.state = .transferring ∧
        7 = (masterAt .evaluating .complete).master.handle)) := ⟨⟨rfl, by decide⟩, rfl, by decide⟩

/-- The four ways of R145. -/
theorem witness_MEvaluateResult :
    let with' (raw : RawStatus) (f : Frame) : State := { masterAt .evaluating .complete with
      master := { (masterAt .evaluating .complete).master with rawStatus := raw, rxBuffer := f } }
    (faultFree (masterAt .evaluating .timedOut) .master ∧ (masterAt .evaluating .timedOut).master.state = .evaluating ∧
      (masterAt .evaluating .timedOut).master.attStatus = .timedOut) ∧
    (faultFree (with' .error zeroFrame) .master ∧ (with' .error zeroFrame).master.state = .evaluating ∧
      (with' .error zeroFrame).master.attStatus ≠ .timedOut ∧ (with' .error zeroFrame).master.rawStatus = .error) ∧
    (faultFree (with' .ok zeroFrame) .master ∧ (with' .ok zeroFrame).master.state = .evaluating ∧
      (with' .ok zeroFrame).master.attStatus ≠ .timedOut ∧ (with' .ok zeroFrame).master.rawStatus = .ok ∧
      (with' .ok zeroFrame).master.ch.active = false ∧ frameValid zeroFrame = true) ∧
    (faultFree (with' .ok frameW1) .master ∧ (with' .ok frameW1).master.state = .evaluating ∧
      (with' .ok frameW1).master.attStatus ≠ .timedOut ∧ (with' .ok frameW1).master.rawStatus = .ok ∧
      (with' .ok frameW1).master.ch.active = false ∧ frameValid frameW1 = false) :=
  ⟨⟨rfl, rfl, rfl⟩, ⟨rfl, rfl, by decide, rfl⟩, ⟨rfl, rfl, by decide, rfl, rfl, test_frameValid_E4_W13.1⟩,
    rfl, rfl, by decide, rfl, rfl, test_frameValid_W1.2⟩

/-- One attempt below the limit, and at the limit. -/
theorem witness_MRetryResult :
    let with' (n : Nat) : State := { masterAt .retrying .timedOut with
      master := { (masterAt .retrying .timedOut).master with outcome := .timeout, attempts := n } }
    (faultFree (with' 2) .master ∧ (with' 2).master.state = .retrying ∧ (with' 2).master.outcome = .timeout ∧
      (with' 2).master.attempts < (with' 2).master.cfg.maxAttempts) ∧
    (faultFree (with' 3) .master ∧ (with' 3).master.state = .retrying ∧
      ¬((with' 3).master.attempts < (with' 3).master.cfg.maxAttempts)) :=
  ⟨⟨rfl, rfl, rfl, by decide⟩, rfl, rfl, by decide⟩

theorem witness_MCancelResult (st : MState) :
    faultFree (masterAt st .complete) .master ∧ (masterAt st .complete).master.state = st := ⟨rfl, rfl⟩

theorem witness_SProvideBusy : faultFree (slaveAt .armed) .slave ∧ (slaveAt .armed).slave.state ≠ .idle :=
  ⟨rfl, by decide⟩

theorem witness_StepsNotEnabledChangeNothing :
    faultFree State.reset .master ∧ faultFree State.reset .slave ∧ State.reset.master.state ≠ .encoding ∧
      State.reset.master.state ≠ .evaluating ∧ State.reset.master.state ≠ .retrying ∧ State.reset.slave.state ≠ .completed ∧
      (7 : Handle) ∉ State.reset.master.ch.pending ∧ (7 : Handle) ∉ State.reset.master.tmPending ∧
      (7 : Handle) ∉ State.reset.slave.ch.pending ∧ (7 : Handle) ∉ State.reset.slave.tmPending :=
  ⟨rfl, rfl, by decide⟩

theorem witness_BufferOwnershipFaults (mst : MState) (sst : SState) :
    let s : State :=
      { State.reset with
        master := { MasterInst.reset with state := mst, attStatus := .complete, ch := { Channel.reset with active := true } }
        slave := { SlaveInst.reset with state := sst, ch := { Channel.reset with active := true } } }
    faultFree s .master ∧ s.master.ch.active = true ∧ s.master.state = mst ∧ s.master.attStatus ≠ .timedOut ∧
      s.master.rawStatus = .ok ∧ faultFree s .slave ∧ s.slave.ch.active = true ∧ s.slave.state = sst ∧
      s.slave.rawStatus = .ok := ⟨rfl, rfl, rfl, by simp, rfl, rfl, rfl, rfl, rfl⟩

theorem witness_FaultedInstanceStops :
    instrOwner .mCancel = some .master ∧
      (State.reset.withFault .master .startWhileActive).faultMark .master = .startWhileActive :: [] := ⟨rfl, rfl⟩

/-- A master about to encode: the invariant holds and the step is its `M.ENCODE`. -/
theorem witness_EveryStepKeepsInvariant :
    SystemInv (masterAt .encoding .noAttempt) ∧ ∃ t, step (masterAt .encoding .noAttempt) = .next t := by
  refine ⟨⟨?_, ?_, List.Pairwise.nil, nofun⟩, _, rfl⟩ <;> constructor <;> (try constructor) <;>
    simp [masterAt, State.reset, MasterInst.reset, SlaveInst.reset, Channel.reset, risingHandles, inFlight, txEncoded]

/-- A master clocking an exchange with an armed slave: the invariant holds, and an action changes the slave's buffer. -/
theorem witness_TransportTouchesOnlyOwnedRxBuffers :
    let s : State := { slaveAt .armed with slave := { (slaveAt .armed).slave with txFrame := zeroFrame } }
    SystemInv s ∧ (envAct (.rxWrite .slave 7 zeroFrame) s).rxContent .slave ≠ s.rxContent .slave := by
  have one (h : Handle) : risingHandles [h] := List.pairwise_singleton _ _
  have valid := test_frameValid_E4_W13.1
  exact ⟨⟨⟨⟨one 3, .nil, fun _ => List.mem_singleton.2 rfl⟩, one 3, Nat.le_refl 1, ⟨nofun, nofun⟩, fun _ => rfl, nofun, nofun,
      nofun, nofun, nofun, fun _ => valid⟩,
    ⟨⟨one 7, .nil, fun _ => List.mem_singleton.2 rfl⟩, one 7, nofun, fun _ => rfl, nofun, nofun, fun _ => valid⟩,
    one 7, fun _ x hx => by cases hx; rfl⟩, by decide +kernel⟩

/-- A start that makes the master clock, a late slave transfer reached, and an action with the master not clocking. -/
theorem witness_OnlyTheMastersStartMovesBytes :
    (∃ t, exec (.dmaStart .master) State.reset = .next t ∧ masterClocking State.reset = false ∧ masterClocking t = true) ∧
    (∃ t, step (offered (.env (.rxWrite .slave 7 zeroFrame))
        { slaveAt .armed with xPair := some { exchange37 with hs := none }, xMet := [] }) = .next t ∧ (7 : Handle) ∈ t.xMet) ∧
    masterClocking (envAct .endExchange State.reset) = false :=
  ⟨⟨_, rfl, rfl, by decide +kernel⟩, ⟨_, rfl, by decide +kernel⟩, rfl⟩

/-- A master in a transfer, with a completion offered. -/
theorem witness_FsmDrivenSystemNeverFaults :
    OwnershipInv (offered (.record .master [0x52, 0x07, 0x00, 0x00, 0x00, 0x00]) (masterAt .transferring .pending)) ∧
      inputsFsmDriven (offered (.record .master [0x52, 0x07, 0x00, 0x00, 0x00, 0x00]) (masterAt .transferring .pending)) ∧
      ∃ t, step (offered (.record .master [0x52, 0x07, 0x00, 0x00, 0x00, 0x00]) (masterAt .transferring .pending)) = .next t := by
  refine ⟨?_, ?_, _, rfl⟩
  · constructor <;> simp [offered, masterAt, State.reset, MasterInst.reset, SlaveInst.reset, Channel.reset, inFlight]
  · intro dest bytes hb i rest hd
    simp only [offered, List.mem_cons, List.not_mem_nil, or_false, Input.record.injEq] at hb
    obtain ⟨rfl, rfl⟩ := hb
    rw [test_decode_mComplete] at hd
    cases hd; rfl

theorem witness_ParametersFaultsAndOutputsOnlyGrow : ∃ t, step (masterAt .retrying .timedOut) = .next t := ⟨_, rfl⟩

/-- A record of each instance, a reset, and an operation of neither. -/
theorem witness_InstancesShareNothing :
    (instrOwner .mCancel = some .master ∧ ∃ t, exec .mCancel (masterAt .transferring .pending) = .next t) ∧
    (instrOwner .sTransportAbort = some .slave ∧ ∃ t, exec .sTransportAbort (slaveAt .armed) = .next t) ∧
    (∃ t, exec (.sysReset .master) State.reset = .next t) ∧
    (instrOwner (.rpDecide .timeout 1 2) = none ∧ (∀ r, Instr.rpDecide .timeout 1 2 ≠ .sysReset r) ∧
      ∃ t, exec (.rpDecide .timeout 1 2) State.reset = .next t) :=
  ⟨⟨rfl, _, rfl⟩, ⟨rfl, _, rfl⟩, ⟨_, rfl⟩, rfl, fun _ => by simp, _, rfl⟩

theorem witness_MasterMovesByItsTable : ∃ t, exec (.mTimeout 7) (masterAt .transferring .pending) = .next t := ⟨_, rfl⟩

theorem witness_SlaveMovesByItsTable : ∃ t, exec (.sBegin 7) (slaveAt .armed) = .next t := ⟨_, rfl⟩

theorem witness_AttemptCounterWriters : ∃ t, exec (.mSend (bytesOf 256 0)) State.reset = .next t := ⟨_, rfl⟩

theorem witness_OneReportPerSession : ∃ t, exec .mCancel (masterAt .encoding .noAttempt) = .next t := ⟨_, rfl⟩

theorem witness_OneFrameReportPerArming : ∃ t, exec .sTransportAbort (slaveAt .idle) = .next t := ⟨_, rfl⟩

theorem witness_FirstOfCompletionAndTimeoutCommits :
    faultFree (masterAt .transferring .pending) .master ∧ (masterAt .transferring .pending).master.state = .transferring ∧
      7 = (masterAt .transferring .pending).master.handle ∧
      (7 : Handle) ∈ (masterAt .transferring .pending).master.ch.pending ∧
      (7 : Handle) ∈ (masterAt .transferring .pending).master.tmPending := ⟨rfl, rfl, rfl, by decide⟩

theorem witness_FaithfulSessionSucceeds :
    faultFree State.reset .master ∧ faultFree State.reset .slave ∧ inSession State.reset.master.state = false ∧
      State.reset.slave.state = .idle ∧ State.reset.master.ch.active = false ∧ State.reset.slave.ch.active = false ∧
      State.reset.bus =
        { State.reset.bus with reference := false, corruptM2s := bytesOf 260 0, corruptS2m := bytesOf 260 0 } ∧
      [Role.slave, .master, .slave, .master].Perm [.slave, .slave, .master, .master] ∧
      [Role.master, .master, .slave, .slave].Perm [.slave, .slave, .master, .master] :=
  ⟨rfl, rfl, rfl, rfl, rfl, rfl, rfl, by decide, by decide⟩

/-- No attempt yet, one below the limit, and as many as the limit of three, one of them with a new payload. -/
theorem witness_AllAttemptsTimedOutFails :
    let tries : List (Time × Option Payload) := [(0, none), (1, some (bytesOf 256 0xAA)), (2, none)]
    faultFree (masterAt .encoding .noAttempt) .master ∧ (masterAt .encoding .noAttempt).master.state = .encoding ∧
      (masterAt .encoding .noAttempt).master.ch.active = false ∧ (masterAt .encoding .noAttempt).master.attempts = 1 ∧
      (tries.take 2).length < (masterAt .encoding .noAttempt).master.cfg.maxAttempts ∧
      tries.length = (masterAt .encoding .noAttempt).master.cfg.maxAttempts ∧
      1 ≤ (masterAt .encoding .noAttempt).master.cfg.maxAttempts := ⟨rfl, rfl, rfl, rfl, by decide, rfl, by decide⟩

theorem witness_NoStartUntilTheNextSend :
    inSession (masterAt .failed .aborted).master.state = false ∧
      (∀ i ∈ [Instr.mTimeout 7, .mCancel], (∀ p, i ≠ .mSend p) ∧ i ≠ .dmaStart .master) ∧
      ∃ t, execAll [.mTimeout 7, .mCancel] (masterAt .failed .aborted) = .next t := by
  refine ⟨rfl, ?_, _, rfl⟩
  simp

/-- Outside a session, with a cancel offered, with an action of the transport offered, and with nothing offered. -/
theorem witness_NoStartUntilTheNextSend_step :
    let s := masterAt .failed .aborted
    (inSession s.master.state = false ∧ offersNoStart (offered (.record .master [0x56]) s) ∧
      ∃ t, step (offered (.record .master [0x56]) s) = .next t) ∧
    (∀ a, offersNoStart (offered (.env a) s) ∧ ∃ t, step (offered (.env a) s) = .next t) ∧
    offersNoStart s ∧ ∃ t, step s = .next t := by
  refine ⟨⟨rfl, ?_, _, rfl⟩, fun a => ⟨?_, _, rfl⟩, ?_, _, rfl⟩
  · intro dest bytes hb i rest hd
    simp only [offered, List.mem_cons, List.not_mem_nil, or_false, Input.record.injEq] at hb
    obtain ⟨rfl, rfl⟩ := hb
    rw [test_decode_mCancel] at hd
    cases hd; exact ⟨nofun, nofun⟩
  · intro dest bytes hb
    cases List.mem_singleton.1 hb
  · intro dest bytes hb
    cases hb

end Sys2Proof.Tests
end

/-! The step as a whole (R1, R3, R4): one equation for each way the machine takes a step, the internal step that runs with
nothing offered, and the obligations of 00_scope.md. -/

namespace Sys2Proof.Machine

/-! ### The branches of a step -/

theorem step_illegal {s : State} (h : configLegal s ≠ true) : step s = .refused .illegalConfiguration :=
  if_neg h

theorem step_record {s : State} {dest : Role} {bytes rest : List Byte} {later : List Input} {i : Instr}
    (hc : configLegal s = true) (hin : s.input = .record dest bytes :: later) (hd : decode dest bytes = .ok (i, rest)) :
    step s = exec i { s with input := later } := by
  simp [step, hc, hin, hd]

theorem step_internal {s : State} {i : Instr} (hc : configLegal s = true) (hin : s.input = [])
    (hi : internalStep? s = some i) : step s = exec i s.drawn := by
  simp [step, hc, hin, hi]

theorem step_waits {s : State} (hc : configLegal s = true) (hin : s.input = []) (hi : internalStep? s = none) :
    step s = .next s := by
  simp [step, hc, hin, hi]

/-! ### The legal configurations (R1, R3, R173) -/

theorem configLegal_iff (s : State) :
    configLegal s = true ↔
      s.master.cfg.bufferSize = 256 ∧ s.master.cfg.crcSize = 4 ∧ s.slave.cfg.bufferSize = 256 ∧ s.slave.cfg.crcSize = 4 ∧
        1 ≤ s.master.cfg.maxAttempts ∧ s.master.cfg.maxAttempts < 2 ^ 32 := by
  simp only [configLegal, paramsLegal, Bool.and_eq_true, beq_iff_eq, decide_eq_true_eq, and_assoc]
  rfl

/-! ### The internal step that runs by itself (R4, R130, R154; log 5) -/

/-- A master without a fault stands in a state with an internal step (R4, R207). -/
def masterEnabled (s : State) : Prop :=
  faultFree s .master ∧ (s.master.state = .encoding ∨ s.master.state = .evaluating ∨ s.master.state = .retrying)

/-- A slave without a fault stands in `S_Completed`, its state with an internal step (R4, R207). -/
def slaveEnabled (s : State) : Prop :=
  faultFree s .slave ∧ s.slave.state = .completed

theorem internalStep?_encoding {s : State} (hf : faultFree s .master) (hst : s.master.state = .encoding) :
    internalStep? s = some (.mEncode (Config.freeTime s.free)) := by
  simp [internalStep?, hst, show s.master.fault = [] from hf]

theorem internalStep?_evaluating {s : State} (hf : faultFree s .master) (hst : s.master.state = .evaluating) :
    internalStep? s = some .mEvaluate := by
  simp [internalStep?, hst, show s.master.fault = [] from hf]

theorem internalStep?_retrying {s : State} (hf : faultFree s .master) (hst : s.master.state = .retrying) :
    internalStep? s = some (.mRetry (freeRetryPayload s.free)) := by
  simp [internalStep?, hst, show s.master.fault = [] from hf]

/-- The slave's step runs only where the master has none. -/
theorem internalStep?_completed {s : State} (hm : ¬masterEnabled s) (hs : slaveEnabled s) :
    internalStep? s = some .sReport := by
  obtain ⟨hf, hst⟩ := hs
  unfold internalStep?
  split
  case h_1 hmst hmf => exact absurd ⟨hmf, .inl hmst⟩ hm
  case h_2 hmst hmf => exact absurd ⟨hmf, .inr (.inl hmst)⟩ hm
  case h_3 hmst hmf => exact absurd ⟨hmf, .inr (.inr hmst)⟩ hm
  case h_4 => simp [hst, show s.slave.fault = [] from hf]

theorem internalStep?_eq_none {s : State} (hm : ¬masterEnabled s) (hs : ¬slaveEnabled s) : internalStep? s = none := by
  cases hi : internalStep? s with
  | none => rfl
  | some i =>
    obtain ⟨hf, ⟨hst, -⟩ | ⟨hst, -⟩ | ⟨hst, -⟩⟩ | ⟨hf, hst, -⟩ := internalStep?_cases hi
    · exact absurd ⟨hf, .inl hst⟩ hm
    · exact absurd ⟨hf, .inr (.inl hst)⟩ hm
    · exact absurd ⟨hf, .inr (.inr hst)⟩ hm
    · exact absurd ⟨hf, hst⟩ hs

/-! ### The obligations of 00_scope.md -/

/-- Settles O6: the branch of the step for a record that decodes. -/
theorem stepRunsTheDecodedRecord : Obligations.StepRunsTheDecodedRecord :=
  fun _ _ _ _ _ _ hc hin hd => step_record hc hin hd

/-- Settles O7: the enabled step is found by the state of the master, then by that of the slave. -/
theorem stepWithNothingOffered : Obligations.StepWithNothingOffered := by
  intro s hc hin masterSteps slaveSteps
  refine ⟨fun hf => ⟨fun hst => ?_, fun hst => ?_, fun hst => ?_⟩, fun hm hs => ?_, fun hm hs => ?_⟩
  · exact step_internal hc hin (internalStep?_encoding hf hst)
  · exact step_internal hc hin (internalStep?_evaluating hf hst)
  · exact step_internal hc hin (internalStep?_retrying hf hst)
  · exact step_internal hc hin (internalStep?_completed hm hs)
  · exact step_waits hc hin (internalStep?_eq_none hm hs)

/-- Settles O10: each of the six ways to be illegal contradicts a clause of `configLegal`. -/
theorem illegalConfigurationRefused : Obligations.IllegalConfigurationRefused := by
  intro s hbad
  refine step_illegal fun hlegal => ?_
  obtain ⟨hmBuf, hmCrc, hsBuf, hsCrc, hpos, hlt⟩ := (configLegal_iff s).1 hlegal
  omega

end Sys2Proof.Machine

/-! What one step of the system can do (R4, R22, R23). The ways in which a record changes the state are written once, as one
relation for the records of each side and one for the others; what every step keeps is derived from them. -/

namespace Sys2Proof.Machine

/-! ### The codec: an encoded frame is well-formed (R23 item 5, R60, R90) -/

/-- Byte `256 + k` of an encoded frame is byte `k` of the CRC field. -/
theorem frameByte_frameEncode_crc (p : Payload) (k : Nat) :
    frameByte (frameEncode p) (256 + k) = (le32 (crcCompute p)).getD k 0 := by
  have h : p.data.length ≤ 256 + k := by rw [p.len]; exact Nat.le_add_right _ _
  rw [frameByte, frameEncode_data, List.getD_append_right _ _ _ _ h, p.len, Nat.add_sub_cancel_left]

theorem frameCrc_frameEncode (p : Payload) : frameCrc (frameEncode p) = crcCompute p := by
  unfold frameCrc
  rw [frameByte_frameEncode_crc p 0, frameByte_frameEncode_crc p 1, frameByte_frameEncode_crc p 2,
    frameByte_frameEncode_crc p 3]
  exact unle32_le32 _

theorem framePayload_frameEncode (p : Payload) : framePayload (frameEncode p) = p :=
  Bytes.ext (by rw [framePayload_data, frameEncode_data]; exact List.take_left' p.len)

theorem frameValid_frameEncode (p : Payload) : frameValid (frameEncode p) = true := by
  simp [frameValid, frameCrc_frameEncode, framePayload_frameEncode]

/-! ### The registers that the channel commands and the deliveries leave alone -/

@[simp] theorem abortTransfer_master_state (s : State) (r : Role) (h : Handle) :
    (abortTransfer s r h).master.state = s.master.state := by
  simp only [abortTransfer]; split <;> cases r <;> rfl

@[simp] theorem abortTransfer_slave_state (s : State) (r : Role) (h : Handle) :
    (abortTransfer s r h).slave.state = s.slave.state := by
  simp only [abortTransfer]; split <;> cases r <;> rfl

@[simp] theorem deliverCompletion_master_state (s : State) (r : Role) (h : Handle) (st : RawStatus) :
    (deliverCompletion s r h st).master.state = s.master.state := by
  simp only [deliverCompletion]; split <;> cases r <;> rfl

@[simp] theorem deliverCompletion_slave_state (s : State) (r : Role) (h : Handle) (st : RawStatus) :
    (deliverCompletion s r h st).slave.state = s.slave.state := by
  simp only [deliverCompletion]; split <;> cases r <;> rfl

@[simp] theorem deliverCompletion_master_slave (s : State) (h : Handle) (st : RawStatus) :
    (deliverCompletion s .master h st).slave = s.slave := by
  simp only [deliverCompletion]; split <;> rfl

@[simp] theorem deliverCompletion_slave_master (s : State) (h : Handle) (st : RawStatus) :
    (deliverCompletion s .slave h st).master = s.master := by
  simp only [deliverCompletion]; split <;> rfl

/-! ### The ways a record changes the state -/

/-- The master's FSM waits for the transfer `h` (R143, R144). -/
def masterAwaits (s : State) (h : Handle) : Prop :=
  s.master.state = .transferring ∧ h = s.master.handle

/-- The slave's FSM waits for the transfer `h` (R123). -/
def slaveAwaits (s : State) (h : Handle) : Prop :=
  (s.slave.state = .armed ∨ s.slave.state = .receiving) ∧ h = s.slave.handle

/-- The ways a record of the master, which has no fault recorded, changes the state (44_master_protocol.md; R100, R102,
R104). It says of a guard or a value only what the invariants need. -/
inductive MasterMove (s : State) : Instr → State → Prop where
  | start : s.master.ch.active = false → MasterMove s (.dmaStart .master) (startTransfer s .master)
  | startFault : s.master.ch.active = true → MasterMove s (.dmaStart .master) (s.withFault .master .startWhileActive)
  | abort (h : Handle) : MasterMove s (.dmaAbort .master h) (abortTransfer s .master h)
  /-- An internal step that is not enabled, an event that cannot be delivered, a cancel outside a session. -/
  | stays (i : Instr) : MasterMove s i s
  | busy (p : Payload) : inSession s.master.state = true → MasterMove s (.mSend p) (s.emit (.report (.busy .master)))
  | send (p : Payload) : inSession s.master.state = false → MasterMove s (.mSend p)
      (s.withMaster { s.master with
        payload := p, attempts := 1, attStatus := .noAttempt, outcomeValid := false, state := .encoding })
  | encodeFault (now : Time) : s.master.state = .encoding → s.master.ch.active = true →
      MasterMove s (.mEncode now) (s.withFault .master .bufferOwnership)
  | encode (now : Time) {s1 : State} : s.master.state = .encoding → s.master.ch.active = false →
      s1 = startTransfer (s.withMaster { s.master with txFrame := frameEncode s.master.payload }) .master →
      MasterMove s (.mEncode now) (s1.withMaster { s1.master with
        handle := s1.master.ch.handle
        attStatus := .pending
        attStart := now
        tmPending := insertHandle s1.master.ch.handle s1.master.tmPending
        state := .transferring })
  | completionDiscarded (h : Handle) (st : RawStatus) : h ∈ s.master.ch.pending → ¬masterAwaits s h →
      MasterMove s (.mComplete h st) (deliverCompletion s .master h st)
  | complete (h : Handle) (st : RawStatus) {s1 : State} : h ∈ s.master.ch.pending → masterAwaits s h →
      s1 = deliverCompletion s .master h st →
      MasterMove s (.mComplete h st)
        (s1.withMaster { s1.master with rawStatus := st, attStatus := .complete, state := .evaluating })
  | timeoutDiscarded (h : Handle) : h ∈ s.master.tmPending → ¬masterAwaits s h → MasterMove s (.mTimeout h)
      (s.withMaster { s.master with tmPending := removeHandle h s.master.tmPending })
  | timeout (h : Handle) {s1 : State} : h ∈ s.master.tmPending → masterAwaits s h →
      s1 = abortTransfer (s.withMaster { s.master with tmPending := removeHandle h s.master.tmPending }) .master
        s.master.handle →
      MasterMove s (.mTimeout h) (s1.withMaster { s1.master with attStatus := .timedOut, state := .evaluating })
  | evaluateFault : s.master.state = .evaluating → s.master.ch.active = true →
      MasterMove s .mEvaluate (s.withFault .master .bufferOwnership)
  | succeed (p : Payload) : s.master.state = .evaluating → MasterMove s .mEvaluate
      ((s.withMaster { s.master with
        outcome := .crcValid, outcomeValid := true, rxPayload := p, state := .success }).emit (.report (.success p)))
  | judgeFailed (o : TransferOutcome) : s.master.state = .evaluating → retryable o = true → MasterMove s .mEvaluate
      (s.withMaster { s.master with outcome := o, outcomeValid := true, state := .retrying })
  | retry (q : Option Payload) : s.master.state = .retrying → s.master.attempts < s.master.cfg.maxAttempts →
      MasterMove s (.mRetry q) (s.withMaster { s.master with
        attempts := s.master.attempts + 1, payload := q.getD s.master.payload, state := .encoding })
  | giveUp (q : Option Payload) : s.master.state = .retrying → MasterMove s (.mRetry q)
      ((s.withMaster { s.master with state := .failed }).emit (.report (.failed s.master.outcome s.master.attempts)))
  | cancelBetween : inSession s.master.state = true → s.master.state ≠ .transferring → MasterMove s .mCancel
      ((s.withMaster { s.master with outcome := .cancelled, outcomeValid := true, state := .failed }).emit
        (.report (.failed .cancelled s.master.attempts)))
  | cancelTransfer {s1 : State} : s.master.state = .transferring → s1 = abortTransfer s .master s.master.handle →
      MasterMove s .mCancel
        ((s1.withMaster { s1.master with
          attStatus := .aborted, outcome := .cancelled, outcomeValid := true, state := .failed }).emit
          (.report (.failed .cancelled s.master.attempts)))

/-- The ways a record of the slave, which has no fault recorded, changes the state (43_slave_protocol.md; R100, R102,
R104). As `MasterMove`, it says only what the invariants need. -/
inductive SlaveMove (s : State) : Instr → State → Prop where
  | start : s.slave.ch.active = false → SlaveMove s (.dmaStart .slave) (startTransfer s .slave)
  | startFault : s.slave.ch.active = true → SlaveMove s (.dmaStart .slave) (s.withFault .slave .startWhileActive)
  | abort (h : Handle) : SlaveMove s (.dmaAbort .slave h) (abortTransfer s .slave h)
  /-- An internal step that is not enabled, an event that cannot be delivered, an abort after the completion. -/
  | stays (i : Instr) : SlaveMove s i s
  | busy (p : Payload) : s.slave.state ≠ .idle → SlaveMove s (.sProvide p) (s.emit (.report (.busy .slave)))
  | provideFault (p : Payload) : s.slave.state = .idle → s.slave.ch.active = true →
      SlaveMove s (.sProvide p) (s.withFault .slave .bufferOwnership)
  | provide (p : Payload) {s1 : State} : s.slave.state = .idle → s.slave.ch.active = false →
      s1 = startTransfer (s.withSlave { s.slave with payload := p, txFrame := frameEncode p }) .slave →
      SlaveMove s (.sProvide p) (s1.withSlave { s1.slave with
        handle := s1.slave.ch.handle
        attStatus := .pending
        tmPending := if s1.slave.cfg.armTimeout.isSome then insertHandle s1.slave.ch.handle s1.slave.tmPending
          else s1.slave.tmPending
        state := .armed })
  | beginDiscarded (h : Handle) : beginDeliverable s h = true → SlaveMove s (.sBegin h)
      (s.withChannel .slave (channelBegun s.slave.ch))
  | begin (h : Handle) : beginDeliverable s h = true → s.slave.state = .armed → h = s.slave.handle →
      SlaveMove s (.sBegin h) (s.withSlave { s.slave with ch := channelBegun s.slave.ch, state := .receiving })
  | completionDiscarded (h : Handle) (st : RawStatus) : h ∈ s.slave.ch.pending → ¬slaveAwaits s h →
      SlaveMove s (.sComplete h st) (deliverCompletion s .slave h st)
  | complete (h : Handle) (st : RawStatus) {s1 : State} : h ∈ s.slave.ch.pending → slaveAwaits s h →
      s1 = deliverCompletion s .slave h st →
      SlaveMove s (.sComplete h st)
        (s1.withSlave { s1.slave with rawStatus := st, attStatus := .complete, state := .completed })
  | reportFault : s.slave.state = .completed → s.slave.ch.active = true →
      SlaveMove s .sReport (s.withFault .slave .bufferOwnership)
  | report (st : RawStatus) (p : Payload) : s.slave.state = .completed → SlaveMove s .sReport
      ((s.withSlave { s.slave with
        outcome := completionOutcome st s.slave.rxBuffer, outcomeValid := true, state := .idle }).drawn.emit
        (.report (.frameReceived (completionOutcome st s.slave.rxBuffer) p)))
  | armTimeoutDiscarded (h : Handle) : h ∈ s.slave.tmPending → ¬(s.slave.state = .armed ∧ h = s.slave.handle) →
      SlaveMove s (.sArmTimeout h)
        (s.withSlave { s.slave with tmPending := removeHandle h s.slave.tmPending })
  | armTimeout (h : Handle) {s1 : State} : h ∈ s.slave.tmPending → s.slave.state = .armed → h = s.slave.handle →
      s1 = abortTransfer (s.withSlave { s.slave with tmPending := removeHandle h s.slave.tmPending }) .slave
        s.slave.handle →
      SlaveMove s (.sArmTimeout h)
        ((s1.withSlave { s1.slave with
          attStatus := .timedOut, outcome := .timeout, outcomeValid := true, state := .idle }).drawn.emit
          (.report (.frameReceived .timeout (freePayload s1.free))))
  | abortIdle : s.slave.state = .idle → SlaveMove s .sTransportAbort
      ((s.withSlave { s.slave with outcome := .aborted, outcomeValid := true, state := .idle }).drawn.emit
        (.report (.frameReceived .aborted (freePayload s.free))))
  | abortInFlight {s1 : State} : inFlight s.slave.state = true → s1 = abortTransfer s .slave s.slave.handle →
      SlaveMove s .sTransportAbort
        ((s1.withSlave { s1.slave with
          attStatus := .aborted, outcome := .aborted, outcomeValid := true, state := .idle }).drawn.emit
          (.report (.frameReceived .aborted (freePayload s1.free))))

/-- The ways a record that is no step of the master or the slave changes the state: a reset (R200), or an operation of
R182. -/
inductive OpenMove (s : State) : Instr → State → Prop where
  | resetMaster : OpenMove s (.sysReset .master) (s.withMaster (masterReset s.master s.free)).drawn
  | resetSlave : OpenMove s (.sysReset .slave) (s.withSlave (slaveReset s.slave s.free)).drawn
  | answer (i : Instr) (o : Output) (n : Nat) :
      OpenMove s i ({ s with free := n }.emit o)

/-! ### Each record makes one of these moves -/

/-- The record `i` of a side is its step to a state of which `P` holds, unless that side has faulted. -/
def StepsTo (s : State) (r : Role) (i : Instr) (P : State → Prop) : Prop :=
  ∃ u, exec i s = instanceStep s r u ∧ P u

theorem exec_dmaStart_master (s : State) : StepsTo s .master (.dmaStart .master) (MasterMove s (.dmaStart .master)) := by
  refine ⟨_, rfl, ?_⟩
  split
  · exact .startFault ‹_›
  · exact .start (Bool.eq_false_iff.2 ‹_›)

theorem exec_mSend (s : State) (p : Payload) : StepsTo s .master (.mSend p) (MasterMove s (.mSend p)) := by
  refine ⟨_, rfl, ?_⟩
  split
  · next h => exact .send p (by rcases h with h | h | h <;> rw [h] <;> rfl)
  · next h => exact .busy p (by cases hs : s.master.state <;> simp_all [inSession])

theorem exec_mEncode (s : State) (now : Time) : StepsTo s .master (.mEncode now) (MasterMove s (.mEncode now)) := by
  refine ⟨_, rfl, ?_⟩
  split
  · split
    · exact .encodeFault now ‹_› ‹_›
    · exact .encode now ‹_› (Bool.eq_false_iff.2 ‹_›) rfl
  · exact .stays _

theorem exec_mComplete (s : State) (h : Handle) (st : RawStatus) :
    StepsTo s .master (.mComplete h st) (MasterMove s (.mComplete h st)) := by
  refine ⟨_, rfl, ?_⟩
  split
  · dsimp only
    split
    · exact .complete h st ‹_› ‹_› rfl
    · exact .completionDiscarded h st ‹_› ‹_›
  · exact .stays _

theorem exec_mTimeout (s : State) (h : Handle) : StepsTo s .master (.mTimeout h) (MasterMove s (.mTimeout h)) := by
  refine ⟨_, rfl, ?_⟩
  split
  · dsimp only
    split
    · exact .timeout h ‹_› ‹_› rfl
    · exact .timeoutDiscarded h ‹_› ‹_›
  · exact .stays _

/-- The outcomes of a completion (R187). -/
theorem completionOutcome_cases (st : RawStatus) (f : Frame) :
    completionOutcome st f = .hardwareFault ∨ completionOutcome st f = .crcValid ∨
      completionOutcome st f = .crcMismatch := by
  cases st
  · by_cases hv : frameValid f = true <;> simp [completionOutcome, hv]
  · exact .inl rfl

/-- A completion that was not successful may be retried (R145, R170). -/
theorem retryable_completionOutcome {st : RawStatus} {f : Frame} (h : completionOutcome st f ≠ .crcValid) :
    retryable (completionOutcome st f) = true := by
  rcases completionOutcome_cases st f with e | e | e
  · rw [e]; rfl
  · exact absurd e h
  · rw [e]; rfl

theorem exec_mEvaluate (s : State) : StepsTo s .master .mEvaluate (MasterMove s .mEvaluate) := by
  refine ⟨_, rfl, ?_⟩
  split
  · split
    · next h => exact .evaluateFault ‹_› h.2.2
    · extract_lets o p
      split
      · next ho => rw [ho]; exact .succeed p ‹_›
      · next ho =>
        refine .judgeFailed o ‹_› ?_
        by_cases ht : s.master.attStatus = .timedOut
        · rw [show o = .timeout from if_pos ht]; rfl
        · have e : o = completionOutcome s.master.rawStatus s.master.rxBuffer := if_neg ht
          rw [e] at ho ⊢
          exact retryable_completionOutcome ho
  · exact .stays _

theorem lt_of_policyDecide_retry {o : TransferOutcome} {a m : Nat} (h : policyDecide o a m = .retry) : a < m := by
  unfold policyDecide at h
  split at h
  · next hc => exact hc.2
  · cases h

theorem exec_mRetry (s : State) (q : Option Payload) : StepsTo s .master (.mRetry q) (MasterMove s (.mRetry q)) := by
  refine ⟨_, rfl, ?_⟩
  split
  · split
    · next h => exact .retry q ‹_› (lt_of_policyDecide_retry h)
    · exact .giveUp q ‹_›
  · exact .stays _

theorem exec_mCancel (s : State) : StepsTo s .master .mCancel (MasterMove s .mCancel) := by
  refine ⟨_, rfl, ?_⟩
  split
  · exact .stays _
  · next hout =>
    dsimp only
    split
    · exact .cancelTransfer (s1 := abortTransfer s .master s.master.handle) ‹_› rfl
    · exact .cancelBetween (by cases hs : s.master.state <;> simp_all [inSession]) ‹_›

theorem exec_dmaStart_slave (s : State) : StepsTo s .slave (.dmaStart .slave) (SlaveMove s (.dmaStart .slave)) := by
  refine ⟨_, rfl, ?_⟩
  split
  · exact .startFault ‹_›
  · exact .start (Bool.eq_false_iff.2 ‹_›)

theorem exec_sProvide (s : State) (p : Payload) : StepsTo s .slave (.sProvide p) (SlaveMove s (.sProvide p)) := by
  refine ⟨_, rfl, ?_⟩
  split
  · split
    · exact .provideFault p ‹_› ‹_›
    · exact .provide p ‹_› (Bool.eq_false_iff.2 ‹_›) rfl
  · exact .busy p ‹_›

theorem exec_sBegin (s : State) (h : Handle) : StepsTo s .slave (.sBegin h) (SlaveMove s (.sBegin h)) := by
  refine ⟨_, rfl, ?_⟩
  split
  · dsimp only
    split
    · next ha => exact .begin h ‹_› ha.1 ha.2
    · exact .beginDiscarded h ‹_›
  · exact .stays _

theorem exec_sComplete (s : State) (h : Handle) (st : RawStatus) :
    StepsTo s .slave (.sComplete h st) (SlaveMove s (.sComplete h st)) := by
  refine ⟨_, rfl, ?_⟩
  split
  · dsimp only
    split
    · exact .complete h st ‹_› ‹_› rfl
    · exact .completionDiscarded h st ‹_› ‹_›
  · exact .stays _

theorem exec_sReport (s : State) : StepsTo s .slave .sReport (SlaveMove s .sReport) := by
  refine ⟨_, rfl, ?_⟩
  split
  · split
    · next h => exact .reportFault ‹_› h.2
    · exact .report _ _ ‹_›
  · exact .stays _

theorem exec_sArmTimeout (s : State) (h : Handle) : StepsTo s .slave (.sArmTimeout h) (SlaveMove s (.sArmTimeout h)) := by
  refine ⟨_, rfl, ?_⟩
  split
  · dsimp only
    split
    · next ha => exact .armTimeout h ‹_› ha.1 ha.2 rfl
    · exact .armTimeoutDiscarded h ‹_› ‹_›
  · exact .stays _

theorem exec_sTransportAbort (s : State) : StepsTo s .slave .sTransportAbort (SlaveMove s .sTransportAbort) := by
  refine ⟨_, rfl, ?_⟩
  split
  · exact .stays _
  · next hc =>
    dsimp only
    split
    · next hf =>
      have hin : inFlight s.slave.state = true := by rcases hf with h | h <;> rw [h] <;> rfl
      exact .abortInFlight (s1 := abortTransfer s .slave s.slave.handle) hin rfl
    · exact .abortIdle (by cases hs : s.slave.state <;> simp_all)

/-- A record of the master makes one of the master's moves. -/
theorem exec_of_master {i : Instr} (ho : instrOwner i = some .master) (s : State) :
    StepsTo s .master i (MasterMove s i) := by
  cases i with
  | dmaStart r => cases r with
    | master => exact exec_dmaStart_master s
    | slave => cases ho
  | dmaAbort r h => cases r with
    | master => exact ⟨_, rfl, .abort h⟩
    | slave => cases ho
  | mSend p => exact exec_mSend s p
  | mEncode now => exact exec_mEncode s now
  | mComplete h st => exact exec_mComplete s h st
  | mTimeout h => exact exec_mTimeout s h
  | mEvaluate => exact exec_mEvaluate s
  | mRetry q => exact exec_mRetry s q
  | mCancel => exact exec_mCancel s
  | _ => cases ho

/-- A record of the slave makes one of the slave's moves. -/
theorem exec_of_slave {i : Instr} (ho : instrOwner i = some .slave) (s : State) :
    StepsTo s .slave i (SlaveMove s i) := by
  cases i with
  | dmaStart r => cases r with
    | master => cases ho
    | slave => exact exec_dmaStart_slave s
  | dmaAbort r h => cases r with
    | master => cases ho
    | slave => exact ⟨_, rfl, .abort h⟩
  | sProvide p => exact exec_sProvide s p
  | sBegin h => exact exec_sBegin s h
  | sComplete h st => exact exec_sComplete s h st
  | sReport => exact exec_sReport s
  | sArmTimeout h => exact exec_sArmTimeout s h
  | sTransportAbort => exact exec_sTransportAbort s
  | _ => cases ho

/-- A record of neither side always answers a next state. -/
theorem exec_of_none {i : Instr} (ho : instrOwner i = none) (s : State) : ∃ u, exec i s = .next u ∧ OpenMove s i u := by
  cases i with
  | sysReset r => cases r with
    | master => exact ⟨_, rfl, .resetMaster⟩
    | slave => exact ⟨_, rfl, .resetSlave⟩
  | crcCompute p => exact ⟨_, rfl, .answer _ _ s.free⟩
  | fcEncode p => exact ⟨_, rfl, .answer _ _ s.free⟩
  | fcDecode b n => exact ⟨_, rfl, .answer _ _ (s.free + 1)⟩
  | rpDecide o a m => exact ⟨_, rfl, .answer _ _ s.free⟩
  | _ => cases ho

/-- What a record that answers a next state has done. -/
theorem exec_next_cases {i : Instr} {s t : State} (h : exec i s = .next t) :
    (faultFree s .master ∧ MasterMove s i t) ∨ (faultFree s .slave ∧ SlaveMove s i t) ∨ OpenMove s i t := by
  cases ho : instrOwner i with
  | none =>
    obtain ⟨u, hu, hm⟩ := exec_of_none ho s
    cases hu.symm.trans h
    exact .inr (.inr hm)
  | some r => cases r with
    | master =>
      obtain ⟨u, hu, hm⟩ := exec_of_master ho s
      obtain ⟨hf, rfl⟩ := instanceStep_next_iff.1 (hu.symm.trans h)
      exact .inl ⟨hf, hm⟩
    | slave =>
      obtain ⟨u, hu, hm⟩ := exec_of_slave ho s
      obtain ⟨hf, rfl⟩ := instanceStep_next_iff.1 (hu.symm.trans h)
      exact .inr (.inl ⟨hf, hm⟩)

/-- A record of the master or the slave is its step, which a fault mark stops. -/
theorem exec_eq_instanceStep {i : Instr} {r : Role} (ho : instrOwner i = some r) (s : State) :
    ∃ u, exec i s = instanceStep s r u := by
  cases r with
  | master => exact (exec_of_master ho s).imp fun _ => And.left
  | slave => exact (exec_of_slave ho s).imp fun _ => And.left

/-- A record stops with a fault only where one is recorded against its side. -/
theorem exec_fault_cases {i : Instr} {s : State} {f : Fault} (h : exec i s = .fault f) : ∃ r, ¬faultFree s r := by
  cases ho : instrOwner i with
  | none =>
    obtain ⟨u, hu, -⟩ := exec_of_none ho s
    cases hu.symm.trans h
  | some r =>
    obtain ⟨u, hu⟩ := exec_eq_instanceStep ho s
    exact ⟨r, fun hf => by cases (hu.symm.trans h).symm.trans (instanceStep_clean hf)⟩

end Sys2Proof.Machine

/-! What every step keeps, whoever drives the channels: the parameters, the fault marks and the outputs (R18, R22), the set of
transfers that exchanged bytes and the ownership of an exchange in progress (R46, R114). -/

namespace Sys2Proof.Machine

/-! ### The exchange in progress and the master's channel -/

/-- While the transfer of an exchange can still complete, the master's adapter runs it. -/
def exchangeOwned (s : State) : Prop :=
  ∀ x, s.xPair = some x → x.hm ∈ s.master.ch.pending → ownsTransfer s .master x.hm = true

/-- This is what `SystemInv` says of the exchange. -/
theorem exchangeOwned_iff (s : State) :
    exchangeOwned s ↔ (masterClocking s = true → ∀ x, s.xPair = some x → ownsTransfer s .master x.hm = true) := by
  rw [masterClocking_iff]
  constructor
  · rintro h ⟨y, hy, hp⟩ x hx
    cases hy.symm.trans hx
    exact h _ hy hp
  · exact fun h x hx hp => h ⟨x, hx, hp⟩ x hx

/-- Ownership of the exchange depends on the exchange's handle and the master's channel only. -/
theorem exchangeOwned.congr {s t : State} (h : exchangeOwned s) (hc : t.master.ch = s.master.ch)
    (hx : ∀ y, t.xPair = some y → ∃ x, s.xPair = some x ∧ x.hm = y.hm) : exchangeOwned t := by
  intro y hy hp
  obtain ⟨x, hs, e⟩ := hx y hy
  rw [ownsTransfer_iff, State.channel_master, hc, ← e, ← State.channel_master, ← ownsTransfer_iff]
  exact h x hs (by rwa [e, ← hc])

theorem exchangeOwned_of_none {s : State} (h : s.xPair = none) : exchangeOwned s :=
  fun x hx => by cases h.symm.trans hx

/-- A delivered completion ends the transfer it is for, and no other. -/
theorem exchangeOwned.delivered {s t : State} {h : Handle} (ho : exchangeOwned s) (hx : t.xPair = s.xPair)
    (hc : t.master.ch = channelDelivered s.master.ch h) : exchangeOwned t := by
  intro x hs hp
  rw [hc, channelDelivered_pending, mem_removeHandle] at hp
  obtain ⟨hp, hne⟩ := hp
  rw [ownsTransfer_iff, State.channel_master, hc]
  rcases (ownsTransfer_iff s .master x.hm).1 (ho x (hx ▸ hs) hp) with ⟨ha, hh⟩ | hor
  · rw [State.channel_master] at ha hh
    exact .inl ⟨by simp [channelDelivered, ha, hh, hne], hh⟩
  · exact .inr ((mem_removeHandle _ _ _).2 ⟨hor, hne⟩)

/-- A reset cuts the active transfer off, and its adapter may still run it (R204). -/
theorem exchangeOwned.reset {s t : State} (ho : exchangeOwned s) (hx : t.xPair = s.xPair)
    (hc : t.master.ch = channelReset s.master.ch) : exchangeOwned t := by
  intro x hs hp
  rw [hc, channelReset_pending] at hp
  rw [ownsTransfer_iff, State.channel_master, hc]
  right
  rcases (ownsTransfer_iff s .master x.hm).1 (ho x (hx ▸ hs) hp) with ⟨ha, hh⟩ | hor
  · rw [State.channel_master] at ha hh
    simp [channelReset, ha, mem_insertHandle, hh]
  · rw [State.channel_master] at hor
    unfold channelReset
    split
    · exact (mem_insertHandle _ _ _).2 (.inr hor)
    · exact hor

/-! ### The relation that every step is in -/

/-- A record that the bus delivers by itself (R114). -/
inductive BusRecord : Instr → Prop where
  | begin (h : Handle) : BusRecord (.sBegin h)
  | slaveDone (h : Handle) : BusRecord (.sComplete h .ok)
  | masterDone (h : Handle) : BusRecord (.mComplete h .ok)

/-- `t` comes after `s`: what no step of the machine takes back or breaks. -/
structure Evolves (s t : State) : Prop where
  master_cfg : t.master.cfg = s.master.cfg
  slave_cfg : t.slave.cfg = s.slave.cfg
  master_fault : s.master.fault <+: t.master.fault
  slave_fault : s.slave.fault <+: t.slave.fault
  outputs : s.outputs <+: t.outputs
  input : ∀ x ∈ t.input, x ∈ s.input ∨ ∃ r i, BusRecord i ∧ x = .record r (encode i)
  met_rising : risingHandles s.xMet → risingHandles t.xMet
  exchange_owned : exchangeOwned s → exchangeOwned t

namespace Evolves

theorem refl (s : State) : Evolves s s :=
  ⟨rfl, rfl, List.prefix_rfl, List.prefix_rfl, List.prefix_rfl, fun _ => .inl, id, id⟩

theorem trans {s t u : State} (h : Evolves s t) (k : Evolves t u) : Evolves s u where
  master_cfg := k.master_cfg.trans h.master_cfg
  slave_cfg := k.slave_cfg.trans h.slave_cfg
  master_fault := h.master_fault.trans k.master_fault
  slave_fault := h.slave_fault.trans k.slave_fault
  outputs := h.outputs.trans k.outputs
  input x hx := (k.input x hx).elim (h.input x) .inr
  met_rising := k.met_rising ∘ h.met_rising
  exchange_owned := k.exchange_owned ∘ h.exchange_owned

/-- What the environment offers is taken, and free values are drawn. -/
theorem took (s : State) {later : List Input} (h : ∀ x ∈ later, x ∈ s.input) (n : Nat) :
    Evolves s { s with input := later, free := n } :=
  { refl s with input := fun x hx => .inl (h x hx) }

/-! One rule per operation: what comes after `s` still does when the operation is done on it. -/

variable {s t : State}

theorem emit {o : Output} (h : Evolves s t) : Evolves s (t.emit o) :=
  { h with outputs := h.outputs.trans (List.prefix_append _ _) }

theorem drawn (h : Evolves s t) : Evolves s t.drawn :=
  { h with }

/-- Registers of the master are written. -/
theorem writeMaster {m : MasterInst} (h : Evolves s t) (hcfg : m.cfg = t.master.cfg) (hf : m.fault = t.master.fault)
    (hc : m.ch = t.master.ch) : Evolves s (t.withMaster m) :=
  { h with
    master_cfg := hcfg.trans h.master_cfg
    master_fault := hf ▸ h.master_fault
    exchange_owned := fun ho => (h.exchange_owned ho).congr hc fun y hy => ⟨y, hy, rfl⟩ }

/-- Registers or the channel of the slave are written. -/
theorem writeSlave {v : SlaveInst} (h : Evolves s t) (hcfg : v.cfg = t.slave.cfg) (hf : v.fault = t.slave.fault) :
    Evolves s (t.withSlave v) :=
  { h with slave_cfg := hcfg.trans h.slave_cfg, slave_fault := hf ▸ h.slave_fault }

theorem withFault {r : Role} {x : FaultReason} (h : Evolves s t) : Evolves s (t.withFault r x) := by
  cases r with
  | master => exact { h with master_fault := h.master_fault.trans (List.prefix_append _ _) }
  | slave => exact { h with slave_fault := h.slave_fault.trans (List.prefix_append _ _) }

theorem startMaster (h : Evolves s t) : Evolves s (startTransfer t .master) := by
  rw [startTransfer_master]
  refine { h with
    outputs := h.outputs.trans (List.prefix_append _ _), input := fun x hx => ?_
    met_rising := fun hm => metBegun_rising (h.met_rising hm), exchange_owned := fun _ x hx _ => ?_ }
  · rcases List.mem_append.1 hx with hb | ht
    · obtain ⟨hs, -, -, e⟩ := mem_beginOffered hb
      exact .inr ⟨_, _, .begin hs, e⟩
    · exact h.input x ht
  · cases hx
    exact (ownsTransfer_iff _ _ _).2 (.inl ⟨rfl, rfl⟩)

theorem startSlave (h : Evolves s t) : Evolves s (startTransfer t .slave) := by
  rw [startTransfer_slave]
  exact { h with
    outputs := h.outputs.trans (List.prefix_append _ _)
    met_rising := fun hm => removeHandle_rising _ _ (h.met_rising hm) }

theorem abortMaster {hd : Handle} (h : Evolves s t) : Evolves s (abortTransfer t .master hd) := by
  by_cases ha : t.master.ch.active = true ∧ t.master.ch.handle = hd
  · rw [abortTransfer_master_active ha.1 ha.2]
    exact { h with
      outputs := h.outputs.trans (List.prefix_append _ _)
      met_rising := fun hm => metIfCut_rising (h.met_rising hm)
      exchange_owned := fun _ => exchangeOwned_of_none rfl }
  · rw [abortTransfer_inactive (r := .master) ha]
    exact h.emit

theorem abortSlave {hd : Handle} (h : Evolves s t) : Evolves s (abortTransfer t .slave hd) := by
  obtain ⟨c, rx, n, e, -⟩ := abortTransfer_slave_form t hd
  rw [e]
  exact { h with outputs := h.outputs.trans (List.prefix_append _ _) }

theorem deliverMaster {hd : Handle} {st : RawStatus} (h : Evolves s t) :
    Evolves s (deliverCompletion t .master hd st) := by
  obtain ⟨rx, n, e, -⟩ := deliverCompletion_master_form t hd st
  rw [e]
  exact { h with exchange_owned := fun ho => (h.exchange_owned ho).delivered rfl rfl }

theorem deliverSlave {hd : Handle} {st : RawStatus} (h : Evolves s t) :
    Evolves s (deliverCompletion t .slave hd st) := by
  obtain ⟨rx, n, e, -⟩ := deliverCompletion_slave_form t hd st
  rw [e]
  exact { h with }

theorem resetMaster {n : Nat} (h : Evolves s t) : Evolves s (t.withMaster (masterReset t.master n)) :=
  { h with exchange_owned := fun ho => (h.exchange_owned ho).reset rfl rfl }

end Evolves

/-! ### Every record and every action of the transport is in it -/

theorem MasterMove.evolves {s t : State} {i : Instr} (h : MasterMove s i t) : Evolves s t := by
  have start := Evolves.refl s
  cases h with
  | start _ => exact .startMaster start
  | startFault _ => exact .withFault start
  | abort _ => exact .abortMaster start
  | stays => exact start
  | busy _ _ => exact .emit start
  | send _ _ => exact .writeMaster start rfl rfl rfl
  | encodeFault _ _ _ => exact .withFault start
  | encode _ _ _ e =>
    subst e; exact .writeMaster (.startMaster (.writeMaster start rfl rfl rfl)) rfl rfl rfl
  | completionDiscarded _ _ _ _ => exact .deliverMaster start
  | complete _ _ _ _ e => subst e; exact .writeMaster (.deliverMaster start) rfl rfl rfl
  | timeoutDiscarded _ _ _ => exact .writeMaster start rfl rfl rfl
  | timeout _ _ _ e =>
    subst e; exact .writeMaster (.abortMaster (.writeMaster start rfl rfl rfl)) rfl rfl rfl
  | evaluateFault _ _ => exact .withFault start
  | succeed _ _ => exact .emit (.writeMaster start rfl rfl rfl)
  | judgeFailed _ _ _ => exact .writeMaster start rfl rfl rfl
  | retry _ _ _ => exact .writeMaster start rfl rfl rfl
  | giveUp _ _ => exact .emit (.writeMaster start rfl rfl rfl)
  | cancelBetween _ _ => exact .emit (.writeMaster start rfl rfl rfl)
  | cancelTransfer _ e => subst e; exact .emit (.writeMaster (.abortMaster start) rfl rfl rfl)

theorem SlaveMove.evolves {s t : State} {i : Instr} (h : SlaveMove s i t) : Evolves s t := by
  have start := Evolves.refl s
  cases h with
  | start _ => exact .startSlave start
  | startFault _ => exact .withFault start
  | abort _ => exact .abortSlave start
  | stays => exact start
  | busy _ _ => exact .emit start
  | provideFault _ _ _ => exact .withFault start
  | provide _ _ _ e => subst e; exact .writeSlave (.startSlave (.writeSlave start rfl rfl)) rfl rfl
  | beginDiscarded _ _ => exact .writeSlave start rfl rfl
  | begin _ _ _ _ => exact .writeSlave start rfl rfl
  | completionDiscarded _ _ _ _ => exact .deliverSlave start
  | complete _ _ _ _ e => subst e; exact .writeSlave (.deliverSlave start) rfl rfl
  | reportFault _ _ => exact .withFault start
  | report _ _ _ => exact .emit (.drawn (.writeSlave start rfl rfl))
  | armTimeoutDiscarded _ _ _ => exact .writeSlave start rfl rfl
  | armTimeout _ _ _ _ e =>
    subst e; exact .emit (.drawn (.writeSlave (.abortSlave (.writeSlave start rfl rfl)) rfl rfl))
  | abortIdle _ => exact .emit (.drawn (.writeSlave start rfl rfl))
  | abortInFlight _ e => subst e; exact .emit (.drawn (.writeSlave (.abortSlave start) rfl rfl))

theorem OpenMove.evolves {s t : State} {i : Instr} (h : OpenMove s i t) : Evolves s t := by
  cases h with
  | resetMaster => exact .drawn (.resetMaster (.refl s))
  | resetSlave => exact .drawn (.writeSlave (.refl s) rfl rfl)
  | answer _ o n => exact .emit (.took s (fun _ => id) n)

theorem exec_evolves {i : Instr} {s t : State} (h : exec i s = .next t) : Evolves s t := by
  rcases exec_next_cases h with ⟨-, hm⟩ | ⟨-, hm⟩ | hm
  · exact hm.evolves
  · exact hm.evolves
  · exact hm.evolves

/-- An action of the transport begins no exchange: it may end the one in progress, or note which late slave transfer it
reached. -/
theorem envAct_xPair {a : EnvAct} {s : State} {y : Exchange} (h : (envAct a s).xPair = some y) :
    ∃ x, s.xPair = some x ∧ x.hm = y.hm := by
  have same : s.xPair = some y → ∃ x, s.xPair = some x ∧ x.hm = y.hm := fun e => ⟨y, e, rfl⟩
  cases a with
  | rxWrite r hd f =>
    unfold envAct at h
    dsimp only at h
    split at h
    · exact same h
    · rcases receive_form s r hd f with e | ⟨-, ⟨e, -⟩ | ⟨-, -, e⟩⟩
      · exact same (e ▸ h)
      · rw [e, State.withRx_xPair] at h
        exact same h
      · rw [e, State.withRx_xPair] at h
        obtain ⟨x, hx, rfl⟩ := Option.map_eq_some_iff.1 h
        exact ⟨x, hx, rfl⟩
  | clock r =>
    unfold envAct at h
    dsimp only at h
    split at h
    · next x hx =>
      split at h
      · exact same h
      · rcases clockExchange_form s x r with e | ⟨f, e⟩
        · exact same (e ▸ h)
        · rw [e, State.withRx_xPair] at h
          exact same h
    · exact same h
  | endExchange =>
    unfold envAct at h
    dsimp only at h
    split at h
    · exact same h
    · cases h
  | finish first =>
    unfold envAct at h
    dsimp only at h
    split at h
    · next x hx =>
      split at h
      · obtain ⟨_, _, e⟩ := finishExchange_form s x first
        rw [e] at h
        cases h
      · exact same h
    · exact same h
  | bus b => exact same h
  | nextHandle r hd => exact same (by rwa [envAct, State.withChannel_xPair] at h)
  | abortKeeps r k => exact same (by rwa [envAct, State.withChannel_xPair] at h)

theorem envAct_evolves (a : EnvAct) (s : State) : Evolves s (envAct a s) := by
  have hx := @envAct_xPair a s
  obtain ⟨fm, nm, km, fs, ns, ks, pair, met, b, l, e, hmet, hl⟩ := envAct_form a s
  rw [e] at hx ⊢
  refine { Evolves.refl s with
    input := fun i hi => ?_, met_rising := hmet, exchange_owned := fun ho y hy hp => ?_ }
  · rcases List.mem_append.1 hi with hi | hi
    · rcases hl i hi with ⟨h, e⟩ | ⟨h, e⟩
      · exact .inr ⟨_, _, .masterDone h, e⟩
      · exact .inr ⟨_, _, .slaveDone h, e⟩
    · exact .inl hi
  · obtain ⟨x, hs, e⟩ := hx hy
    rw [← e] at hp ⊢
    exact ho x hs hp

/-! ### The step -/

/-- The record that the next step runs: the one offered next, or the internal step with nothing offered; `later` is what is
offered after it. -/
def runsNext (s : State) (i : Instr) (later : List Input) : Prop :=
  (∃ dest bytes rest, s.input = .record dest bytes :: later ∧ decode dest bytes = .ok (i, rest)) ∨
    (s.input = [] ∧ later = [] ∧ internalStep? s = some i)

theorem runsNext.later_subset {s : State} {i : Instr} {later : List Input} (h : runsNext s i later) :
    ∀ x ∈ later, x ∈ s.input := by
  rcases h with ⟨_, _, _, hin, -⟩ | ⟨-, rfl, -⟩
  · exact fun x hx => hin ▸ List.mem_cons_of_mem _ hx
  · exact fun x hx => by cases hx

/-- A step refuses, or under a legal configuration runs a record, takes an action of the transport, or waits. -/
theorem step_cases {s : State} {o : Result} (h : step s = o) :
    (∃ x, o = .refused x) ∨ configLegal s = true ∧
      ((∃ i later n, runsNext s i later ∧ exec i { s with input := later, free := n } = o) ∨
        (∃ a later, s.input = .env a :: later ∧ o = .next (envAct a { s with input := later })) ∨ o = .next s) := by
  subst h
  by_cases hc : configLegal s = true
  · match hin : s.input with
    | .record dest bytes :: later =>
      cases hd : decode dest bytes with
      | ok x => exact .inr ⟨hc, .inl ⟨x.1, later, s.free, .inl ⟨dest, bytes, x.2, hin, hd⟩, (step_record hc hin hd).symm⟩⟩
      | error e => exact .inl ⟨refuseRecord e, by simp [step, hc, hin, hd]⟩
    | .env a :: later => exact .inr ⟨hc, .inr (.inl ⟨a, later, rfl, by simp [step, hc, hin]⟩)⟩
    | [] =>
      cases hi : internalStep? s with
      | some i =>
        refine .inr ⟨hc, .inl ⟨i, [], s.free + 1, .inr ⟨hin, rfl, hi⟩, ?_⟩⟩
        rw [step_internal hc hin hi, ← hin]; rfl
      | none => exact .inr ⟨hc, .inr (.inr (step_waits hc hin hi))⟩
  · exact .inl ⟨_, step_illegal hc⟩

/-- What a step that answers a next state has done. -/
theorem step_next_cases {s t : State} (h : step s = .next t) :
    configLegal s = true ∧
      ((∃ i later n, runsNext s i later ∧ exec i { s with input := later, free := n } = .next t) ∨
        (∃ a later, s.input = .env a :: later ∧ t = envAct a { s with input := later }) ∨ t = s) := by
  rcases step_cases h with ⟨_, e⟩ | ⟨hc, he | ⟨a, later, hin, e⟩ | e⟩
  · cases e
  · exact ⟨hc, .inl he⟩
  · cases e; exact ⟨hc, .inr (.inl ⟨a, later, hin, rfl⟩)⟩
  · cases e; exact ⟨hc, .inr (.inr rfl)⟩

theorem step_evolves {s t : State} (h : step s = .next t) : Evolves s t := by
  obtain ⟨-, ⟨i, later, n, hr, he⟩ | ⟨a, later, hin, rfl⟩ | rfl⟩ := step_next_cases h
  · exact (Evolves.took s hr.later_subset n).trans (exec_evolves he)
  · exact (Evolves.took s (fun _ hx => hin ▸ List.mem_cons_of_mem _ hx) s.free).trans (envAct_evolves a _)
  · exact .refl _

end Sys2Proof.Machine

/-! The invariants of R23 and of the FSM files: `MasterInv` and `SlaveInv` are kept by every move, and so `SystemInv` by every
step; where only the FSMs drive the channels, so is `OwnershipInv`. -/

namespace Sys2Proof.Machine

/-! ### A record of one side leaves the other as it is (R53) -/

@[simp] theorem startTransfer_master_slave (s : State) : (startTransfer s .master).slave = s.slave := rfl

@[simp] theorem startTransfer_slave_master (s : State) : (startTransfer s .slave).master = s.master := rfl

theorem MasterMove.slave_eq {s t : State} {i : Instr} (h : MasterMove s i t) : t.slave = s.slave := by
  cases h with
  | encode _ _ _ e | complete _ _ _ _ e | timeout _ _ _ e | cancelTransfer _ e => subst e; simp
  | _ => simp

theorem SlaveMove.master_eq {s t : State} {i : Instr} (h : SlaveMove s i t) : t.master = s.master := by
  cases h with
  | provide _ _ _ e | complete _ _ _ _ e | armTimeout _ _ _ _ e | abortInFlight _ e => subst e; simp
  | _ => simp

/-! ### The invariant of the master -/

/-- Outside `M_Idle` an attempt is counted (R23 item 4). -/
theorem MasterInv.attempts_ne_zero {m : MasterInst} (h : MasterInv m) (hs : m.state ≠ .idle) : m.attempts ≠ 0 :=
  fun e => hs (h.idle_iff.2 e)

/-- The tx frame is well-formed in the states that a session reaches only through `M.ENCODE`. -/
theorem MasterInv.tx_valid {m : MasterInst} (h : MasterInv m) (hs : txEncoded m.state = true) :
    frameValid m.txFrame = true :=
  h.tx_wellFormed (.inl hs)

theorem MasterInv.withChannel {m : MasterInst} {c : Channel} (h : MasterInv m) (hc : ChannelInv c) (rx : Frame) :
    MasterInv { m with ch := c, rxBuffer := rx } :=
  { h with channel := hc }

theorem MasterInv.startTransfer {s : State} (h : MasterInv s.master) : MasterInv (startTransfer s .master).master := by
  rw [startTransfer_master]
  exact h.withChannel (channelStarted_inv h.channel _) _

theorem MasterInv.abortTransfer {s : State} (h : MasterInv s.master) (hd : Handle) :
    MasterInv (abortTransfer s .master hd).master := by
  obtain ⟨c, rx, _, _, _, e, -, -, -, hc⟩ := abortTransfer_master_form s hd
  rw [e]
  exact h.withChannel (hc h.channel) rx

theorem MasterInv.deliverCompletion {s : State} (h : MasterInv s.master) (hd : Handle) (st : RawStatus) :
    MasterInv (deliverCompletion s .master hd st).master := by
  obtain ⟨rx, _, e, -⟩ := deliverCompletion_master_form s hd st
  rw [e]
  exact h.withChannel (channelDelivered_inv h.channel hd) rx

theorem MasterInv.timerRemoved {m : MasterInst} (h : MasterInv m) (hd : Handle) :
    MasterInv { m with tmPending := removeHandle hd m.tmPending } :=
  { h with timer_rising := removeHandle_rising _ _ h.timer_rising }

theorem MasterInv.faulted {m : MasterInst} (h : MasterInv m) (l : List FaultReason) : MasterInv { m with fault := l } :=
  { h with }

/-- `M.SEND` (R141). -/
theorem MasterInv.send {m : MasterInst} (h : MasterInv m) (hmax : 1 ≤ m.cfg.maxAttempts) (p : Payload) :
    MasterInv { m with
      payload := p, attempts := 1, attStatus := .noAttempt, outcomeValid := false, state := .encoding } :=
  { h with
    attempts_le := hmax
    idle_iff := ⟨nofun, nofun⟩
    transferring := nofun
    evaluating := nofun
    retrying := nofun
    success := nofun
    failed := nofun
    outcomes := nofun
    tx_wellFormed := fun hs => by rcases hs with hs | hs; cases hs; exact absurd rfl hs }

/-- A frame encoded (R90, R142). -/
theorem MasterInv.txWritten {m : MasterInst} (h : MasterInv m) :
    MasterInv { m with txFrame := frameEncode m.payload } :=
  { h with tx_wellFormed := fun _ => frameValid_frameEncode _ }

/-- The transfer of an attempt is in flight (R142). -/
theorem MasterInv.transferStarted {m : MasterInst} (h : MasterInv m) (hs : m.state = .encoding)
    (htx : frameValid m.txFrame = true) (hd : Handle) (now : Time) :
    MasterInv { m with
      handle := hd, attStatus := .pending, attStart := now, tmPending := insertHandle hd m.tmPending
      state := .transferring } :=
  { h with
    timer_rising := insertHandle_rising _ _ h.timer_rising
    idle_iff := ⟨nofun, fun e => absurd e (h.attempts_ne_zero (by simp [hs]))⟩
    transferring := fun _ => rfl
    evaluating := nofun
    retrying := nofun
    success := nofun
    failed := nofun
    tx_wellFormed := fun _ => htx }

/-- The transfer of an attempt has ended, with a completion or a timeout (R143, R144). -/
theorem MasterInv.transferEnded {m : MasterInst} (h : MasterInv m) (hs : m.state = .transferring) {a : AttemptStatus}
    (ha : a = .complete ∨ a = .timedOut) (st : RawStatus) :
    MasterInv { m with rawStatus := st, attStatus := a, state := .evaluating } :=
  { h with
    idle_iff := ⟨nofun, fun e => absurd e (h.attempts_ne_zero (by simp [hs]))⟩
    transferring := nofun
    evaluating := fun _ => ha
    retrying := nofun
    success := nofun
    failed := nofun
    tx_wellFormed := fun _ => h.tx_valid (by rw [hs]; rfl) }

/-- The attempt succeeded (R145, R150). -/
theorem MasterInv.succeed {m : MasterInst} (h : MasterInv m) (hs : m.state = .evaluating) (p : Payload) :
    MasterInv { m with outcome := .crcValid, outcomeValid := true, rxPayload := p, state := .success } :=
  { h with
    idle_iff := ⟨nofun, fun e => absurd e (h.attempts_ne_zero (by simp [hs]))⟩
    transferring := nofun
    evaluating := nofun
    retrying := nofun
    success := fun _ => ⟨rfl, rfl⟩
    failed := nofun
    outcomes := fun _ => ⟨nofun, nofun⟩
    tx_wellFormed := fun _ => h.tx_valid (by rw [hs]; rfl) }

/-- The attempt failed with an outcome that the policy may retry (R145). -/
theorem MasterInv.judgeFailed {m : MasterInst} (h : MasterInv m) (hs : m.state = .evaluating) {o : TransferOutcome}
    (ho : retryable o = true) : MasterInv { m with outcome := o, outcomeValid := true, state := .retrying } :=
  { h with
    idle_iff := ⟨nofun, fun e => absurd e (h.attempts_ne_zero (by simp [hs]))⟩
    transferring := nofun
    evaluating := nofun
    retrying := fun _ => ⟨rfl, ho⟩
    success := nofun
    failed := nofun
    outcomes := fun _ => ⟨(by rintro rfl; cases ho), (by rintro rfl; cases ho)⟩
    tx_wellFormed := fun _ => h.tx_valid (by rw [hs]; rfl) }

/-- A new attempt begins, below the limit (R146, R147). -/
theorem MasterInv.retry {m : MasterInst} (h : MasterInv m) (hs : m.state = .retrying)
    (hlt : m.attempts < m.cfg.maxAttempts) (p : Payload) :
    MasterInv { m with attempts := m.attempts + 1, payload := p, state := .encoding } :=
  { h with
    attempts_le := hlt
    idle_iff := ⟨nofun, nofun⟩
    transferring := nofun
    evaluating := nofun
    retrying := nofun
    success := nofun
    failed := nofun
    tx_wellFormed := fun _ => h.tx_valid (by rw [hs]; rfl) }

/-- The session ends with the outcome of its last attempt (R146, R151). -/
theorem MasterInv.giveUp {m : MasterInst} (h : MasterInv m) (hs : m.state = .retrying) :
    MasterInv { m with state := .failed } :=
  { h with
    idle_iff := ⟨nofun, fun e => absurd e (h.attempts_ne_zero (by simp [hs]))⟩
    transferring := nofun
    evaluating := nofun
    retrying := nofun
    success := nofun
    failed := fun _ => ⟨(h.retrying hs).1, .inl (h.retrying hs).2⟩
    tx_wellFormed := fun _ => h.tx_valid (by rw [hs]; rfl) }

/-- The session is cancelled (R148); an attempt whose transfer was in flight is recorded as aborted. -/
theorem MasterInv.cancel {m : MasterInst} (h : MasterInv m) (hs : inSession m.state = true) {a : AttemptStatus}
    (ha : a = m.attStatus ∨ m.state = .transferring) :
    MasterInv { m with attStatus := a, outcome := .cancelled, outcomeValid := true, state := .failed } :=
  { h with
    idle_iff := ⟨nofun, fun e => absurd e (h.attempts_ne_zero fun e => by rw [e] at hs; cases hs)⟩
    transferring := nofun
    evaluating := nofun
    retrying := nofun
    success := nofun
    failed := fun _ => ⟨rfl, .inr rfl⟩
    outcomes := fun _ => ⟨nofun, nofun⟩
    tx_wellFormed := fun hn => by
      rcases hn with hn | hn
      · cases hn
      · rcases ha with rfl | ha
        · exact h.tx_wellFormed (.inr hn)
        · exact h.tx_valid (by rw [ha]; rfl) }

/-- `SYS.RESET` of the master (R201). -/
theorem MasterInv.reset {m : MasterInst} (h : MasterInv m) (n : Nat) : MasterInv (masterReset m n) where
  channel := channelReset_inv h.channel
  timer_rising := h.timer_rising
  attempts_le := Nat.zero_le _
  idle_iff := ⟨fun _ => rfl, fun _ => rfl⟩
  transferring := nofun
  evaluating := nofun
  retrying := nofun
  success := nofun
  failed := nofun
  outcomes := nofun
  tx_wellFormed := fun hs => by rcases hs with hs | hs; cases hs; exact absurd rfl hs

theorem MasterMove.inv {s t : State} {i : Instr} (hm : MasterMove s i t) (hmax : 1 ≤ s.master.cfg.maxAttempts)
    (h : MasterInv s.master) : MasterInv t.master := by
  cases hm with
  | start _ => exact h.startTransfer
  | startFault _ | encodeFault _ _ _ | evaluateFault _ _ => exact h.faulted _
  | abort hd => exact h.abortTransfer hd
  | stays | busy _ _ => exact h
  | send p _ => exact h.send hmax p
  | @encode now s1 hs _ e =>
    have h1 : MasterInv s1.master := by rw [e]; exact .startTransfer h.txWritten
    have htx : frameValid s1.master.txFrame = true := by rw [e]; exact frameValid_frameEncode _
    exact h1.transferStarted (by rw [e]; exact hs) htx _ now
  | completionDiscarded hd st _ _ => exact h.deliverCompletion hd st
  | complete hd st _ ha e =>
    subst e
    exact (h.deliverCompletion hd st).transferEnded ((deliverCompletion_master_state ..).trans ha.1) (.inl rfl) st
  | timeoutDiscarded hd _ _ => exact h.timerRemoved hd
  | @timeout hd s1 _ ha e =>
    have h1 : MasterInv s1.master := by rw [e]; exact .abortTransfer (h.timerRemoved hd) _
    exact h1.transferEnded (by rw [e, abortTransfer_master_state]; exact ha.1) (.inr rfl) _
  | succeed p hs => exact h.succeed hs p
  | judgeFailed o hs ho => exact h.judgeFailed hs ho
  | retry q hs hlt => exact h.retry hs hlt _
  | giveUp q hs => exact h.giveUp hs
  | cancelBetween hs _ => exact h.cancel hs (.inl rfl)
  | cancelTransfer hs e =>
    subst e
    have hs' := (abortTransfer_master_state s .master s.master.handle).trans hs
    exact (h.abortTransfer _).cancel (by rw [hs']; rfl) (.inr hs')

/-! ### The invariant of the slave -/

theorem SlaveInv.withChannel {v : SlaveInst} {c : Channel} (h : SlaveInv v) (hc : ChannelInv c) (rx : Frame) :
    SlaveInv { v with ch := c, rxBuffer := rx } :=
  { h with channel := hc }

theorem SlaveInv.startTransfer {s : State} (h : SlaveInv s.slave) : SlaveInv (startTransfer s .slave).slave := by
  rw [startTransfer_slave]
  exact h.withChannel (channelStarted_inv h.channel _) _

theorem SlaveInv.abortTransfer {s : State} (h : SlaveInv s.slave) (hd : Handle) :
    SlaveInv (abortTransfer s .slave hd).slave := by
  obtain ⟨c, rx, _, e, -, -, -, hc⟩ := abortTransfer_slave_form s hd
  rw [e]
  exact h.withChannel (hc h.channel) rx

theorem SlaveInv.deliverCompletion {s : State} (h : SlaveInv s.slave) (hd : Handle) (st : RawStatus) :
    SlaveInv (deliverCompletion s .slave hd st).slave := by
  obtain ⟨rx, _, e, -⟩ := deliverCompletion_slave_form s hd st
  rw [e]
  exact h.withChannel (channelDelivered_inv h.channel hd) rx

theorem SlaveInv.beginNoted {v : SlaveInst} (h : SlaveInv v) : SlaveInv { v with ch := channelBegun v.ch } :=
  { h with channel := channelBegun_inv h.channel }

theorem SlaveInv.timerRemoved {v : SlaveInst} (h : SlaveInv v) (hd : Handle) :
    SlaveInv { v with tmPending := removeHandle hd v.tmPending } :=
  { h with
    timer_rising := removeHandle_rising _ _ h.timer_rising
    timer_disabled := fun e => by rw [h.timer_disabled e]; rfl }

theorem SlaveInv.faulted {v : SlaveInst} (h : SlaveInv v) (l : List FaultReason) : SlaveInv { v with fault := l } :=
  { h with }

/-- The application's payload is encoded (R90, R121). -/
theorem SlaveInv.txWritten {v : SlaveInst} (h : SlaveInv v) (p : Payload) :
    SlaveInv { v with payload := p, txFrame := frameEncode p } :=
  { h with tx_wellFormed := fun _ => frameValid_frameEncode p }

/-- The slave is armed, with a timer unless the arm guard is disabled (R3, R121). -/
theorem SlaveInv.armed {v : SlaveInst} (h : SlaveInv v) (htx : frameValid v.txFrame = true) (hd : Handle) :
    SlaveInv { v with
      handle := hd
      attStatus := .pending
      tmPending := if v.cfg.armTimeout.isSome then insertHandle hd v.tmPending else v.tmPending
      state := .armed } :=
  { h with
    timer_rising := by
      dsimp only
      split
      · exact insertHandle_rising _ _ h.timer_rising
      · exact h.timer_rising
    timer_disabled := fun (e : v.cfg.armTimeout = none) => by simp [e, h.timer_disabled e]
    inflight := fun _ => rfl
    completed := nofun
    tx_wellFormed := fun _ => htx }

/-- The exchange of the armed transfer has begun (R122). -/
theorem SlaveInv.receiving {v : SlaveInst} (h : SlaveInv v) (hs : v.state = .armed) :
    SlaveInv { v with state := .receiving } :=
  { h with
    inflight := fun _ => h.inflight (by rw [hs]; rfl)
    completed := nofun
    tx_wellFormed := fun _ => h.tx_wellFormed (by simp [hs]) }

/-- The transfer in flight is complete (R123). -/
theorem SlaveInv.complete {v : SlaveInst} (h : SlaveInv v) (hs : v.state ≠ .idle) (st : RawStatus) :
    SlaveInv { v with rawStatus := st, attStatus := .complete, state := .completed } :=
  { h with
    inflight := nofun
    completed := fun _ => rfl
    tx_wellFormed := fun _ => h.tx_wellFormed hs }

/-- The slave is idle again, with an outcome that is a slave's (R124, R125, R127). -/
theorem SlaveInv.ended {v : SlaveInst} (h : SlaveInv v) (a : AttemptStatus) {o : TransferOutcome}
    (ho : o ≠ .cancelled ∧ o ≠ .configurationMismatch) :
    SlaveInv { v with attStatus := a, outcome := o, outcomeValid := true, state := .idle } :=
  { h with
    inflight := nofun
    completed := nofun
    outcomes := fun _ => ho
    tx_wellFormed := fun e => absurd rfl e }

/-- `SYS.RESET` of the slave (R202). -/
theorem SlaveInv.reset {v : SlaveInst} (h : SlaveInv v) (n : Nat) : SlaveInv (slaveReset v n) where
  channel := channelReset_inv h.channel
  timer_rising := h.timer_rising
  timer_disabled := h.timer_disabled
  inflight := nofun
  completed := nofun
  outcomes := nofun
  tx_wellFormed := fun e => absurd rfl e

/-- The outcome that a slave reports for a completion (R124, R180). -/
theorem completionOutcome_slave (st : RawStatus) (f : Frame) :
    completionOutcome st f ≠ .cancelled ∧ completionOutcome st f ≠ .configurationMismatch := by
  rcases completionOutcome_cases st f with e | e | e <;> rw [e] <;> exact ⟨nofun, nofun⟩

theorem slaveAwaits.not_idle {s : State} {h : Handle} (ha : slaveAwaits s h) : s.slave.state ≠ .idle := by
  rcases ha.1 with e | e <;> simp [e]

theorem SlaveMove.inv {s t : State} {i : Instr} (hm : SlaveMove s i t) (h : SlaveInv s.slave) : SlaveInv t.slave := by
  cases hm with
  | start _ => exact h.startTransfer
  | startFault _ | provideFault _ _ _ | reportFault _ _ => exact h.faulted _
  | abort hd => exact h.abortTransfer hd
  | stays | busy _ _ => exact h
  | @provide p s1 _ _ e =>
    have h1 : SlaveInv s1.slave := by rw [e]; exact .startTransfer (h.txWritten p)
    exact h1.armed (by rw [e]; exact frameValid_frameEncode p) _
  | beginDiscarded _ _ => exact h.beginNoted
  | begin _ _ hs _ => exact h.beginNoted.receiving hs
  | completionDiscarded hd st _ _ => exact h.deliverCompletion hd st
  | complete hd st _ ha e =>
    subst e
    exact (h.deliverCompletion hd st).complete (by rw [deliverCompletion_slave_state]; exact ha.not_idle) st
  | report st _ _ => exact h.ended _ (completionOutcome_slave st _)
  | armTimeoutDiscarded hd _ _ => exact h.timerRemoved hd
  | @armTimeout hd s1 _ _ _ e =>
    have h1 : SlaveInv s1.slave := by rw [e]; exact .abortTransfer (h.timerRemoved hd) _
    exact h1.ended _ ⟨nofun, nofun⟩
  | abortIdle _ => exact h.ended _ ⟨nofun, nofun⟩
  | abortInFlight _ e => subst e; exact (h.abortTransfer _).ended _ ⟨nofun, nofun⟩

/-! ### The invariant of the system -/

theorem systemInv_iff (s : State) :
    SystemInv s ↔ MasterInv s.master ∧ SlaveInv s.slave ∧ risingHandles s.xMet ∧ exchangeOwned s := by
  rw [exchangeOwned_iff]
  exact ⟨fun ⟨m, v, r, x⟩ => ⟨m, v, r, x⟩, fun ⟨m, v, r, x⟩ => ⟨m, v, r, x⟩⟩

/-- The bus keeps its part at every step, so the invariant of the system is that of master and slave. -/
theorem SystemInv.evolve {s t : State} (h : SystemInv s) (e : Evolves s t) (hm : MasterInv t.master)
    (hv : SlaveInv t.slave) : SystemInv t := by
  obtain ⟨-, -, hr, hx⟩ := (systemInv_iff s).1 h
  exact (systemInv_iff t).2 ⟨hm, hv, e.met_rising hr, e.exchange_owned hx⟩

theorem exec_keeps_systemInv {i : Instr} {s t : State} (h : SystemInv s) (hmax : 1 ≤ s.master.cfg.maxAttempts)
    (he : exec i s = .next t) : SystemInv t := by
  have e := exec_evolves he
  rcases exec_next_cases he with ⟨-, hm⟩ | ⟨-, hm⟩ | hm
  · exact h.evolve e (hm.inv hmax h.master) (by rw [hm.slave_eq]; exact h.slave)
  · exact h.evolve e (by rw [hm.master_eq]; exact h.master) (hm.inv h.slave)
  · cases hm with
    | resetMaster => exact h.evolve e (h.master.reset _) h.slave
    | resetSlave => exact h.evolve e h.master (h.slave.reset _)
    | answer => exact h.evolve e h.master h.slave

/-- An action of the transport changes of the master or the slave only its rx buffer and its adapter's choices. -/
theorem envAct_keeps_systemInv (a : EnvAct) {s : State} (h : SystemInv s) : SystemInv (envAct a s) := by
  have e := envAct_evolves a s
  obtain ⟨_, _, _, _, _, _, _, _, _, _, eq, -⟩ := envAct_form a s
  rw [eq] at e ⊢
  exact h.evolve e { h.master with channel := { h.master.channel with } }
    { h.slave with channel := { h.slave.channel with } }

theorem SystemInv.took {s : State} (h : SystemInv s) (later : List Input) (n : Nat) :
    SystemInv { s with input := later, free := n } :=
  { h with }

/-! ### Buffer ownership in the FSM-driven system (R23 items 1 to 3) -/

/-- A master without a fault, whose channel is active exactly while it waits for that transfer. -/
structure MasterWaits (m : MasterInst) : Prop where
  clean : m.fault = []
  active : m.ch.active = true ↔ m.state = .transferring
  handle : m.state = .transferring → m.ch.handle = m.handle

/-- A slave without a fault, whose channel is active exactly while it waits for that transfer. -/
structure SlaveWaits (v : SlaveInst) : Prop where
  clean : v.fault = []
  active : v.ch.active = true ↔ inFlight v.state = true
  handle : inFlight v.state = true → v.ch.handle = v.handle

theorem ownershipInv_iff (s : State) : OwnershipInv s ↔ MasterWaits s.master ∧ SlaveWaits s.slave :=
  ⟨fun ⟨mc, vc, ma, mh, va, vh⟩ => ⟨⟨mc, ma, mh⟩, ⟨vc, va, vh⟩⟩,
    fun ⟨⟨mc, ma, mh⟩, ⟨vc, va, vh⟩⟩ => ⟨mc, vc, ma, mh, va, vh⟩⟩

/-- Outside `M_Transferring` a channel that is not active is all there is to say. -/
theorem MasterWaits.of_idle_channel {m : MasterInst} (hc : m.fault = []) (ha : m.ch.active = false)
    (hs : m.state ≠ .transferring) : MasterWaits m :=
  ⟨hc, by simp [ha, hs], fun e => absurd e hs⟩

theorem MasterWaits.inactive {m : MasterInst} (h : MasterWaits m) (hs : m.state ≠ .transferring) : m.ch.active = false :=
  Bool.eq_false_iff.2 fun e => hs (h.active.1 e)

theorem SlaveWaits.of_idle_channel {v : SlaveInst} (hc : v.fault = []) (ha : v.ch.active = false)
    (hs : inFlight v.state = false) : SlaveWaits v :=
  ⟨hc, by simp [ha, hs], fun e => by rw [hs] at e; cases e⟩

theorem SlaveWaits.inactive {v : SlaveInst} (h : SlaveWaits v) (hs : inFlight v.state = false) : v.ch.active = false :=
  Bool.eq_false_iff.2 fun e => by rw [h.active.1 e] at hs; cases hs

/-- The FSM's own abort of the transfer it waits for leaves its channel idle, and no fault. -/
theorem abortTransfer_master_own {s : State} {hd : Handle} (hw : MasterWaits s.master) (hs : s.master.state = .transferring)
    (hh : hd = s.master.handle) :
    (abortTransfer s .master hd).master.fault = [] ∧ (abortTransfer s .master hd).master.ch.active = false := by
  rw [abortTransfer_master_active (hw.active.2 hs) ((hw.handle hs).trans hh.symm)]
  exact ⟨hw.clean, rfl⟩

theorem abortTransfer_slave_own {s : State} {hd : Handle} (hw : SlaveWaits s.slave) (hs : inFlight s.slave.state = true)
    (hh : hd = s.slave.handle) :
    (abortTransfer s .slave hd).slave.fault = [] ∧ (abortTransfer s .slave hd).slave.ch.active = false := by
  rw [abortTransfer_slave_active (hw.active.2 hs) ((hw.handle hs).trans hh.symm)]
  exact ⟨hw.clean, rfl⟩

/-- A delivered completion ends the active transfer exactly when it is that transfer's. -/
theorem channelDelivered_active (c : Channel) (h : Handle) :
    (channelDelivered c h).active = true ↔ c.active = true ∧ c.handle ≠ h := by
  simp [channelDelivered]

theorem MasterMove.waits {s t : State} {i : Instr} (hm : MasterMove s i t) (hi : fsmDriven i = true)
    (h : MasterWaits s.master) : MasterWaits t.master := by
  cases hm with
  | start _ | startFault _ | abort _ => cases hi
  | stays | busy _ _ | timeoutDiscarded _ _ _ => exact { h with }
  | send _ hs => exact .of_idle_channel h.clean (h.inactive fun e => by rw [e] at hs; cases hs) nofun
  | encodeFault _ hs ha | evaluateFault hs ha => cases hs.symm.trans (h.active.1 ha)
  | encode _ _ _ e => subst e; exact ⟨h.clean, ⟨fun _ => rfl, fun _ => rfl⟩, fun _ => rfl⟩
  | completionDiscarded hd st _ hn =>
    obtain ⟨rx, _, e, -⟩ := deliverCompletion_master_form s hd st
    rw [e]
    refine ⟨h.clean, ?_, h.handle⟩
    rw [channelDelivered_active, h.active]
    exact ⟨And.left, fun hs => ⟨hs, fun eq => hn ⟨hs, eq.symm.trans (h.handle hs)⟩⟩⟩
  | complete hd st _ ha eq =>
    obtain ⟨rx, _, e, -⟩ := deliverCompletion_master_form s hd st
    subst eq
    rw [e]
    refine .of_idle_channel h.clean (Bool.eq_false_iff.2 fun hact => ?_) nofun
    exact ((channelDelivered_active _ _).1 hact).2 ((h.handle ha.1).trans ha.2.symm)
  | @timeout _ s1 _ ha e =>
    have h1 : s1.master.fault = [] ∧ s1.master.ch.active = false := by
      rw [e]; exact abortTransfer_master_own { h with } ha.1 rfl
    exact .of_idle_channel h1.1 h1.2 nofun
  | succeed _ hs | judgeFailed _ hs _ | retry _ hs _ | giveUp _ hs =>
    exact .of_idle_channel h.clean (h.inactive (by simp [hs])) nofun
  | cancelBetween _ hs => exact .of_idle_channel h.clean (h.inactive hs) nofun
  | cancelTransfer hs e =>
    subst e
    obtain ⟨hf, hc⟩ := abortTransfer_master_own h hs rfl
    exact .of_idle_channel hf hc nofun

theorem slaveAwaits_iff (s : State) (h : Handle) :
    slaveAwaits s h ↔ inFlight s.slave.state = true ∧ h = s.slave.handle := by
  unfold slaveAwaits
  cases s.slave.state <;> simp [inFlight]

theorem SlaveMove.waits {s t : State} {i : Instr} (hm : SlaveMove s i t) (hi : fsmDriven i = true)
    (h : SlaveWaits s.slave) : SlaveWaits t.slave := by
  cases hm with
  | start _ | startFault _ | abort _ => cases hi
  | stays | busy _ _ | armTimeoutDiscarded _ _ _ | beginDiscarded _ _ => exact { h with }
  | provideFault _ hs ha | reportFault hs ha =>
    have hf := h.active.1 ha
    rw [hs] at hf
    cases hf
  | provide _ _ _ e => subst e; exact ⟨h.clean, ⟨fun _ => rfl, fun _ => rfl⟩, fun _ => rfl⟩
  | begin _ _ hs _ =>
    have hf : inFlight s.slave.state = true := by rw [hs]; rfl
    exact ⟨h.clean, ⟨fun _ => rfl, fun _ => h.active.2 hf⟩, fun _ => h.handle hf⟩
  | completionDiscarded hd st _ hn =>
    obtain ⟨rx, _, e, -⟩ := deliverCompletion_slave_form s hd st
    rw [slaveAwaits_iff] at hn
    rw [e]
    refine ⟨h.clean, ?_, h.handle⟩
    rw [channelDelivered_active, h.active]
    exact ⟨And.left, fun hs => ⟨hs, fun eq => hn ⟨hs, eq.symm.trans (h.handle hs)⟩⟩⟩
  | complete hd st _ ha eq =>
    obtain ⟨rx, _, e, -⟩ := deliverCompletion_slave_form s hd st
    obtain ⟨hf, hh⟩ := (slaveAwaits_iff s hd).1 ha
    subst eq
    rw [e]
    refine .of_idle_channel h.clean (Bool.eq_false_iff.2 fun hact => ?_) rfl
    exact ((channelDelivered_active _ _).1 hact).2 ((h.handle hf).trans hh.symm)
  | report _ _ hs => exact .of_idle_channel h.clean (h.inactive (by rw [hs]; rfl)) rfl
  | @armTimeout _ s1 _ hs _ e =>
    have h1 : s1.slave.fault = [] ∧ s1.slave.ch.active = false := by
      rw [e]; exact abortTransfer_slave_own { h with } (by rw [State.withSlave_slave, hs]; rfl) rfl
    exact .of_idle_channel h1.1 h1.2 rfl
  | abortIdle hs => exact .of_idle_channel h.clean (h.inactive (by rw [hs]; rfl)) rfl
  | abortInFlight hs e =>
    subst e
    obtain ⟨hf, hc⟩ := abortTransfer_slave_own h hs rfl
    exact .of_idle_channel hf hc rfl

theorem exec_keeps_ownershipInv {i : Instr} {s t : State} (h : OwnershipInv s) (hi : fsmDriven i = true)
    (he : exec i s = .next t) : OwnershipInv t := by
  obtain ⟨hm, hv⟩ := (ownershipInv_iff s).1 h
  rw [ownershipInv_iff]
  rcases exec_next_cases he with ⟨-, mv⟩ | ⟨-, mv⟩ | mv
  · exact ⟨mv.waits hi hm, by rw [mv.slave_eq]; exact hv⟩
  · exact ⟨by rw [mv.master_eq]; exact hm, mv.waits hi hv⟩
  · cases mv with
    | resetMaster => exact ⟨.of_idle_channel hm.clean rfl nofun, hv⟩
    | resetSlave => exact ⟨hm, .of_idle_channel hv.clean rfl rfl⟩
    | answer => exact ⟨hm, hv⟩

theorem envAct_keeps_ownershipInv (a : EnvAct) {s : State} (h : OwnershipInv s) : OwnershipInv (envAct a s) := by
  obtain ⟨_, _, _, _, _, _, _, _, _, _, e, -⟩ := envAct_form a s
  rw [e]
  exact { h with }

theorem OwnershipInv.took {s : State} (h : OwnershipInv s) (later : List Input) (n : Nat) :
    OwnershipInv { s with input := later, free := n } :=
  { h with }

/-- No fault is recorded in the FSM-driven system. -/
theorem OwnershipInv.faultFree {s : State} (h : OwnershipInv s) (r : Role) : faultFree s r := by
  cases r with
  | master => exact h.master_clean
  | slave => exact h.slave_clean

/-- A record that the bus delivers by itself is none of the adapter commands. -/
theorem BusRecord.fsmDriven_of_decode {i j : Instr} {dest : Role} {rest : List Byte} (hb : BusRecord i)
    (hd : decode dest (encode i) = .ok (j, rest)) : fsmDriven j = true := by
  cases hb with
  | begin h => rw [decode_encode_sBegin] at hd; cases hd; rfl
  | slaveDone h => rw [decode_encode_sComplete] at hd; cases hd; rfl
  | masterDone h => rw [decode_encode_mComplete] at hd; cases hd; rfl

/-- What the bus adds to the offered inputs keeps the system FSM-driven. -/
theorem Evolves.inputsFsmDriven {s t : State} (e : Evolves s t) (h : inputsFsmDriven s) : inputsFsmDriven t := by
  intro dest bytes hin i rest hd
  rcases e.input _ hin with hold | ⟨r, j, hb, eq⟩
  · exact h dest bytes hold i rest hd
  · cases eq
    exact hb.fsmDriven_of_decode hd

/-- With FSM-driven inputs the record that runs next is one of the FSM-driven system. -/
theorem runsNext.fsmDriven {s : State} {i : Instr} {later : List Input} (h : runsNext s i later)
    (hin : inputsFsmDriven s) : fsmDriven i = true := by
  rcases h with ⟨dest, bytes, rest, e, hd⟩ | ⟨-, -, hi⟩
  · exact hin dest bytes (by rw [e]; exact List.mem_cons_self) i rest hd
  · rcases internalStep?_cases hi with ⟨-, ⟨-, rfl⟩ | ⟨-, rfl⟩ | ⟨-, rfl⟩⟩ | ⟨-, -, rfl⟩ <;> rfl

/-! ### The obligations of 10_state.md -/

/-- Settles O44: a record of the master or the slave is its step, which a fault mark stops. -/
theorem faultedInstanceStops : Obligations.FaultedInstanceStops := by
  intro i s r reason more ho hf
  obtain ⟨u, hu⟩ := exec_eq_instanceStep ho s
  rw [hu, instanceStep_faulted hf]

/-- Settles O45: at reset both channels are idle, every set is empty, and no state but the idle ones makes a demand. -/
theorem invariantAtReset : Obligations.InvariantAtReset := by
  have channel : ChannelInv Channel.reset := ⟨.nil, .nil, nofun⟩
  have master : MasterInv MasterInst.reset :=
    ⟨channel, .nil, Nat.zero_le _, ⟨fun _ => rfl, fun _ => rfl⟩, nofun, nofun, nofun, nofun, nofun, nofun,
      fun h => by rcases h with h | h; cases h; exact absurd rfl h⟩
  have slave : SlaveInv SlaveInst.reset := ⟨channel, .nil, nofun, nofun, nofun, nofun, fun h => absurd rfl h⟩
  refine ⟨(systemInv_iff _).2 ⟨master, slave, .nil, exchangeOwned_of_none rfl⟩, (ownershipInv_iff _).2 ⟨?_, ?_⟩, rfl⟩
  · exact .of_idle_channel rfl rfl nofun
  · exact .of_idle_channel rfl rfl rfl

/-- Settles O50: it is part of what every step keeps. -/
theorem parametersFaultsAndOutputsOnlyGrow : Obligations.ParametersFaultsAndOutputsOnlyGrow := by
  intro s t h
  have e := step_evolves h
  exact ⟨e.master_cfg, e.slave_cfg, e.outputs, e.master_fault, e.slave_fault⟩

/-- Settles O46, by the cases of a step; a legal configuration allows at least the one attempt that `M.SEND` begins. -/
theorem everyStepKeepsInvariant : Obligations.EveryStepKeepsInvariant := by
  intro s t h hstep
  obtain ⟨hc, ⟨i, later, n, -, he⟩ | ⟨a, later, -, rfl⟩ | rfl⟩ := step_next_cases hstep
  · obtain ⟨-, -, -, -, hmax, -⟩ := (configLegal_iff s).1 hc
    exact exec_keeps_systemInv (h.took later n) hmax he
  · exact envAct_keeps_systemInv a (h.took later s.free)
  · exact h

/-- Settles O49, by the cases of a step: the FSMs command a channel only in the states in which it is idle, or abort the
transfer they wait for. -/
theorem fsmDrivenSystemNeverFaults : Obligations.FsmDrivenSystemNeverFaults := by
  intro s h hin
  constructor
  · intro f hf
    rcases step_cases hf with ⟨_, e⟩ | ⟨-, ⟨i, later, n, -, he⟩ | ⟨_, _, -, e⟩ | e⟩
    · cases e
    · obtain ⟨r, hr⟩ := exec_fault_cases he
      exact hr ((h.took later n).faultFree r)
    · cases e
    · cases e
  · intro t hstep
    refine ⟨?_, (step_evolves hstep).inputsFsmDriven hin⟩
    obtain ⟨-, ⟨i, later, n, hr, he⟩ | ⟨a, later, -, rfl⟩ | rfl⟩ := step_next_cases hstep
    · exact exec_keeps_ownershipInv (h.took later n) (hr.fsmDriven hin) he
    · exact envAct_keeps_ownershipInv a (h.took later s.free)
    · exact h

end Sys2Proof.Machine

/-! The byte arrays and who touches them (20_memory.md; R46, R47, R53, R55): what each action of the transport stores, the
ownership faults, what the two instances share, and the race of completion and timeout. -/

namespace Sys2Proof.Machine

/-! ### What a write of an rx buffer or of a channel leaves alone -/

theorem withRx_readByte {b : Buffer} {r : Role} (hb : b ≠ rxBufferOf r) (s : State) (f : Frame) (i : Nat) :
    (s.withRx r f).readByte b i = s.readByte b i := by
  cases r with
  | master => cases b with
    | mRxBuffer => exact absurd rfl hb
    | _ => rfl
  | slave => cases b with
    | sRxBuffer => exact absurd rfl hb
    | _ => rfl

@[simp] theorem withRx_rxContent (s : State) (r : Role) (f : Frame) : (s.withRx r f).rxContent r = f := by
  cases r <;> rfl

/-- Only the buffer written reads otherwise. -/
theorem eq_of_withRx_rxContent_ne {s : State} {r q : Role} {f : Frame}
    (h : (s.withRx r f).rxContent q ≠ s.rxContent q) : q = r := by
  cases r with
  | master => cases q with
    | master => rfl
    | slave => exact absurd rfl h
  | slave => cases q with
    | master => exact absurd rfl h
    | slave => rfl

@[simp] theorem withChannel_readByte (s : State) (r : Role) (c : Channel) (b : Buffer) (i : Nat) :
    (s.withChannel r c).readByte b i = s.readByte b i := by
  cases r <;> cases b <;> rfl

theorem bytesKept_of_same_instances {s t : State} (hm : t.master = s.master) (hv : t.slave = s.slave) (l : List Buffer) :
    bytesKept s t l :=
  fun b _ i => State.readByte_congr hm hv b i

/-- A state with the instances of `s` but for one rx buffer keeps every other byte of `s`. -/
theorem bytesKept_withRx {s t : State} (hm : t.master = s.master) (hv : t.slave = s.slave) (r : Role) (f : Frame) :
    bytesKept s (t.withRx r f) [rxBufferOf r] := fun b hb i =>
  (withRx_readByte (fun e => hb (List.mem_singleton.2 e)) t f i).trans (State.readByte_congr hm hv b i)

/-- States whose instances differ in the rx buffers and the channels only read the same outside those buffers. -/
theorem bytesKept_rxBuffers {s t : State} {fm fs : Frame} {cm cs : Channel}
    (hm : t.master = { s.master with rxBuffer := fm, ch := cm })
    (hv : t.slave = { s.slave with rxBuffer := fs, ch := cs }) : bytesKept s t [.mRxBuffer, .sRxBuffer] := by
  intro b hb i
  cases b with
  | mRxBuffer | sRxBuffer => exact absurd (by simp) hb
  | mPayload | mTxFrame | mRxPayload => simp [hm]
  | sPayload | sTxFrame => simp [hv]

/-! ### What each action of the transport stores (R106, R113 to R115) -/

theorem step_env {s : State} {a : EnvAct} {later : List Input} (hc : configLegal s = true)
    (hin : s.input = .env a :: later) : step s = .next (envAct a { s with input := later }) := by
  simp [step, hc, hin]

theorem envAct_endExchange_cases (s : State) : envAct .endExchange s = s ∨ envAct .endExchange s = s.withPair none :=
  ite_eq_or_eq _ _ _

theorem envAct_rxWrite_contract {s : State} (hb : s.bus.reference = false) (r : Role) (h : Handle) (f : Frame) :
    envAct (.rxWrite r h f) s = receive s r h f :=
  if_neg (Bool.eq_false_iff.1 hb)

/-- The bytes of a transfer that runs, and in the slave's that an exchange reached, are stored. -/
theorem envAct_rxWrite_met {s : State} {r : Role} {h : Handle} (hb : s.bus.reference = false)
    (ho : ownsTransfer s r h = true) (hm : r = .slave → h ∈ s.xMet) (f : Frame) :
    envAct (.rxWrite r h f) s = s.withRx r f := by
  rw [envAct_rxWrite_contract hb]
  cases r with
  | master => exact if_pos ho
  | slave => exact (if_pos ho).trans (if_pos (hm rfl))

/-- The exchange in progress reaches a late slave transfer (log 27). -/
theorem envAct_rxWrite_late {s : State} {h : Handle} {x : Exchange} (hb : s.bus.reference = false)
    (ho : ownsTransfer s .slave h = true) (hm : h ∉ s.xMet) (hx : s.xPair = some x) (hl : lateJoinable s = true)
    (f : Frame) :
    envAct (.rxWrite .slave h f) s =
      ({ s with xPair := some { x with late := some h }, xMet := insertHandle h s.xMet } : State).withRx .slave f := by
  have joined : lateJoined s h = { s with xPair := some { x with late := some h }, xMet := insertHandle h s.xMet } := by
    simp only [lateJoined, hx]; rfl
  rw [envAct_rxWrite_contract hb, ← joined]
  exact (if_pos ho).trans ((if_neg hm).trans (if_pos hl))

theorem envAct_rxWrite_unmet {s : State} {h : Handle} (hb : s.bus.reference = false) (hm : h ∉ s.xMet)
    (hl : lateJoinable s ≠ true) (f : Frame) : envAct (.rxWrite .slave h f) s = s := by
  simp [envAct_rxWrite_contract hb, receive, hm, hl]

theorem envAct_rxWrite_stays {s : State} {r : Role} {h : Handle}
    (hn : s.bus.reference = true ∨ ownsTransfer s r h ≠ true) (f : Frame) : envAct (.rxWrite r h f) s = s := by
  rcases hn with hb | ho
  · exact if_pos hb
  · simp [envAct, receive, ho]

/-- The bus holds bytes of the exchange `x` for a transfer that the adapter of `r` runs (R107, R114). -/
def clocksInto (s : State) (x : Exchange) : Role → Prop
  | .master => ownsTransfer s .master x.hm = true
  | .slave => ∃ hs, x.hs = some hs ∧ ownsTransfer s .slave hs = true ∧ hs ∈ s.xMet

/-- The bytes of an exchange that arrive at one side. -/
def Exchange.bytesTo (x : Exchange) : Role → Frame
  | .master => x.s2m
  | .slave => x.m2s

theorem clockExchange_stored {s : State} {x : Exchange} {r : Role} (h : clocksInto s x r) :
    clockExchange s x r = s.withRx r (x.bytesTo r) := by
  cases r with
  | master => exact if_pos h
  | slave =>
    obtain ⟨hs, hx, hown⟩ := h
    simp only [clockExchange, hx]
    exact if_pos hown

theorem clockExchange_stays {s : State} {x : Exchange} {r : Role} (h : ¬clocksInto s x r) : clockExchange s x r = s := by
  cases r with
  | master => exact if_neg h
  | slave =>
    cases hx : x.hs with
    | none => simp only [clockExchange, hx]
    | some hs =>
      simp only [clockExchange, hx]
      exact if_neg fun hown => h ⟨hs, hx, hown⟩

/-- The bytes of the exchange in progress are stored on the side whose transfer they are for. -/
theorem envAct_clock_stored {s : State} {x : Exchange} {r : Role} (hb : s.bus.reference = false) (hx : s.xPair = some x)
    (h : clocksInto s x r) : envAct (.clock r) s = s.withRx r (x.bytesTo r) := by
  rw [← clockExchange_stored h]
  simp [envAct, hb, hx]

theorem envAct_clock_stays {s : State} {r : Role}
    (hn : s.bus.reference = true ∨ ¬∃ x, s.xPair = some x ∧ clocksInto s x r) : envAct (.clock r) s = s := by
  unfold envAct
  dsimp only
  split
  · next x hx =>
    split
    · rfl
    · next hb => exact clockExchange_stays fun h => hn.resolve_left hb ⟨x, hx, h⟩
  · rfl

/-- The parameters of the bus, the end of an exchange and the adapters' choices store nothing and offer nothing. -/
theorem envAct_storesNothing {a : EnvAct} (s : State)
    (ha : a = .endExchange ∨ (∃ b, a = .bus b) ∨ (∃ r h, a = .nextHandle r h) ∨ ∃ r k, a = .abortKeeps r k) :
    (envAct a s).input = s.input ∧ bytesKept s (envAct a s) [] := by
  rcases ha with rfl | ⟨b, rfl⟩ | ⟨r, h, rfl⟩ | ⟨r, k, rfl⟩
  · rcases envAct_endExchange_cases s with e | e <;> rw [e] <;> exact ⟨rfl, bytesKept_of_same_instances rfl rfl []⟩
  · exact ⟨rfl, bytesKept_of_same_instances rfl rfl []⟩
  · exact ⟨State.withChannel_input s r _, fun b _ i => withChannel_readByte s r _ b i⟩
  · exact ⟨State.withChannel_input s r _, fun b _ i => withChannel_readByte s r _ b i⟩

/-- Settles O8: each clause is the rule of its action, for the state in which that action has been taken off the input. -/
theorem adapterWritesOnlyItsRxBuffer : Obligations.AdapterWritesOnlyItsRxBuffer := by
  intro s later hc runs clocking s'
  have owns : ∀ r h, ownsTransfer s' r h = true ↔ runs r h := ownsTransfer_iff s'
  have joinable : lateJoinable s' = true ↔ ∃ x, clocking x ∧ x.hs = none ∧ x.late = none := lateJoinable_iff s'
  refine ⟨fun r h f hin => ⟨_, step_env hc hin, fun hb hr hm => ?_,
      fun hb hr hslave hm => ⟨?_, fun hno => ?_⟩, fun hn => ?_⟩,
    fun r hin => ⟨_, step_env hc hin, fun x hb hx hr hown => ?_, fun x hs hb hx hr hxs hown hm => ?_, fun hn => ?_⟩,
    fun a hin ha => ⟨_, step_env hc hin, ?_⟩⟩
  · rw [envAct_rxWrite_met (s := s') hb ((owns r h).2 hr) hm]
    exact ⟨rfl, withRx_rxContent _ _ _, bytesKept_withRx rfl rfl r f⟩
  · subst hslave
    intro x hx hs hlate
    rw [envAct_rxWrite_late (s := s') hb ((owns _ h).2 hr) hm hx.1 (joinable.2 ⟨x, hx, hs, hlate⟩)]
    exact ⟨rfl, withRx_rxContent _ .slave _, bytesKept_withRx rfl rfl .slave f⟩
  · subst hslave
    exact envAct_rxWrite_unmet (s := s') hb hm (mt joinable.1 hno) f
  · exact envAct_rxWrite_stays (s := s') (hn.imp_right (mt (owns r h).1)) f
  · subst hr
    rw [envAct_clock_stored (s := s') (r := .master) hb hx ((owns _ _).2 hown)]
    exact ⟨rfl, bytesKept_withRx rfl rfl .master _⟩
  · subst hr
    rw [envAct_clock_stored (s := s') (r := .slave) hb hx ⟨hs, hxs, (owns _ _).2 hown, hm⟩]
    exact ⟨rfl, bytesKept_withRx rfl rfl .slave _⟩
  · refine envAct_clock_stays (s := s') (hn.imp_right fun hnone ⟨x, hx, hto⟩ => hnone ⟨x, hx, ?_⟩)
    cases r with
    | master => exact .inl ⟨rfl, (owns _ _).1 hto⟩
    | slave =>
      obtain ⟨hs, hxs, hown, hm⟩ := hto
      exact .inr ⟨rfl, hs, hxs, (owns _ _).1 hown, hm⟩
  · exact envAct_storesNothing s' ha

/-! ### Whatever the transport does by itself (R46, R113, R115) -/

/-- An rx buffer may take bytes for the transfer `h`: its adapter runs it, and in the slave's an exchange with the master has
reached it or can reach it now. -/
def mayReceive (s : State) (r : Role) (h : Handle) : Prop :=
  ownsTransfer s r h = true ∧ (r = .slave → h ∈ s.xMet ∨ masterClocking s = true)

theorem receive_changes {s : State} {r q : Role} {h : Handle} {f : Frame}
    (hne : (receive s r h f).rxContent q ≠ s.rxContent q) : q = r ∧ mayReceive s r h := by
  rcases receive_form s r h f with e | ⟨ho, ⟨e, hm⟩ | ⟨rfl, hl, e⟩⟩
  · exact absurd (by rw [e]) hne
  · rw [e] at hne
    exact ⟨eq_of_withRx_rxContent_ne hne, ho, fun hr => .inl (hm hr)⟩
  · rw [e] at hne
    obtain ⟨x, hx, -⟩ := (lateJoinable_iff s).1 hl
    exact ⟨eq_of_withRx_rxContent_ne (s := lateJoined s h) hne, ho, fun _ => .inr ((masterClocking_iff s).2 ⟨x, hx⟩)⟩

theorem mayReceive_of_clocksInto {s : State} {x : Exchange} {r : Role} (h : clocksInto s x r) :
    ∃ hd, mayReceive s r hd := by
  cases r with
  | master => exact ⟨x.hm, h, nofun⟩
  | slave =>
    obtain ⟨hs, -, ho, hm⟩ := h
    exact ⟨hs, ho, fun _ => .inl hm⟩

/-- The exchange end of the reference transport (R114) stores in the buffers of the two transfers that exchanged. -/
theorem finishExchange_changes {s : State} {x : Exchange} {first : Bool} {q : Role}
    (ho : ownsTransfer s .master x.hm = true) (hne : (finishExchange s x first).rxContent q ≠ s.rxContent q) :
    clocksInto s x q := by
  cases q with
  | master => exact ho
  | slave =>
    cases hv : slaveFinish s x with
    | none => cases hm : masterFinish s x <;> exact absurd (by simp [finishExchange, hv, hm]) hne
    | some hs =>
      unfold slaveFinish at hv
      split at hv
      · next hs' hx =>
        split at hv
        · next hrun => exact ⟨hs', hx, (ownsTransfer_iff _ _ _).2 (.inl ⟨hrun.1, hrun.2.1⟩), hrun.2.2⟩
        · cases hv
      · cases hv

/-- An action of the transport changes an rx buffer only for a transfer that may receive. -/
theorem envAct_rx_changes {a : EnvAct} {s : State} (hinv : SystemInv s) {r : Role}
    (hne : (envAct a s).rxContent r ≠ s.rxContent r) : ∃ h, mayReceive s r h := by
  cases a with
  | rxWrite q h f =>
    rcases Bool.eq_false_or_eq_true s.bus.reference with hb | hb
    · exact absurd (by rw [envAct_rxWrite_stays (.inl hb)]) hne
    · rw [envAct_rxWrite_contract hb] at hne
      obtain ⟨rfl, hmay⟩ := receive_changes hne
      exact ⟨h, hmay⟩
  | clock q =>
    by_cases hx : s.bus.reference = false ∧ ∃ x, s.xPair = some x ∧ clocksInto s x q
    · obtain ⟨hb, x, hx, hto⟩ := hx
      rw [envAct_clock_stored hb hx hto] at hne
      obtain rfl := eq_of_withRx_rxContent_ne hne
      exact mayReceive_of_clocksInto hto
    · rw [not_and_or, Bool.not_eq_false] at hx
      exact absurd (by rw [envAct_clock_stays hx]) hne
  | endExchange =>
    rcases envAct_endExchange_cases s with e | e
    · exact absurd (by rw [e]) hne
    · exact absurd (by rw [e]; cases r <;> rfl) hne
  | finish first =>
    unfold envAct at hne
    dsimp only at hne
    split at hne
    · next x hx =>
      split at hne
      · next hend =>
        have clocking := (masterClocking_iff s).2 ⟨x, hx, hend.2⟩
        exact mayReceive_of_clocksInto (finishExchange_changes (hinv.exchange_owned clocking x hx) hne)
      · exact absurd rfl hne
    · exact absurd rfl hne
  | bus b => exact absurd (by cases r <;> rfl) hne
  | nextHandle q h => exact absurd (by cases q <;> cases r <;> rfl) hne
  | abortKeeps q k => exact absurd (by cases q <;> cases r <;> rfl) hne

/-- Settles O47: an rx buffer changes only for a transfer that may receive, and the form of an action shows the rest. -/
theorem transportTouchesOnlyOwnedRxBuffers : Obligations.TransportTouchesOnlyOwnedRxBuffers := by
  intro a s hinv
  obtain ⟨fm, nm, km, fs, ns, ks, _, _, _, _, e, -⟩ := envAct_form a s
  have hm : (envAct a s).master = { s.master with rxBuffer := fm, ch := { s.master.ch with next := nm, keep := km } } := by
    rw [e]
  have hv : (envAct a s).slave = { s.slave with rxBuffer := fs, ch := { s.slave.ch with next := ns, keep := ks } } := by
    rw [e]
  refine ⟨fun r hne => ?_, ⟨fm, nm, km, hm⟩, ⟨fs, ns, ks, hv⟩, bytesKept_rxBuffers hm hv⟩
  obtain ⟨h, ho, hmet⟩ := envAct_rx_changes hinv hne
  exact ⟨h, (ownsTransfer_iff s r h).1 ho, hmet⟩

/-! ### A step that would touch an owned buffer (R47) -/

/-- Settles O43: the step is the branch of its instruction that the ownership guard selects. -/
theorem bufferOwnershipFaults : Obligations.BufferOwnershipFaults := by
  intro s
  refine ⟨fun hf ha => ⟨fun now hs => ?_, fun hs ht hr => ?_⟩, fun hf ha => ⟨fun p hs => ?_, fun hs hr => ?_⟩⟩
  · exact (instanceStep_clean hf).trans (congrArg _ ((if_pos hs).trans (if_pos ha)))
  · exact (instanceStep_clean hf).trans (congrArg _ ((if_pos hs).trans (if_pos ⟨ht, hr, ha⟩)))
  · exact (instanceStep_clean hf).trans (congrArg _ ((if_pos hs).trans (if_pos ha)))
  · exact (instanceStep_clean hf).trans (congrArg _ ((if_pos hs).trans (if_pos ⟨hr, ha⟩)))

/-! ### The instances share nothing but the bus (R53, R194) -/

theorem masterMove_of_exec {i : Instr} {s t : State} (ho : instrOwner i = some .master) (h : exec i s = .next t) :
    MasterMove s i t := by
  obtain ⟨u, hu, hm⟩ := exec_of_master ho s
  obtain ⟨-, rfl⟩ := instanceStep_next_iff.1 (hu.symm.trans h)
  exact hm

theorem slaveMove_of_exec {i : Instr} {s t : State} (ho : instrOwner i = some .slave) (h : exec i s = .next t) :
    SlaveMove s i t := by
  obtain ⟨u, hu, hm⟩ := exec_of_slave ho s
  obtain ⟨-, rfl⟩ := instanceStep_next_iff.1 (hu.symm.trans h)
  exact hm

theorem openMove_of_exec {i : Instr} {s t : State} (ho : instrOwner i = none) (h : exec i s = .next t) :
    OpenMove s i t := by
  obtain ⟨u, hu, hm⟩ := exec_of_none ho s
  cases hu.symm.trans h
  exact hm

@[simp] theorem startTransfer_bus (s : State) (r : Role) : (startTransfer s r).bus = s.bus := by
  cases r <;> rfl

@[simp] theorem startTransfer_slave_xPair (s : State) : (startTransfer s .slave).xPair = s.xPair := rfl

@[simp] theorem startTransfer_slave_input (s : State) : (startTransfer s .slave).input = s.input := rfl

@[simp] theorem abortTransfer_slave_xPair (s : State) (h : Handle) : (abortTransfer s .slave h).xPair = s.xPair := by
  simp only [abortTransfer]; split <;> rfl

@[simp] theorem deliverCompletion_xPair (s : State) (r : Role) (h : Handle) (st : RawStatus) :
    (deliverCompletion s r h st).xPair = s.xPair := by
  simp only [deliverCompletion]; split <;> cases r <;> rfl

@[simp] theorem deliverCompletion_bus (s : State) (r : Role) (h : Handle) (st : RawStatus) :
    (deliverCompletion s r h st).bus = s.bus := by
  simp only [deliverCompletion]; split <;> cases r <;> rfl

@[simp] theorem deliverCompletion_input (s : State) (r : Role) (h : Handle) (st : RawStatus) :
    (deliverCompletion s r h st).input = s.input := by
  simp only [deliverCompletion]; split <;> cases r <;> rfl

theorem MasterMove.bus_eq {s t : State} {i : Instr} (h : MasterMove s i t) : t.bus = s.bus := by
  cases h with
  | encode _ _ _ e | complete _ _ _ _ e | timeout _ _ _ e | cancelTransfer _ e => subst e; simp
  | _ => simp

/-- Of the master's records only those that start a transfer have the bus offer a record. -/
theorem MasterMove.input_cases {s t : State} {i : Instr} (h : MasterMove s i t) :
    t.input = s.input ∨
      (i = .dmaStart .master ∨ ∃ now, i = .mEncode now) ∧ t.input = beginOffered s ++ s.input := by
  cases h with
  | start _ => exact .inr ⟨.inl rfl, rfl⟩
  | encode now _ _ e => subst e; exact .inr ⟨.inr ⟨now, rfl⟩, rfl⟩
  | complete _ _ _ _ e | timeout _ _ _ e | cancelTransfer _ e => subst e; exact .inl (by simp)
  | _ => exact .inl (by simp)

/-- A record of the slave leaves the exchange and the bus as they are, and offers nothing. -/
theorem SlaveMove.bus_and_input_eq {s t : State} {i : Instr} (h : SlaveMove s i t) :
    t.xPair = s.xPair ∧ t.bus = s.bus ∧ t.input = s.input := by
  cases h with
  | provide _ _ _ e | complete _ _ _ _ e | armTimeout _ _ _ _ e | abortInFlight _ e => subst e; simp
  | _ => simp

theorem OpenMove.bus_and_input_eq {s t : State} {i : Instr} (h : OpenMove s i t) : busKept s t ∧ t.input = s.input := by
  cases h <;> exact ⟨⟨rfl, rfl, rfl⟩, rfl⟩

/-- The only handle that a master's start pairs with is that of the slave's active transfer. -/
theorem pairableSlave_eq_some {s : State} {hs : Handle} (h : pairableSlave s = some hs) :
    s.slave.ch.active = true ∧ hs = s.slave.ch.handle := by
  unfold pairableSlave at h
  split at h
  · next hc => exact ⟨hc.1, (Option.some.inj h).symm⟩
  · cases h

/-- What the bus offers at the master's start (R114). -/
theorem beginOffered_cases (s : State) :
    beginOffered s = [] ∨ s.bus.reference = true ∧ s.slave.ch.active = true ∧
      beginOffered s = [.record .slave (encode (.sBegin s.slave.ch.handle))] := by
  unfold beginOffered
  split
  · next hb =>
    split
    · next hs hp =>
      obtain ⟨ha, rfl⟩ := pairableSlave_eq_some hp
      unfold notify
      split
      · exact .inr ⟨hb, ha, rfl⟩
      · exact .inl rfl
    · exact .inl rfl
  · exact .inl rfl

theorem exec_bus {i : Instr} {s t : State} (h : exec i s = .next t) : t.bus = s.bus := by
  rcases exec_next_cases h with ⟨-, hm⟩ | ⟨-, hm⟩ | hm
  · exact hm.bus_eq
  · obtain ⟨-, hbus, -⟩ := hm.bus_and_input_eq
    exact hbus
  · obtain ⟨⟨-, -, hbus⟩, -⟩ := hm.bus_and_input_eq
    exact hbus

/-- A record offers nothing but the `S.BEGIN` at the master's start. -/
theorem exec_input {i : Instr} {s t : State} (h : exec i s = .next t) :
    t.input = s.input ∨ s.bus.reference = true ∧ (i = .dmaStart .master ∨ ∃ now, i = .mEncode now) ∧
      s.slave.ch.active = true ∧ t.input = .record .slave (encode (.sBegin s.slave.ch.handle)) :: s.input := by
  rcases exec_next_cases h with ⟨-, hm⟩ | ⟨-, hm⟩ | hm
  · rcases hm.input_cases with e | ⟨hi, e⟩
    · exact .inl e
    · rcases beginOffered_cases s with hnone | ⟨hb, ha, hone⟩
      · exact .inl (by rw [e, hnone]; rfl)
      · exact .inr ⟨hb, hi, ha, by rw [e, hone]; rfl⟩
  · obtain ⟨-, -, hin⟩ := hm.bus_and_input_eq
    exact .inl hin
  · obtain ⟨-, hin⟩ := hm.bus_and_input_eq
    exact .inl hin

/-- Settles O51: a record is a move of its own side, and those of one side leave the other as it is. -/
theorem instancesShareNothing : Obligations.InstancesShareNothing := by
  intro i s t h
  refine ⟨fun hi => ?_, fun hi => ?_, fun ⟨ho, hr⟩ => ?_, exec_bus h, exec_input h⟩
  · rcases hi with ho | rfl
    · exact (masterMove_of_exec ho h).slave_eq
    · cases h; rfl
  · rcases hi with ho | rfl
    · have hm := slaveMove_of_exec ho h
      obtain ⟨hpair, -, -⟩ := hm.bus_and_input_eq
      exact ⟨hm.master_eq, hpair⟩
    · cases h; exact ⟨rfl, rfl⟩
  · have hm := openMove_of_exec ho h
    cases hm with
    | resetMaster => exact absurd rfl (hr .master)
    | resetSlave => exact absurd rfl (hr .slave)
    | answer => exact ⟨rfl, rfl, rfl, rfl, rfl⟩

/-! ### The race of completion and timeout (R55, R149, R185) -/

/-- The master after a completion that its FSM waits for (R143). -/
def masterCompleted (s : State) (h : Handle) (st : RawStatus) : State :=
  let s1 := deliverCompletion s .master h st
  s1.withMaster { s1.master with rawStatus := st, attStatus := .complete, state := .evaluating }

/-- The master without the pending expiry of its timer for `h` (R21). -/
def masterExpired (s : State) (h : Handle) : State :=
  s.withMaster { s.master with tmPending := removeHandle h s.master.tmPending }

/-- The master after the timeout of the transfer that its FSM waits for (R144). -/
def masterTimedOut (s : State) (h : Handle) : State :=
  let s2 := abortTransfer (masterExpired s h) .master h
  s2.withMaster { s2.master with attStatus := .timedOut, state := .evaluating }

theorem exec_mComplete_accepted {s : State} {h : Handle} (hf : faultFree s .master) (hp : h ∈ s.master.ch.pending)
    (ha : masterAwaits s h) (st : RawStatus) : exec (.mComplete h st) s = .next (masterCompleted s h st) :=
  (instanceStep_clean hf).trans (congrArg _ ((if_pos hp).trans (if_pos ha)))

theorem exec_mComplete_discarded {s : State} {h : Handle} (hf : faultFree s .master) (hp : h ∈ s.master.ch.pending)
    (hn : ¬masterAwaits s h) (st : RawStatus) :
    exec (.mComplete h st) s = .next (deliverCompletion s .master h st) :=
  (instanceStep_clean hf).trans (congrArg _ ((if_pos hp).trans (if_neg hn)))

theorem exec_mComplete_notPending {s : State} {h : Handle} (hf : faultFree s .master) (hp : h ∉ s.master.ch.pending)
    (st : RawStatus) : exec (.mComplete h st) s = .next s :=
  (instanceStep_clean hf).trans (congrArg _ (if_neg hp))

theorem exec_mTimeout_accepted {s : State} {h : Handle} (hf : faultFree s .master) (hp : h ∈ s.master.tmPending)
    (ha : masterAwaits s h) : exec (.mTimeout h) s = .next (masterTimedOut s h) := by
  obtain ⟨hs, rfl⟩ := ha
  exact (instanceStep_clean hf).trans (congrArg _ ((if_pos hp).trans (if_pos ⟨hs, rfl⟩)))

theorem exec_mTimeout_discarded {s : State} {h : Handle} (hf : faultFree s .master) (hp : h ∈ s.master.tmPending)
    (hn : ¬masterAwaits s h) : exec (.mTimeout h) s = .next (masterExpired s h) :=
  (instanceStep_clean hf).trans (congrArg _ ((if_pos hp).trans (if_neg hn)))

/-- In `M_Evaluating` the master waits for no transfer: the attempt is committed. -/
theorem not_masterAwaits_of_evaluating {s : State} (hs : s.master.state = .evaluating) (h : Handle) :
    ¬masterAwaits s h :=
  fun ha => by cases hs.symm.trans ha.1

/-- The delivery of a completion whose transfer is not active changes the channel only. -/
theorem deliverCompletion_ended {s : State} {r : Role} {h : Handle}
    (hn : ¬((s.channel r).active = true ∧ (s.channel r).handle = h)) (st : RawStatus) :
    deliverCompletion s r h st = s.withChannel r (channelDelivered (s.channel r) h) :=
  if_neg fun ⟨ha, hh, _⟩ => hn ⟨ha, hh⟩

/-- A late completion of a transfer that is not active, discarded or not delivered, changes the channel only. -/
theorem exec_mComplete_late {s : State} {h : Handle} (hf : faultFree s .master) (hs : s.master.state = .evaluating)
    (hn : ¬(s.master.ch.active = true ∧ s.master.ch.handle = h)) (st : RawStatus) :
    ∃ c, exec (.mComplete h st) s = .next (s.withChannel .master c) := by
  by_cases hp : h ∈ s.master.ch.pending
  · have e := deliverCompletion_ended (r := .master) hn st
    exact ⟨_, e ▸ exec_mComplete_discarded hf hp (not_masterAwaits_of_evaluating hs h) st⟩
  · exact ⟨s.master.ch, exec_mComplete_notPending hf hp st⟩

/-- A timeout aborts the transfer that it is for. -/
theorem masterTimedOut_inactive (s : State) (h : Handle) :
    ¬((masterTimedOut s h).master.ch.active = true ∧ (masterTimedOut s h).master.ch.handle = h) := by
  intro ⟨ha, hh⟩
  by_cases hc : s.master.ch.active = true ∧ s.master.ch.handle = h
  · rw [masterTimedOut, abortTransfer_master_active (s := masterExpired s h) hc.1 hc.2] at ha
    cases ha
  · rw [masterTimedOut, abortTransfer_inactive (s := masterExpired s h) (r := .master) hc] at ha hh
    exact hc ⟨ha, hh⟩

@[simp] theorem masterCompleted_tmPending (s : State) (h : Handle) (st : RawStatus) :
    (masterCompleted s h st).master.tmPending = s.master.tmPending := by
  obtain ⟨_, _, e, -⟩ := deliverCompletion_master_form s h st
  rw [masterCompleted, e]; rfl

@[simp] theorem masterCompleted_fault (s : State) (h : Handle) (st : RawStatus) :
    (masterCompleted s h st).master.fault = s.master.fault := by
  obtain ⟨_, _, e, -⟩ := deliverCompletion_master_form s h st
  rw [masterCompleted, e]; rfl

@[simp] theorem masterTimedOut_fault (s : State) (h : Handle) : (masterTimedOut s h).master.fault = s.master.fault := by
  obtain ⟨_, _, _, _, _, e, -⟩ := abortTransfer_master_form (masterExpired s h) h
  rw [masterTimedOut, e]; rfl

/-- Settles O57: the first event takes the FSM to `M_Evaluating`, where the second is discarded. -/
theorem firstOfCompletionAndTimeoutCommits : Obligations.FirstOfCompletionAndTimeoutCommits := by
  intro h st s hf hs hh hp htm
  have awaits : masterAwaits s h := ⟨hs, hh⟩
  constructor
  · have late := exec_mTimeout_discarded (s := masterCompleted s h st) ((masterCompleted_fault s h st).trans hf)
      (by rwa [masterCompleted_tmPending]) (not_masterAwaits_of_evaluating rfl h)
    exact ⟨_, _, exec_mComplete_accepted hf hp awaits st, late, rfl, rfl, rfl⟩
  · obtain ⟨c, late⟩ := exec_mComplete_late ((masterTimedOut_fault s h).trans hf) rfl (masterTimedOut_inactive s h) st
    exact ⟨_, _, exec_mTimeout_accepted hf htm awaits, late, rfl, rfl, rfl⟩

end Sys2Proof.Machine

/-! The record format of 30_encoding.md (R63 to R70, R72). Each operand field is described once, by the bytes from which it
reads a value; the description of a whole record follows, and both directions of the round trip are read off from it. -/

namespace Sys2Proof

/-! ### Enumerations: every code is read back, and only from its own byte (R65 to R68) -/

theorem roleOfByte?_eq_some {b : Byte} {r : Role} : roleOfByte? b = some r ↔ b = roleByte r := by
  constructor
  · intro h
    unfold roleOfByte? at h
    split_ifs at h with h0 h1 <;> cases h
    · exact h0
    · exact h1
  · rintro rfl
    cases r <;> rfl

theorem rawStatusOfByte?_eq_some {b : Byte} {st : RawStatus} : rawStatusOfByte? b = some st ↔ b = rawStatusByte st := by
  constructor
  · intro h
    unfold rawStatusOfByte? at h
    split_ifs at h with h0 h1 <;> cases h
    · exact h0
    · exact h1
  · rintro rfl
    cases st <;> rfl

theorem outcomeOfCode?_outcomeCode (o : TransferOutcome) : outcomeOfCode? (outcomeCode o) = some o := by
  cases o <;> rfl

theorem outcomeOfCode?_eq_some {c : BitVec 3} {o : TransferOutcome} : outcomeOfCode? c = some o ↔ c = outcomeCode o := by
  constructor
  · intro h
    unfold outcomeOfCode? at h
    split_ifs at h <;> cases h <;> assumption
  · rintro rfl
    exact outcomeOfCode?_outcomeCode o

/-- A byte whose high five bits are clear is its low three. -/
theorem eq_setWidth_of_high_zero {b : Byte} (h : b.extractLsb' 3 5 = 0) : b = (b.extractLsb' 0 3).setWidth 8 := by
  have hb : b.toNat < 256 := b.isLt
  have hhigh : b.toNat / 8 = 0 := by
    have := congrArg BitVec.toNat h
    simp [BitVec.extractLsb'_toNat, Nat.shiftRight_eq_div_pow] at this
    omega
  apply BitVec.eq_of_toNat_eq
  simp [BitVec.extractLsb'_toNat]
  omega

theorem outcomeOfByte?_eq_some {b : Byte} {o : TransferOutcome} : outcomeOfByte? b = some o ↔ b = outcomeByte o := by
  constructor
  · intro h
    unfold outcomeOfByte? at h
    split_ifs at h with hhigh
    rw [eq_setWidth_of_high_zero hhigh, outcomeOfCode?_eq_some.1 h]
    rfl
  · rintro rfl
    cases o <;> rfl

/-! ### Operand fields: what each reads, and from which bytes (R64; log 2) -/

theorem readBytes_eq_ok_iff {n : Nat} {bs rest : List Byte} {p : Bytes n} :
    readBytes n bs = .ok (p, rest) ↔ bs = p.data ++ rest :=
  ⟨readBytes_eq_ok, fun h => h ▸ readBytes_append p rest⟩

theorem readByte_eq_ok_iff {bs rest : List Byte} {b : Byte} : readByte bs = .ok (b, rest) ↔ bs = b :: rest :=
  ⟨readByte_eq_ok, fun h => h ▸ rfl⟩

theorem readWord_eq_ok_iff {bs rest : List Byte} {w : Word32} : readWord bs = .ok (w, rest) ↔ bs = le32 w ++ rest :=
  ⟨readWord_eq_ok, fun h => h ▸ readWord_append w rest⟩

theorem readSequence_eq_ok_iff {bs l rest : List Byte} :
    readSequence bs = .ok (l, rest) ↔ bs = sequenceBytes l ++ rest :=
  ⟨readSequence_eq_ok, fun h => h ▸ readSequence_append l rest⟩

/-- A natural is read exactly from its four bytes, and only one that fits in them. -/
theorem readNat_eq_ok_iff {bs rest : List Byte} {n : Nat} :
    readNat bs = .ok (n, rest) ↔ n < 2 ^ 32 ∧ bs = natBytes n ++ rest := by
  simp only [readNat, fieldThen_eq_ok, fieldDone_eq_ok, readWord_eq_ok_iff]
  constructor
  · rintro ⟨w, _, rfl, rfl, rfl⟩
    exact ⟨w.isLt, by rw [natBytes, BitVec.ofNat_toNat, BitVec.setWidth_eq]⟩
  · rintro ⟨hn, rfl⟩
    exact ⟨BitVec.ofNat 32 n, rest, rfl, Nat.mod_eq_of_lt hn, rfl⟩

/-- An enumeration is read exactly from the byte of each of its values. -/
theorem readEnum_eq_ok_iff {α : Type} {f : Byte → Option α} {byte : α → Byte} (hf : ∀ {b a}, f b = some a ↔ b = byte a)
    {bs rest : List Byte} {a : α} : readEnum f bs = .ok (a, rest) ↔ bs = byte a :: rest := by
  constructor
  · intro h
    obtain ⟨b, hb, rfl⟩ := readEnum_eq_ok h
    rw [hf.1 hb]
  · rintro rfl
    exact readEnum_cons (hf.2 rfl) rest

theorem readBufferPair_eq_ok_iff {bs rest : List Byte} {r : Role} :
    readBufferPair bs = .ok (r, rest) ↔ bs = roleByte r :: roleByte r :: rest := by
  simp only [readBufferPair, readRole, fieldThen_eq_ok, readEnum_eq_ok_iff roleOfByte?_eq_some]
  constructor
  · rintro ⟨x, _, rfl, y, mid, rfl, h⟩
    split_ifs at h with hxy
    obtain ⟨rfl, rfl⟩ := fieldDone_eq_ok.1 h
    rw [hxy]
  · rintro rfl
    exact ⟨r, _, rfl, r, rest, rfl, by rw [if_pos rfl]; rfl⟩

theorem readOptionalPayload_eq_ok_iff {bs rest : List Byte} {q : Option Payload} :
    readOptionalPayload bs = .ok (q, rest) ↔ bs = encodeOperands (.mRetry q) ++ rest := by
  simp only [readOptionalPayload, fieldThen_eq_ok, readByte_eq_ok_iff]
  constructor
  · rintro ⟨b, mid, rfl, h⟩
    split_ifs at h with h0 h1
    · obtain ⟨rfl, rfl⟩ := fieldDone_eq_ok.1 h
      rw [h0]; rfl
    · simp only [fieldThen_eq_ok, fieldDone_eq_ok, readBytes_eq_ok_iff] at h
      obtain ⟨p, _, rfl, rfl, rfl⟩ := h
      rw [h1]; rfl
  · rintro rfl
    cases q with
    | none => exact ⟨0, rest, rfl, rfl⟩
    | some p =>
      refine ⟨1, p.data ++ rest, rfl, ?_⟩
      rw [if_neg (by decide), if_pos rfl, fieldThen_eq_ok]
      exact ⟨p, rest, readBytes_append p rest, rfl⟩

/-! ### Operand rows: the operands of one record, by the shape of its row in R64 -/

/-- A row of one operand reads what its field reads. -/
theorem fieldRow_eq_ok {α : Type} {f : OperandField α} {mk : α → Instr} {bs rest : List Byte} {i : Instr} :
    fieldThen f (fun a => fieldDone (mk a)) bs = .ok (i, rest) ↔ ∃ a, f bs = .ok (a, rest) ∧ i = mk a := by
  simp only [fieldThen_eq_ok, fieldDone_eq_ok]
  exact ⟨fun ⟨a, _, hf, hi, hr⟩ => ⟨a, hr ▸ hf, hi.symm⟩, fun ⟨a, hf, hi⟩ => ⟨a, rest, hf, hi.symm, rfl⟩⟩

/-- A row of a handle and a `raw_status`. -/
theorem completionRow_eq_ok {mk : Handle → RawStatus → Instr} {bs rest : List Byte} {i : Instr} :
    fieldThen readWord (fun h => fieldThen (readEnum rawStatusOfByte?) fun st => fieldDone (mk h st)) bs = .ok (i, rest) ↔
      ∃ h st, bs = le32 h ++ [rawStatusByte st] ++ rest ∧ i = mk h st := by
  rw [fieldThen_eq_ok]
  simp only [fieldRow_eq_ok, readWord_eq_ok_iff, readEnum_eq_ok_iff rawStatusOfByte?_eq_some]
  constructor
  · rintro ⟨h, _, rfl, st, rfl, rfl⟩
    exact ⟨h, st, by simp, rfl⟩
  · rintro ⟨h, st, rfl, rfl⟩
    exact ⟨h, _, List.append_assoc _ _ _, st, rfl, rfl⟩

/-- The row of `FC.DECODE`. -/
theorem readSequenceAndLength_eq_ok {bs rest : List Byte} {i : Instr} :
    readSequenceAndLength bs = .ok (i, rest) ↔
      ∃ buf len, len < 2 ^ 32 ∧ bs = sequenceBytes buf ++ natBytes len ++ rest ∧ i = .fcDecode buf len := by
  rw [readSequenceAndLength, fieldThen_eq_ok]
  simp only [fieldRow_eq_ok, readSequence_eq_ok_iff, readNat_eq_ok_iff]
  constructor
  · rintro ⟨buf, _, rfl, len, ⟨hlen, rfl⟩, rfl⟩
    exact ⟨buf, len, hlen, (List.append_assoc _ _ _).symm, rfl⟩
  · rintro ⟨buf, len, hlen, rfl, rfl⟩
    exact ⟨buf, _, List.append_assoc _ _ _, len, ⟨hlen, rfl⟩, rfl⟩

/-- The row of `RP.DECIDE`. -/
theorem decideRow_eq_ok {bs rest : List Byte} {i : Instr} :
    fieldThen (readEnum outcomeOfByte?)
        (fun o => fieldThen readNat fun a => fieldThen readNat fun m => fieldDone (.rpDecide o a m)) bs = .ok (i, rest) ↔
      ∃ o a m, (a < 2 ^ 32 ∧ m < 2 ^ 32) ∧ bs = outcomeByte o :: (natBytes a ++ natBytes m) ++ rest ∧
        i = .rpDecide o a m := by
  constructor
  · intro h
    obtain ⟨o, _, ho, h⟩ := fieldThen_eq_ok.1 h
    obtain ⟨a, _, readA, h⟩ := fieldThen_eq_ok.1 h
    obtain ⟨m, readM, rfl⟩ := fieldRow_eq_ok.1 h
    obtain rfl := (readEnum_eq_ok_iff outcomeOfByte?_eq_some).1 ho
    obtain ⟨ha, rfl⟩ := readNat_eq_ok_iff.1 readA
    obtain ⟨hm, rfl⟩ := readNat_eq_ok_iff.1 readM
    exact ⟨o, a, m, ⟨ha, hm⟩, congrArg _ (List.append_assoc _ _ _).symm, rfl⟩
  · rintro ⟨o, a, m, ⟨ha, hm⟩, rfl, rfl⟩
    have readA := readNat_eq_ok_iff.2 ⟨ha, List.append_assoc (natBytes a) (natBytes m) rest⟩
    have readM : readNat (natBytes m ++ rest) = .ok (m, rest) := readNat_eq_ok_iff.2 ⟨hm, rfl⟩
    exact fieldThen_eq_ok.2 ⟨o, _, (readEnum_eq_ok_iff outcomeOfByte?_eq_some).2 rfl,
      fieldThen_eq_ok.2 ⟨a, _, readA, fieldRow_eq_ok.2 ⟨m, readM, rfl⟩⟩⟩

/-! ### Records -/

/-- The twenty codes of R64. -/
def listedCodes : List Byte :=
  [0x00, 0x10, 0x20, 0x21, 0x30, 0x31, 0x40, 0x41, 0x42, 0x43, 0x44, 0x45, 0x50, 0x51, 0x52, 0x53, 0x54, 0x55, 0x56, 0x60]

/-- A code that R64 does not list is refused by name, whatever follows it (R70). -/
theorem decodeOperands_of_not_listed {code : Byte} (h : code ∉ listedCodes) (dest : Role) (bs : List Byte) :
    decodeOperands dest code bs = .error (.reservedCode code) := by
  simp only [listedCodes, List.mem_cons, List.not_mem_nil, or_false, not_or] at h
  simp only [decodeOperands, h, if_false]

theorem listed_of_decodeOperands_eq_ok {dest : Role} {code : Byte} {bs rest : List Byte} {i : Instr}
    (h : decodeOperands dest code bs = .ok (i, rest)) : code ∈ listedCodes := by
  by_contra hn
  rw [decodeOperands_of_not_listed hn] at h
  cases h

theorem wellFormed_rpDecide {o : TransferOutcome} {a m : Nat} :
    wellFormed (.rpDecide o a m) = true ↔ a < 2 ^ 32 ∧ m < 2 ^ 32 := by
  simp only [wellFormed, Bool.and_eq_true, decide_eq_true_eq]
  rfl

/-- `i` is the record, delivered to `dest`, of the code `code` and the operand bytes before `rest` in `bs`. -/
structure IsRecord (dest : Role) (code : Byte) (bs : List Byte) (i : Instr) (rest : List Byte) : Prop where
  code_eq : code = opcode i
  wf : wellFormed i = true
  dest_eq : addressee i dest = dest
  bytes_eq : bs = encodeOperands i ++ rest

theorem isRecord_of_noOperands {dest : Role} {code : Byte} {bs rest : List Byte} {i j : Instr}
    (h : fieldDone j bs = .ok (i, rest)) (hj : IsRecord dest code bs j bs) : IsRecord dest code bs i rest := by
  obtain ⟨rfl, rfl⟩ := fieldDone_eq_ok.1 h
  exact hj

theorem isRecord_of_fieldRow {α : Type} {f : OperandField α} {mk : α → Instr} {dest : Role} {code : Byte}
    {bs rest : List Byte} {i : Instr} (h : fieldThen f (fun a => fieldDone (mk a)) bs = .ok (i, rest))
    (hmk : ∀ a, f bs = .ok (a, rest) → IsRecord dest code bs (mk a) rest) : IsRecord dest code bs i rest := by
  obtain ⟨a, ha, rfl⟩ := fieldRow_eq_ok.1 h
  exact hmk a ha

theorem isRecord_of_completionRow {mk : Handle → RawStatus → Instr} {dest : Role} {code : Byte} {bs rest : List Byte}
    {i : Instr}
    (h : fieldThen readWord (fun h => fieldThen (readEnum rawStatusOfByte?) fun st => fieldDone (mk h st)) bs =
      .ok (i, rest))
    (hmk : ∀ h st, IsRecord dest code (le32 h ++ [rawStatusByte st] ++ rest) (mk h st) rest) :
    IsRecord dest code bs i rest := by
  obtain ⟨w, st, rfl, rfl⟩ := completionRow_eq_ok.1 h
  exact hmk w st

/-- One row for each listed code: what its fields read is that row's record. -/
theorem isRecord_of_decodeOperands {dest : Role} {code : Byte} {bs rest : List Byte} {i : Instr}
    (h : decodeOperands dest code bs = .ok (i, rest)) : IsRecord dest code bs i rest := by
  have hcode := listed_of_decodeOperands_eq_ok h
  simp only [listedCodes, List.mem_cons, List.not_mem_nil, or_false] at hcode
  rcases hcode with rfl | rfl | rfl | rfl | rfl | rfl | rfl | rfl | rfl | rfl | rfl | rfl | rfl | rfl | rfl | rfl | rfl | rfl
    | rfl | rfl
  · -- SYS.RESET
    exact isRecord_of_noOperands h ⟨rfl, rfl, rfl, rfl⟩
  · -- CRC.COMPUTE
    exact isRecord_of_fieldRow h fun _ hp => ⟨rfl, rfl, rfl, readBytes_eq_ok hp⟩
  · -- FC.ENCODE
    exact isRecord_of_fieldRow h fun _ hp => ⟨rfl, rfl, rfl, readBytes_eq_ok hp⟩
  · -- FC.DECODE
    obtain ⟨buf, len, hlen, hb, rfl⟩ := readSequenceAndLength_eq_ok.1 h
    exact ⟨rfl, decide_eq_true hlen, rfl, hb⟩
  · -- DMA.START
    exact isRecord_of_fieldRow h fun _ hr => ⟨rfl, rfl, rfl, readBufferPair_eq_ok_iff.1 hr⟩
  · -- DMA.ABORT
    exact isRecord_of_fieldRow h fun _ hw => ⟨rfl, rfl, rfl, readWord_eq_ok hw⟩
  · -- S.PROVIDE
    exact isRecord_of_fieldRow h fun _ hp => ⟨rfl, rfl, rfl, readBytes_eq_ok hp⟩
  · -- S.BEGIN
    exact isRecord_of_fieldRow h fun _ hw => ⟨rfl, rfl, rfl, readWord_eq_ok hw⟩
  · -- S.COMPLETE
    exact isRecord_of_completionRow h fun _ _ => ⟨rfl, rfl, rfl, rfl⟩
  · -- S.REPORT
    exact isRecord_of_noOperands h ⟨rfl, rfl, rfl, rfl⟩
  · -- S.ARM_TIMEOUT
    exact isRecord_of_fieldRow h fun _ hw => ⟨rfl, rfl, rfl, readWord_eq_ok hw⟩
  · -- S.TRANSPORT_ABORT
    exact isRecord_of_noOperands h ⟨rfl, rfl, rfl, rfl⟩
  · -- M.SEND
    exact isRecord_of_fieldRow h fun _ hp => ⟨rfl, rfl, rfl, readBytes_eq_ok hp⟩
  · -- M.ENCODE
    exact isRecord_of_fieldRow h fun _ hw => ⟨rfl, rfl, rfl, readWord_eq_ok hw⟩
  · -- M.COMPLETE
    exact isRecord_of_completionRow h fun _ _ => ⟨rfl, rfl, rfl, rfl⟩
  · -- M.TIMEOUT
    exact isRecord_of_fieldRow h fun _ hw => ⟨rfl, rfl, rfl, readWord_eq_ok hw⟩
  · -- M.EVALUATE
    exact isRecord_of_noOperands h ⟨rfl, rfl, rfl, rfl⟩
  · -- M.RETRY
    exact isRecord_of_fieldRow h fun _ hq => ⟨rfl, rfl, rfl, readOptionalPayload_eq_ok_iff.1 hq⟩
  · -- M.CANCEL
    exact isRecord_of_noOperands h ⟨rfl, rfl, rfl, rfl⟩
  · -- RP.DECIDE
    obtain ⟨o, a, m, hfit, hb, rfl⟩ := decideRow_eq_ok.1 h
    exact ⟨rfl, wellFormed_rpDecide.2 hfit, rfl, hb⟩

/-- The other direction, one case for each record: its row reads it back. -/
theorem decodeOperands_of_isRecord {dest : Role} {code : Byte} {bs rest : List Byte} {i : Instr}
    (h : IsRecord dest code bs i rest) : decodeOperands dest code bs = .ok (i, rest) := by
  obtain ⟨rfl, hwf, hdest, rfl⟩ := h
  cases i with
  | sysReset r => obtain rfl : r = dest := hdest; rfl
  | crcCompute p => exact fieldRow_eq_ok.2 ⟨p, readBytes_append p rest, rfl⟩
  | fcEncode p => exact fieldRow_eq_ok.2 ⟨p, readBytes_append p rest, rfl⟩
  | fcDecode buf len => exact readSequenceAndLength_eq_ok.2 ⟨buf, len, of_decide_eq_true hwf, rfl, rfl⟩
  | dmaStart r => exact fieldRow_eq_ok.2 ⟨r, readBufferPair_eq_ok_iff.2 rfl, rfl⟩
  | dmaAbort r h => obtain rfl : r = dest := hdest; exact fieldRow_eq_ok.2 ⟨h, readWord_append h rest, rfl⟩
  | sProvide p => exact fieldRow_eq_ok.2 ⟨p, readBytes_append p rest, rfl⟩
  | sBegin h => exact fieldRow_eq_ok.2 ⟨h, readWord_append h rest, rfl⟩
  | sComplete h st => exact completionRow_eq_ok.2 ⟨h, st, rfl, rfl⟩
  | sReport => rfl
  | sArmTimeout h => exact fieldRow_eq_ok.2 ⟨h, readWord_append h rest, rfl⟩
  | sTransportAbort => rfl
  | mSend p => exact fieldRow_eq_ok.2 ⟨p, readBytes_append p rest, rfl⟩
  | mEncode now => exact fieldRow_eq_ok.2 ⟨now, readWord_append now rest, rfl⟩
  | mComplete h st => exact completionRow_eq_ok.2 ⟨h, st, rfl, rfl⟩
  | mTimeout h => exact fieldRow_eq_ok.2 ⟨h, readWord_append h rest, rfl⟩
  | mEvaluate => rfl
  | mRetry q => exact fieldRow_eq_ok.2 ⟨q, readOptionalPayload_eq_ok_iff.2 rfl, rfl⟩
  | mCancel => rfl
  | rpDecide o a m => exact decideRow_eq_ok.2 ⟨o, a, m, wellFormed_rpDecide.1 hwf, rfl, rfl⟩

/-- What decodes is exactly the bytes of a well-formed record, delivered to its addressee. -/
theorem decode_eq_ok_iff {dest : Role} {bytes rest : List Byte} {i : Instr} :
    decode dest bytes = .ok (i, rest) ↔ wellFormed i = true ∧ addressee i dest = dest ∧ bytes = encode i ++ rest := by
  rw [decode, fieldThen_eq_ok]
  constructor
  · rintro ⟨code, ops, hcode, hops⟩
    obtain ⟨rfl, hwf, hdest, rfl⟩ := isRecord_of_decodeOperands hops
    exact ⟨hwf, hdest, readByte_eq_ok hcode⟩
  · rintro ⟨hwf, hdest, rfl⟩
    exact ⟨opcode i, encodeOperands i ++ rest, rfl, decodeOperands_of_isRecord ⟨rfl, hwf, hdest, rfl⟩⟩

/-- A record given to its addressee is where it has to be. -/
theorem addressee_addressee (i : Instr) (dest : Role) : addressee i (addressee i dest) = addressee i dest := by
  cases i <;> rfl

end Sys2Proof

namespace Sys2Proof.Machine

/-! ### The codes of the registers (R65, R66, R68) -/

theorem mStateOfCode?_mStateCode (x : MState) : mStateOfCode? (mStateCode x) = some x := by
  cases x <;> rfl

theorem sStateOfCode_sStateCode (x : SState) : sStateOfCode (sStateCode x) = x := by
  cases x <;> rfl

theorem attStatusOfCode?_attStatusCode (x : AttemptStatus) : attStatusOfCode? (attStatusCode x) = some x := by
  cases x <;> rfl

theorem decisionOfCode_decisionCode (x : Decision) : decisionOfCode (decisionCode x) = x := by
  cases x <;> rfl

/-! ### The step on bytes that are no record (R70) -/

theorem step_undecodable {s : State} {dest : Role} {bytes : List Byte} {later : List Input} {e : DecodeError}
    (hc : configLegal s = true) (hin : s.input = .record dest bytes :: later) (hd : decode dest bytes = .error e) :
    step s = .refused (refuseRecord e) := by
  simp [step, hc, hin, hd]

/-! ### The obligations of 30_encoding.md -/

/-- Settles O1: a record's bytes are described by `decode_eq_ok_iff`, read from right to left. -/
theorem decodeOfEncode : Obligations.DecodeOfEncode :=
  fun i dest _ hwf => decode_eq_ok_iff.2 ⟨hwf, addressee_addressee i dest, rfl⟩

/-- Settles O2: `decode_eq_ok_iff` from left to right. -/
theorem encodeOfDecode : Obligations.EncodeOfDecode := by
  intro dest bytes i rest h
  obtain ⟨hwf, hdest, hbytes⟩ := decode_eq_ok_iff.1 h
  exact ⟨hwf, hdest, hbytes.symm⟩

/-- Settles O3: no row of the decoder takes such a code, and the step refuses what the decoder does. -/
theorem reservedCodeRefused : Obligations.ReservedCodeRefused :=
  fun _ dest _ bytes _ hc hin hcode => step_undecodable hc hin (decodeOperands_of_not_listed hcode dest bytes)

/-- Settles O4: the first five are what the encoder writes, the fourth with one byte after it; the last holds the reserved
outcome 7. -/
theorem sampleRecordsDecode : Obligations.SampleRecordsDecode :=
  ⟨decodeOfEncode (.sysReset .slave) .slave [] rfl,
    decodeOfEncode (.dmaAbort .master 0x80000102) .master [] rfl,
    decodeOfEncode (.sComplete 7 .error) .slave [] rfl,
    decodeOfEncode .mEvaluate .master [0x56] rfl,
    decodeOfEncode (.rpDecide .hardwareFault 1 256) .master [] rfl,
    rfl⟩

/-- Settles O5: the codes by evaluation, each reading back by its own lemma. -/
theorem enumerationCodes : Obligations.EnumerationCodes :=
  ⟨⟨rfl, rfl, rfl, rfl, rfl, rfl, rfl⟩, mStateOfCode?_mStateCode, rfl,
    ⟨rfl, rfl, rfl, rfl⟩, sStateOfCode_sStateCode,
    ⟨rfl, rfl, rfl, rfl, rfl⟩, attStatusOfCode?_attStatusCode, rfl, rfl, rfl,
    ⟨rfl, rfl, rfl, rfl, rfl, rfl, rfl⟩, outcomeOfCode?_outcomeCode, rfl,
    ⟨rfl, rfl⟩, fun _ => rawStatusOfByte?_eq_some.2 rfl,
    ⟨rfl, rfl⟩, decisionOfCode_decisionCode⟩

/-- Settles O41: the branch of `S.PROVIDE` outside `S_Idle`, on a slave without a fault. -/
theorem sProvideBusy : Obligations.SProvideBusy :=
  fun _ _ hf hs => (instanceStep_clean hf).trans (congrArg _ (if_neg hs))

end Sys2Proof.Machine

/-! The CRC engine (40_crc_engine.md). The shift step of R81 is linear over exclusive or and loses no bit, and a word that
enters `k` steps early, shifted `k` places up, comes out as it is: the table-driven form (R85), the detection of a single
changed bit (R88) and the residue of a well-formed frame (R87) follow from these three facts. -/

namespace Sys2Proof.Machine

/-! ### The shift steps are linear (R81, R85) -/

theorem crcShift_xor (a b : Word32) : crcShift (a ^^^ b) = crcShift a ^^^ crcShift b := by
  unfold crcShift
  rw [BitVec.getLsbD_xor, BitVec.ushiftRight_xor_distrib]
  have hcancel : a >>> 1 ^^^ b >>> 1 = (a >>> 1 ^^^ crcPoly) ^^^ (b >>> 1 ^^^ crcPoly) := by
    calc a >>> 1 ^^^ b >>> 1 = (a >>> 1 ^^^ b >>> 1) ^^^ (crcPoly ^^^ crcPoly) := by simp
      _ = (a >>> 1 ^^^ crcPoly) ^^^ (b >>> 1 ^^^ crcPoly) := by ac_rfl
  cases a.getLsbD 0 <;> cases b.getLsbD 0
  case false.false => rfl
  case false.true => exact BitVec.xor_assoc ..
  case true.false => simp; ac_rfl
  case true.true => exact hcancel

theorem crcShifts_xor (k : Nat) (a b : Word32) : crcShifts k (a ^^^ b) = crcShifts k a ^^^ crcShifts k b := by
  induction k generalizing a b with
  | zero => rfl
  | succ k ih => rw [crcShifts_succ, crcShift_xor, ih]; rfl

/-! ### The shift steps lose no bit (R88) -/

/-- The polynomial has its top bit set, so the bit that a step shifts out can be read back. -/
theorem getLsbD_31_crcShift (c : Word32) : (crcShift c).getLsbD 31 = c.getLsbD 0 := by
  unfold crcShift
  cases h : c.getLsbD 0 <;> simp [crcPoly]

theorem crcShift_injective : Function.Injective crcShift := by
  intro a b h
  have hlow : a.getLsbD 0 = b.getLsbD 0 := by rw [← getLsbD_31_crcShift, h, getLsbD_31_crcShift]
  have hhigh : a >>> 1 = b >>> 1 := by
    unfold crcShift at h
    rw [hlow] at h
    split at h
    · exact (BitVec.xor_left_inj _).1 h
    · exact h
  apply BitVec.eq_of_getLsbD_eq
  intro i _
  cases i with
  | zero => exact hlow
  | succ i => simpa [Nat.add_comm] using congrArg (·.getLsbD i) hhigh

theorem crcShifts_injective (k : Nat) : Function.Injective (crcShifts k) := by
  induction k with
  | zero => exact fun _ _ h => h
  | succ k ih => exact ih.comp crcShift_injective

/-! ### A word that enters early (R85, R87) -/

theorem crcShifts_of_low_zero {k : Nat} {c : Word32} (h : ∀ i < k, c.getLsbD i = false) : crcShifts k c = c >>> k := by
  induction k generalizing c with
  | zero => simp
  | succ k ih =>
    have hstep : crcShift c = c >>> 1 := if_neg (by rw [h 0 (Nat.succ_pos k)]; exact Bool.false_ne_true)
    have hrest : ∀ i < k, (c >>> 1).getLsbD i = false := fun i hi => by
      rw [BitVec.getLsbD_ushiftRight]; exact h _ (by omega)
    rw [crcShifts_succ, hstep, ih hrest, ← BitVec.shiftRight_add, Nat.add_comm]

/-- `k` steps undo a shift by `k` places that loses no bit. -/
theorem crcShifts_shiftLeft {k : Nat} {w : Word32} (h : w <<< k >>> k = w) : crcShifts k (w <<< k) = w := by
  rw [crcShifts_of_low_zero fun i hi => by simp [hi], h]

/-- A word is its high 24 bits in their places and its low byte. -/
theorem eq_high_xor_low (w : Word32) : w = w >>> 8 <<< 8 ^^^ (w.setWidth 8).setWidth 32 := by
  apply BitVec.eq_of_getLsbD_eq
  intro i hi
  by_cases hlow : i < 8
  · simp [hlow, hi]
  · simp [hlow, hi, show 8 + (i - 8) = i by omega]

/-- The table-driven byte step: the high 24 bits only move, the low 8 go through the table. -/
theorem crcByteTable_eq_crcByte (c : Word32) (b : Byte) : crcByteTable c b = crcByte c b := by
  have hmoves (x : Word32) : x >>> 8 <<< 8 >>> 8 = x >>> 8 := by bv_omega
  have hbyte : (c ^^^ b.setWidth 32) >>> 8 = c >>> 8 := by
    ext i _; simp
  unfold crcByte
  rw [eq_high_xor_low (c ^^^ b.setWidth 32), crcShifts_xor, crcShifts_shiftLeft (hmoves _), hbyte]
  rfl

theorem crc32BytesTable_eq_crc32Bytes (B : List Byte) : crc32BytesTable B = crc32Bytes B := by
  rw [crc32BytesTable, crc32Bytes, funext₂ crcByteTable_eq_crcByte]

/-- A byte that enters after `k` steps could have entered at once, `k` places up. -/
theorem crcByte_crcShifts {k : Nat} (hk : k ≤ 24) (c : Word32) (b : Byte) :
    crcByte (crcShifts k c) b = crcShifts (k + 8) (c ^^^ b.setWidth 32 <<< k) := by
  have hfits : b.setWidth 32 <<< k >>> k = b.setWidth 32 := by
    ext i hi; simp; grind
  rw [crcByte, crcShifts_add, crcShifts_xor k, crcShifts_shiftLeft hfits]

/-- A word is its four bytes, each in its place. -/
theorem eq_xor_bytes (w : Word32) :
    w = (w.extractLsb' 0 8).setWidth 32 ^^^ (w.extractLsb' 8 8).setWidth 32 <<< 8 ^^^
      (w.extractLsb' 16 8).setWidth 32 <<< 16 ^^^ (w.extractLsb' 24 8).setWidth 32 <<< 24 := by
  apply BitVec.eq_of_getLsbD_eq
  intro i hi
  simp only [BitVec.getLsbD_xor, BitVec.getLsbD_setWidth, BitVec.getLsbD_shiftLeft, BitVec.getLsbD_extractLsb']
  interval_cases i <;> simp

theorem foldl_crcByte_four (c : Word32) (b0 b1 b2 b3 : Byte) :
    [b0, b1, b2, b3].foldl crcByte c = crcShifts 32
      (c ^^^ b0.setWidth 32 ^^^ b1.setWidth 32 <<< 8 ^^^ b2.setWidth 32 <<< 16 ^^^ b3.setWidth 32 <<< 24) :=
  calc crcByte (crcByte (crcByte (crcShifts 8 (c ^^^ b0.setWidth 32)) b1) b2) b3
    _ = _ := by rw [crcByte_crcShifts (by omega), crcByte_crcShifts (by omega), crcByte_crcShifts (by omega)]

/-- The four bytes of a word, least significant first, enter as the word itself. -/
theorem foldl_crcByte_le32 (c w : Word32) : (le32 w).foldl crcByte c = crcShifts 32 (c ^^^ w) := by
  conv_rhs => rw [eq_xor_bytes w]
  rw [le32, foldl_crcByte_four]
  simp only [BitVec.xor_assoc]

/-- The residue of CRC-32: a byte sequence followed by its own CRC. -/
theorem crc32Bytes_append_crc (B : List Byte) : crc32Bytes (B ++ le32 (crc32Bytes B)) = 0x2144DF1C := by
  have hcancel (c : Word32) : c ^^^ (c ^^^ crcFinalXor) = crcFinalXor := by
    rw [← BitVec.xor_assoc, BitVec.xor_self, BitVec.zero_xor]
  conv_lhs => unfold crc32Bytes
  rw [List.foldl_append, foldl_crcByte_le32, hcancel]
  decide +kernel

/-! ### A changed byte (R88) -/

theorem crcByte_left_injective (b : Byte) : Function.Injective (crcByte · b) :=
  fun _ _ h => (BitVec.xor_left_inj _).1 (crcShifts_injective 8 h)

theorem crcByte_right_injective (c : Word32) : Function.Injective (crcByte c) := by
  intro a b h
  have hwide := (BitVec.xor_right_inj _).1 (crcShifts_injective 8 h)
  simpa using congrArg (BitVec.setWidth 8) hwide

theorem foldl_crcByte_injective (B : List Byte) : Function.Injective (B.foldl crcByte) := by
  induction B with
  | nil => exact fun _ _ h => h
  | cons b bs ih => exact ih.comp (crcByte_left_injective b)

/-- One byte changed changes the register, and no later byte hides it. -/
theorem foldl_crcByte_modify_ne {g : Byte → Byte} (hg : ∀ b, g b ≠ b) {B : List Byte} {i : Nat} (hi : i < B.length)
    (c : Word32) : (B.modify i g).foldl crcByte c ≠ B.foldl crcByte c := by
  induction B generalizing i c with
  | nil => cases hi
  | cons b bs ih =>
    cases i with
    | zero => exact fun h => hg b (crcByte_right_injective c (foldl_crcByte_injective bs h))
    | succ i => exact ih (Nat.lt_of_succ_lt_succ hi) (crcByte c b)

theorem xor_bit_ne {j : Nat} (hj : j < 8) (b : Byte) : b ^^^ 1#8 <<< j ≠ b := by
  intro h
  have hbit := congrArg (·.getLsbD j) h
  simp [hj] at hbit

/-! ### The frame as payload and CRC field (R60, R62) -/

theorem frame_data_eq (f : Frame) : f.data = (framePayload f).data ++ le32 (frameCrc f) := by
  have htail : f.data.drop 256 = le32 (frameCrc f) := by
    rw [frameCrc, le32_unle32]
    apply List.ext_getElem
    · simp [f.len]
    · intro i h1 h2
      replace h2 : i < 4 := h2
      interval_cases i <;> simp [frameByte, f.len]
  rw [framePayload_data, ← htail, List.take_append_drop]

/-! ### `CRC.COMPUTE` (R81, R82) -/

theorem crcShifts_eq_iterate (k : Nat) : crcShifts k = crcShift^[k] := by
  induction k with
  | zero => rfl
  | succ k ih => exact funext fun c => congrFun ih (crcShift c)

theorem exec_crcCompute (p : Payload) (s : State) :
    exec (.crcCompute p) s = .next (s.emit (.crc (crcCompute p))) := rfl

/-! ### The obligations of 40_crc_engine.md -/

/-- Settles O11: the eight shift steps are an iterate, the rest is the definition of the engine. -/
theorem crcComputeResult : Obligations.CrcComputeResult := by
  intro p s shift byte
  have hbyte : crcByte = byte := funext₂ fun c b => congrFun (crcShifts_eq_iterate 8) (c ^^^ b.setWidth 32)
  rw [exec_crcCompute, crcCompute, crc32Bytes, hbyte]
  rfl

/-- Settles O12: the two byte steps are one function, and so are the two folds. -/
theorem tableFormAgrees : Obligations.TableFormAgrees :=
  ⟨crcByteTable_eq_crcByte, crc32BytesTable_eq_crc32Bytes⟩

/-- Settles O13: a flipped bit is a changed byte. -/
theorem singleBitChangesCrc : Obligations.SingleBitChangesCrc :=
  fun p _ _ hi hj h =>
    foldl_crcByte_modify_ne (xor_bit_ne hj) (p.len.symm ▸ hi) crcInit ((BitVec.xor_left_inj _).1 h)

/-- Settles O15: a well-formed frame is its payload followed by the CRC of it. -/
theorem residueOfWellFormedFrame : Obligations.ResidueOfWellFormedFrame := by
  intro f hvalid
  have hcrc : frameCrc f = crc32Bytes (framePayload f).data := (beq_iff_eq.1 hvalid).symm
  rw [frame_data_eq, hcrc]
  exact crc32Bytes_append_crc _

end Sys2Proof.Machine

/-! The frame codec (41_frame_codec.md). Payload and CRC field make up the frame, so decoding undoes encoding and the
well-formed frames are the encodings (R94, R96). All of these leave one residue (R87), which no changed bit does: an encoded
frame with one bit inverted is invalid (R95). -/

namespace Sys2Proof.Machine

/-! ### Encoding and decoding undo each other (R94, R96) -/

theorem frameDecode_frameEncode (p : Payload) :
    frameDecode (frameEncode p) = { payload := p, receivedCrc := crcCompute p, valid := true } := by
  rw [frameDecode, framePayload_frameEncode, frameCrc_frameEncode, frameValid_frameEncode]

theorem frameEncode_injective : Function.Injective frameEncode :=
  Function.LeftInverse.injective framePayload_frameEncode

theorem frameValid_iff_crc (f : Frame) : frameValid f = true ↔ crcCompute (framePayload f) = frameCrc f :=
  beq_iff_eq

theorem frameValid_iff_encoding (f : Frame) : frameValid f = true ↔ f = frameEncode (framePayload f) := by
  constructor
  · intro hvalid
    apply Bytes.ext
    rw [frameEncode_data, (frameValid_iff_crc f).1 hvalid]
    exact frame_data_eq f
  · intro hencoding
    rw [hencoding]
    exact frameValid_frameEncode _

/-! ### A changed bit (R95) -/

/-- A flipped bit changes the CRC of a byte array of any length: of a payload (R88), and of a whole frame. -/
theorem crc32Bytes_flipBit_ne {n i j : Nat} (a : Bytes n) (hi : i < n) (hj : j < 8) :
    crc32Bytes (flipBit a i j).data ≠ crc32Bytes a.data := by
  intro h
  have hi' : i < a.data.length := a.len.symm ▸ hi
  exact foldl_crcByte_modify_ne (xor_bit_ne hj) hi' crcInit ((BitVec.xor_left_inj _).1 h)

/-- Were it valid, both frames would leave the residue of R87. -/
theorem frameValid_flipBit {f : Frame} {i j : Nat} (hf : frameValid f = true) (hi : i < 260) (hj : j < 8) :
    frameValid (flipBit f i j) = false := by
  rw [Bool.eq_false_iff]
  intro hflip
  have hresidue : crc32Bytes (flipBit f i j).data = crc32Bytes f.data :=
    (residueOfWellFormedFrame _ hflip).trans (residueOfWellFormedFrame _ hf).symm
  exact crc32Bytes_flipBit_ne f hi hj hresidue

/-! ### The bytes of a frame (R61, R62) -/

theorem byteAt_frameEncode_payload (p : Payload) {i : Nat} (hi : i < 256) : byteAt (frameEncode p) i = byteAt p i :=
  List.getElem?_append_left (by rwa [p.len])

theorem byteAt_frameEncode_crc (p : Payload) (k : Nat) :
    byteAt (frameEncode p) (256 + k) = (le32 (crcCompute p))[k]? := by
  have h : p.data.length ≤ 256 + k := by rw [p.len]; exact Nat.le_add_right _ _
  rw [byteAt, frameEncode_data, List.getElem?_append_right h, p.len, Nat.add_sub_cancel_left]

/-- The four bytes behind the payload are those that `received_crc` is read from. -/
theorem frame_data_drop_payload (f : Frame) :
    f.data.drop 256 = [frameByte f 256, frameByte f 257, frameByte f 258, frameByte f 259] := by
  calc f.data.drop 256
    _ = ((framePayload f).data ++ le32 (frameCrc f)).drop 256 := by rw [← frame_data_eq]
    _ = le32 (frameCrc f) := List.drop_left' (framePayload f).len
    _ = _ := le32_unle32 ..

/-! ### `FC.ENCODE` and `FC.DECODE` (R90, R91, R93) -/

theorem exec_fcEncode (p : Payload) (s : State) : exec (.fcEncode p) s = .next (s.emit (.frame (frameEncode p))) := rfl

theorem exec_fcDecode (buf : List Byte) (len : Nat) (s : State) :
    let d := sequenceDecode s.free buf len
    exec (.fcDecode buf len) s = .next (s.drawn.emit (.decoded d.payload d.receivedCrc d.valid)) := rfl

/-! ### The obligations of 41_frame_codec.md -/

/-- Settles O14: an encoded frame is well-formed, and no frame one bit away from such a one is. -/
theorem singleBitFlipIsInvalid : Obligations.SingleBitFlipIsInvalid :=
  fun p _ _ hi hj => frameValid_flipBit (frameValid_frameEncode p) hi hj

/-- Settles O16: the payload field and the CRC field of an encoded frame, and its validity. -/
theorem decodeUndoesEncode : Obligations.DecodeUndoesEncode :=
  frameDecode_frameEncode

/-- Settles O17: the payload field is a left inverse of encoding, and a frame is its two fields. -/
theorem validFramesAreEncodings : Obligations.ValidFramesAreEncodings :=
  ⟨fun _ _ h => frameEncode_injective h, frameValid_iff_encoding⟩

/-- Settles O18: the four bytes of the CRC field are those of `le32`. -/
theorem fcEncodeResult : Obligations.FcEncodeResult :=
  fun p s => ⟨frameEncode p, exec_fcEncode p s, fun _ hi => byteAt_frameEncode_payload p hi,
    byteAt_frameEncode_crc p 0, byteAt_frameEncode_crc p 1, byteAt_frameEncode_crc p 2, byteAt_frameEncode_crc p 3⟩

/-- Settles O19: at another length the validity is 0 by definition; a sequence of 260 bytes is a frame, whose fields are its
first 256 bytes and its last four. -/
theorem fcDecodeResult : Obligations.FcDecodeResult := by
  intro buf len s
  refine ⟨_, _, _, exec_fcDecode buf len s, fun hlen => sequenceDecode_length hlen, ?_⟩
  rintro rfl hbuf
  obtain ⟨f, rfl⟩ : ∃ f : Frame, f.data = buf := ⟨⟨buf, hbuf⟩, rfl⟩
  rw [sequenceDecode_frame]
  exact ⟨framePayload_data f, ⟨_, _, _, _, frame_data_drop_payload f, rfl⟩, frameValid_iff_crc f⟩

end Sys2Proof.Machine

/-! The DMA channel adapter and the bus (42_dma_channel_adapter.md): the handle that `DMA.START` returns (R105), the channel
commands (R100 to R104), the exchange that the master's start begins (R112 to R114), and the reference transport's exchange
end (R114). -/

namespace Sys2Proof.Machine

/-! ### A handle that is not taken (R105; log 9) -/

/-- A search that ends at a handle to avoid has met only such handles. -/
theorem mem_of_firstFresh_mem {avoid : List Handle} {fuel k : Nat} {h : Handle} (hm : firstFresh avoid fuel h ∈ avoid)
    (hk : k ≤ fuel) : h + BitVec.ofNat 32 k ∈ avoid := by
  induction fuel generalizing h k with
  | zero => simpa [Nat.le_zero.1 hk, firstFresh] using hm
  | succ fuel ih =>
    by_cases hh : h ∈ avoid
    · simp only [firstFresh, if_pos hh] at hm
      cases k with
      | zero => simpa using hh
      | succ k =>
        have next : h + BitVec.ofNat 32 (k + 1) = h + 1 + BitVec.ofNat 32 k := by
          rw [BitVec.ofNat_add]; ac_rfl
        rw [next]
        exact ih hm (Nat.le_of_succ_le_succ hk)
    · simp only [firstFresh, if_neg hh] at hm
      exact absurd hm hh

theorem add_ofNat_injOn {n : Nat} (hn : n ≤ 2 ^ 32) (h : Handle) :
    Set.InjOn (fun k => h + BitVec.ofNat 32 k) (Finset.range n) := by
  intro a ha b hb e
  have ha := Finset.mem_range.1 ha
  have hb := Finset.mem_range.1 hb
  have e := congrArg BitVec.toNat ((BitVec.add_right_inj h).1 e)
  rwa [BitVec.toNat_ofNat, BitVec.toNat_ofNat, Nat.mod_eq_of_lt (by omega), Nat.mod_eq_of_lt (by omega)] at e

/-- One handle more than are to be avoided are looked at, and they differ, so one of them is free. -/
theorem firstFresh_not_mem {avoid : List Handle} (hl : avoid.length < 2 ^ 32) (h : Handle) :
    firstFresh avoid avoid.length h ∉ avoid := by
  intro hm
  have looked : ∀ k ∈ Finset.range (avoid.length + 1), h + BitVec.ofNat 32 k ∈ avoid.toFinset := fun k hk =>
    List.mem_toFinset.2 (mem_of_firstFresh_mem hm (Nat.lt_succ_iff.1 (Finset.mem_range.1 hk)))
  have hcard := Finset.card_le_card_of_injOn _ looked (add_ofNat_injOn hl h)
  rw [Finset.card_range] at hcard
  exact absurd (hcard.trans (List.toFinset_card_le avoid)) (Nat.not_succ_le_self _)

/-! ### `DMA.START` (R100, R104) -/

theorem exec_dmaStart_idle {r : Role} {s : State} (hf : faultFree s r) (ha : (s.channel r).active = false) :
    exec (.dmaStart r) s = .next (startTransfer s r) :=
  (instanceStep_clean hf).trans (congrArg _ (if_neg (Bool.eq_false_iff.1 ha)))

theorem exec_dmaStart_active {r : Role} {s : State} (hf : faultFree s r) (ha : (s.channel r).active = true) :
    exec (.dmaStart r) s = .next (s.withFault r .startWhileActive) :=
  (instanceStep_clean hf).trans (congrArg _ (if_pos ha))

theorem startTransfer_channel (s : State) (r : Role) :
    (startTransfer s r).channel r = channelStarted (s.channel r) (freshHandle s r) := by
  cases r <;> rfl

theorem startTransfer_outputs (s : State) (r : Role) :
    (startTransfer s r).outputs = s.outputs ++ [.dmaStart r (freshHandle s r)] := by
  cases r <;> rfl

/-- Both instances are as they were but for their channels and rx buffers. -/
def instancesKept (s t : State) : Prop :=
  t.master = { s.master with ch := t.master.ch, rxBuffer := t.master.rxBuffer } ∧
    t.slave = { s.slave with ch := t.slave.ch, rxBuffer := t.slave.rxBuffer }

theorem startTransfer_instancesKept (s : State) (r : Role) : instancesKept s (startTransfer s r) := by
  cases r <;> exact ⟨rfl, rfl⟩

/-- A command on a channel touches no byte outside its rx buffer. -/
theorem bytesKept_command {s u : State} (hm : u.master = s.master) (hv : u.slave = s.slave) (r : Role) (c : Channel)
    (f : Frame) (o : Output) : bytesKept s (((u.withChannel r c).withRx r f).drawn.emit o) [rxBufferOf r] := fun b hb i =>
  calc (((u.withChannel r c).withRx r f).drawn.emit o).readByte b i
    _ = ((u.withChannel r c).withRx r f).readByte b i := State.readByte_congr rfl rfl b i
    _ = (u.withChannel r c).readByte b i := withRx_readByte (fun e => hb (List.mem_singleton.2 e)) _ f i
    _ = u.readByte b i := withChannel_readByte u r c b i
    _ = s.readByte b i := State.readByte_congr hm hv b i

theorem startTransfer_bytesKept (s : State) (r : Role) : bytesKept s (startTransfer s r) [rxBufferOf r] := by
  cases r <;> exact bytesKept_command rfl rfl _ _ _ _

/-! ### `DMA.ABORT` (R102) -/

theorem exec_dmaAbort {r : Role} {s : State} (hf : faultFree s r) (h : Handle) :
    exec (.dmaAbort r h) s = .next (abortTransfer s r h) :=
  instanceStep_clean hf

theorem abortKept_iff (s : State) (r : Role) :
    abortKept s r = true ↔ (s.channel r).keep = true ∧ s.bus.reference = false := by
  simp [abortKept]

theorem mem_channelAborted_pending (c : Channel) (kept : Bool) (x : Handle) :
    x ∈ (channelAborted c kept).pending ↔ x ∈ c.pending ∧ (kept = true ∨ x ≠ c.handle) := by
  cases kept
  · simp [channelAborted, mem_removeHandle]
  · simp [channelAborted]

section
variable {s : State} {r : Role} {h : Handle} (ha : (s.channel r).active = true ∧ (s.channel r).handle = h)
include ha

/-- `DMA.ABORT` of the active transfer, on either side. -/
theorem abortTransfer_active : abortTransfer s r h =
    (((busAborted s r).withChannel r (channelAborted (s.channel r) (abortKept s r))).withRx r
      (freeFrame s.free)).drawn.emit (.dmaAbort r h) := by
  simp only [abortTransfer, if_pos ha]

theorem abortTransfer_channel :
    (abortTransfer s r h).channel r = channelAborted (s.channel r) (abortKept s r) := by
  rw [abortTransfer_active ha]; cases r <;> rfl

theorem abortTransfer_bytesKept : bytesKept s (abortTransfer s r h) [rxBufferOf r] := by
  rw [abortTransfer_active ha]
  cases r <;> exact bytesKept_command rfl rfl _ _ _ _

theorem abortTransfer_instancesKept : instancesKept s (abortTransfer s r h) := by
  rw [abortTransfer_active ha]; cases r <;> exact ⟨rfl, rfl⟩

end

theorem abortTransfer_slave_busKept (s : State) (h : Handle) : busKept s (abortTransfer s .slave h) := by
  obtain ⟨_, _, _, e, -⟩ := abortTransfer_slave_form s h
  rw [e]; exact ⟨rfl, rfl, rfl⟩

/-! ### The exchange that the master's start begins (R112 to R114) -/

theorem pairableSlave_of_active {s : State} (h : s.slave.ch.active = true ∧ s.slave.ch.handle ∉ metIfCut s) :
    pairableSlave s = some s.slave.ch.handle :=
  if_pos h

theorem pairableSlave_eq_none {s : State} (h : ¬(s.slave.ch.active = true ∧ s.slave.ch.handle ∉ metIfCut s)) :
    pairableSlave s = none :=
  if_neg h

theorem notify_eq_ite (s : State) (r : Role) (i : Instr) :
    notify s r i = if s.faultMark r = [] then [.record r (encode i)] else [] := by
  unfold notify
  split <;> simp [*]

theorem beginOffered_paired {s : State} {hs : Handle} (h : pairableSlave s = some hs) :
    beginOffered s =
      if s.bus.reference = true ∧ s.slave.fault = [] then [.record .slave (encode (.sBegin hs))] else [] := by
  by_cases hf : s.slave.fault = [] <;> simp [beginOffered, h, notify_eq_ite, hf]

theorem beginOffered_unpaired {s : State} (h : pairableSlave s = none) : beginOffered s = [] := by
  simp [beginOffered, h]

theorem mem_metIfCut {s : State} {h : Handle} (hm : h ∈ metIfCut s) : h ∈ s.xMet := by
  unfold metIfCut at hm
  split at hm
  · split at hm
    · exact ((mem_removeHandle _ _ _).1 hm).1
    · exact hm
  · exact hm

theorem metBegun_paired {s : State} {hs : Handle} (h : pairableSlave s = some hs) :
    metBegun s = insertHandle hs (metIfCut s) := by
  simp [metBegun, h]

theorem metBegun_unpaired {s : State} (h : pairableSlave s = none) : metBegun s = metIfCut s := by
  simp [metBegun, h]

/-! ### The reference transport's exchange end (R114) -/

/-- The slave's side completes at the exchange end. -/
def slaveCompletes (s : State) (x : Exchange) : Prop :=
  ∃ hs, x.hs = some hs ∧ s.slave.ch.active = true ∧ s.slave.ch.handle = hs ∧ hs ∈ s.xMet

/-- The master's side completes at the exchange end. -/
def masterCompletes (s : State) (x : Exchange) : Prop :=
  x.hs ≠ none ∨ s.bus.completeUnpaired = true

theorem slaveCompletes.master {s : State} {x : Exchange} (h : slaveCompletes s x) : masterCompletes s x := by
  obtain ⟨hs, hx, -⟩ := h
  exact .inl (by simp [hx])

theorem slaveFinish_of_completes {s : State} {x : Exchange} (h : slaveCompletes s x) :
    slaveFinish s x = some s.slave.ch.handle := by
  obtain ⟨hs, hx, ha, rfl, hm⟩ := h
  simp [slaveFinish, hx, ha, hm]

theorem slaveFinish_eq_none {s : State} {x : Exchange} (h : ¬slaveCompletes s x) : slaveFinish s x = none := by
  unfold slaveFinish
  split
  · next hs hx => exact if_neg fun hc => h ⟨hs, hx, hc⟩
  · rfl

theorem masterFinish_of_completes {s : State} {x : Exchange} (h : masterCompletes s x) : masterFinish s x = some x.hm :=
  if_pos (h.imp_left Option.isSome_iff_ne_none.2)

theorem masterFinish_eq_none {s : State} {x : Exchange} (h : ¬masterCompletes s x) : masterFinish s x = none :=
  if_neg (mt (Or.imp_left Option.isSome_iff_ne_none.1) h)

/-- The exchange end in one form: each side's buffer by whether that side completes. -/
theorem finishExchange_eq (s : State) (x : Exchange) (first : Bool) :
    finishExchange s x first =
      { s with
        master := { s.master with rxBuffer := if (masterFinish s x).isSome then x.s2m else s.master.rxBuffer }
        slave := { s.slave with rxBuffer := if (slaveFinish s x).isSome then x.m2s else s.slave.rxBuffer }
        xPair := none
        input := finishOffered s x first ++ s.input } := by
  cases hm : masterFinish s x <;> cases hv : slaveFinish s x <;>
    simp [finishExchange, hm, hv, State.offer, State.withPair, State.withRx, State.withMaster, State.withSlave]

theorem finishExchange_slave_rx {s : State} {x : Exchange} (h : slaveCompletes s x) (first : Bool) :
    (finishExchange s x first).slave.rxBuffer = x.m2s := by
  simp [finishExchange_eq, slaveFinish_of_completes h]

theorem finishExchange_slave_rx_stays {s : State} {x : Exchange} (h : ¬slaveCompletes s x) (first : Bool) :
    (finishExchange s x first).slave.rxBuffer = s.slave.rxBuffer := by
  simp [finishExchange_eq, slaveFinish_eq_none h]

theorem finishExchange_master_rx {s : State} {x : Exchange} (h : masterCompletes s x) (first : Bool) :
    (finishExchange s x first).master.rxBuffer = x.s2m := by
  simp [finishExchange_eq, masterFinish_of_completes h]

theorem finishExchange_master_rx_stays {s : State} {x : Exchange} (h : ¬masterCompletes s x) (first : Bool) :
    (finishExchange s x first).master.rxBuffer = s.master.rxBuffer := by
  simp [finishExchange_eq, masterFinish_eq_none h]

theorem finishExchange_input (s : State) (x : Exchange) (first : Bool) :
    (finishExchange s x first).input = finishOffered s x first ++ s.input := by
  rw [finishExchange_eq]

theorem finishExchange_kept (s : State) (x : Exchange) (first : Bool) :
    let t := finishExchange s x first
    t.master = { s.master with rxBuffer := t.master.rxBuffer } ∧
      t.slave = { s.slave with rxBuffer := t.slave.rxBuffer } ∧
      t.xPair = none ∧ t.xMet = s.xMet ∧ t.bus = s.bus ∧ t.outputs = s.outputs ∧ t.free = s.free := by
  rw [finishExchange_eq]
  exact ⟨rfl, rfl, rfl, rfl, rfl, rfl, rfl⟩

theorem finishOffered_both {s : State} {x : Exchange} (h : slaveCompletes s x) (first : Bool) :
    let m := notify s .master (.mComplete x.hm .ok)
    let v := notify s .slave (.sComplete s.slave.ch.handle .ok)
    finishOffered s x first = if first then m ++ v else v ++ m := by
  simp only [finishOffered, slaveFinish_of_completes h, masterFinish_of_completes h.master]

theorem finishOffered_master {s : State} {x : Exchange} (hv : ¬slaveCompletes s x) (hm : masterCompletes s x)
    (first : Bool) : finishOffered s x first = notify s .master (.mComplete x.hm .ok) := by
  cases first <;> simp [finishOffered, slaveFinish_eq_none hv, masterFinish_of_completes hm]

theorem finishOffered_none {s : State} {x : Exchange} (hv : ¬slaveCompletes s x) (hm : ¬masterCompletes s x)
    (first : Bool) : finishOffered s x first = [] := by
  cases first <;> simp [finishOffered, slaveFinish_eq_none hv, masterFinish_eq_none hm]

theorem envAct_finish_ends {s : State} {x : Exchange} (hb : s.bus.reference = true) (hx : s.xPair = some x)
    (hp : x.hm ∈ s.master.ch.pending) (first : Bool) : envAct (.finish first) s = finishExchange s x first := by
  simp only [envAct, hx]
  exact if_pos ⟨hb, hp⟩

theorem envAct_finish_stays {s : State}
    (hn : s.bus.reference = false ∨ ¬∃ x, s.xPair = some x ∧ x.hm ∈ s.master.ch.pending) (first : Bool) :
    envAct (.finish first) s = s := by
  unfold envAct
  dsimp only
  split
  · next x hx =>
    refine if_neg fun ⟨hb, hp⟩ => ?_
    exact hn.elim (fun e => by cases hb.symm.trans e) (fun hno => hno ⟨x, hx, hp⟩)
  · rfl

/-! ### Who begins an exchange, and which transfers exchange bytes (R112, R113; log 27) -/

/-- From `s` to `t` no exchange begins, and no slave transfer comes to exchange bytes. -/
structure BeginsNoExchange (s t : State) : Prop where
  met : ∀ h ∈ t.xMet, h ∈ s.xMet
  clocking : masterClocking t = true → masterClocking s = true

/-- From `s` to `t` the master's `DMA.START` was given once, and the master is clocking. -/
structure BeginsExchange (s t : State) : Prop where
  clocking : masterClocking t = true
  starts : masterStarts t = masterStarts s + 1

/-- The master clocks no more when its exchange is the same or over, and no handle joined the pending ones. -/
theorem masterClocking_mono {s t : State} (h : masterClocking t = true)
    (hx : ∀ x, t.xPair = some x → ∃ y, s.xPair = some y ∧ y.hm = x.hm)
    (hp : ∀ hd ∈ t.master.ch.pending, hd ∈ s.master.ch.pending) :
    masterClocking s = true := by
  rw [masterClocking_iff] at h ⊢
  obtain ⟨x, hpair, hpend⟩ := h
  obtain ⟨y, hy, e⟩ := hx x hpair
  exact ⟨y, hy, e ▸ hp _ hpend⟩

namespace BeginsNoExchange

theorem refl (s : State) : BeginsNoExchange s s :=
  ⟨fun _ => id, id⟩

variable {s t : State}

theorem abortMaster {hd : Handle} (h : BeginsNoExchange s t) : BeginsNoExchange s (abortTransfer t .master hd) := by
  by_cases ha : t.master.ch.active = true ∧ t.master.ch.handle = hd
  · rw [abortTransfer_master_active ha.1 ha.2]
    exact ⟨fun x hx => h.met x (mem_metIfCut hx), nofun⟩
  · rw [abortTransfer_inactive (r := .master) ha]
    exact { h with }

/-- The exchange and the set stay, and no handle joins the master's pending ones. -/
theorem of_same_bus {u : State} (h : BeginsNoExchange s t) (hx : u.xPair = t.xPair) (hm : u.xMet = t.xMet)
    (hp : ∀ hd ∈ u.master.ch.pending, hd ∈ t.master.ch.pending) : BeginsNoExchange s u :=
  ⟨by rw [hm]; exact h.met, fun hc => h.clocking (masterClocking_mono hc (fun x e => ⟨x, hx ▸ e, rfl⟩) hp)⟩

theorem deliverMaster {hd : Handle} {st : RawStatus} (h : BeginsNoExchange s t) :
    BeginsNoExchange s (deliverCompletion t .master hd st) := by
  obtain ⟨rx, n, e, -⟩ := deliverCompletion_master_form t hd st
  rw [e]
  exact h.of_same_bus rfl rfl fun _ hp => ((mem_removeHandle _ _ _).1 hp).1

/-- Registers of the master are written. -/
theorem writeMaster {m : MasterInst} (h : BeginsNoExchange s t) (hc : m.ch = t.master.ch) :
    BeginsNoExchange s (t.withMaster m) :=
  h.of_same_bus rfl rfl fun _ hp => hc ▸ hp

end BeginsNoExchange

theorem beginsExchange_startTransfer (s : State) : BeginsExchange s (startTransfer s .master) where
  clocking := (masterClocking_iff _).2 ⟨_, rfl, (mem_insertHandle _ _ _).2 (.inl rfl)⟩
  starts := by rw [masterStarts, startTransfer_outputs, List.countP_append]; rfl

/-- Of the master's records only those that start a transfer begin an exchange. -/
theorem MasterMove.exchange {s t : State} {i : Instr} (h : MasterMove s i t) :
    BeginsNoExchange s t ∨ BeginsExchange s t := by
  have same := BeginsNoExchange.refl s
  cases h with
  | start _ => exact .inr (beginsExchange_startTransfer s)
  | encode _ _ _ e =>
    subst e
    exact .inr { beginsExchange_startTransfer _ with }
  | abort _ => exact .inl same.abortMaster
  | completionDiscarded _ _ _ _ => exact .inl same.deliverMaster
  | complete _ _ _ _ e => subst e; exact .inl (same.deliverMaster.writeMaster rfl)
  | timeout _ _ _ e =>
    subst e
    exact .inl (.writeMaster (.abortMaster (.writeMaster same rfl)) rfl)
  | cancelTransfer _ e => subst e; exact .inl { same.abortMaster with }
  | _ => exact .inl { same with }

@[simp] theorem deliverCompletion_xMet (s : State) (r : Role) (h : Handle) (st : RawStatus) :
    (deliverCompletion s r h st).xMet = s.xMet := by
  simp only [deliverCompletion]; split <;> cases r <;> rfl

@[simp] theorem abortTransfer_slave_xMet (s : State) (h : Handle) : (abortTransfer s .slave h).xMet = s.xMet := by
  simp only [abortTransfer]; split <;> rfl

/-- A record of the slave adds no transfer to those that exchanged bytes; its start takes out an earlier one of that
handle. -/
theorem SlaveMove.met_subset {s t : State} {i : Instr} (h : SlaveMove s i t) : ∀ hd ∈ t.xMet, hd ∈ s.xMet := by
  cases h with
  | start _ => exact fun _ hm => ((mem_removeHandle _ _ _).1 hm).1
  | provide _ _ _ e => subst e; exact fun _ hm => ((mem_removeHandle _ _ _).1 hm).1
  | complete _ _ _ _ e | armTimeout _ _ _ _ e | abortInFlight _ e => subst e; simp
  | _ => simp

theorem SlaveMove.exchange {s t : State} {i : Instr} (h : SlaveMove s i t) : BeginsNoExchange s t := by
  obtain ⟨hpair, -, -⟩ := h.bus_and_input_eq
  refine ⟨h.met_subset, fun hc => masterClocking_mono hc (fun x hx => ⟨x, hpair ▸ hx, rfl⟩) fun _ hp => ?_⟩
  rwa [h.master_eq] at hp

theorem OpenMove.exchange {s t : State} {i : Instr} (h : OpenMove s i t) : BeginsNoExchange s t := by
  cases h <;> exact (BeginsNoExchange.refl s).of_same_bus rfl rfl fun _ => id

theorem exec_exchange {i : Instr} {s t : State} (h : exec i s = .next t) : BeginsNoExchange s t ∨ BeginsExchange s t := by
  rcases exec_next_cases h with ⟨-, hm⟩ | ⟨-, hm⟩ | hm
  · exact hm.exchange
  · exact .inl hm.exchange
  · exact .inl hm.exchange

theorem envAct_masterClocking {a : EnvAct} {s : State} (h : masterClocking (envAct a s) = true) :
    masterClocking s = true := by
  refine masterClocking_mono h (fun _ => envAct_xPair) fun hd hp => ?_
  obtain ⟨_, _, _, _, _, _, _, _, _, _, e, -⟩ := envAct_form a s
  rwa [e] at hp

/-- The exchange in progress has reached a late slave transfer: the master is clocking as before. -/
theorem masterClocking_lateJoined {s : State} {h : Handle} (hc : masterClocking s = true) :
    masterClocking (lateJoined s h) = true := by
  rw [masterClocking_iff] at hc ⊢
  obtain ⟨x, hx, hp⟩ := hc
  exact ⟨_, congrArg (Option.map _) hx, hp⟩

theorem lateJoinable.clocking {s : State} (h : lateJoinable s = true) : masterClocking s = true := by
  obtain ⟨x, hx, -⟩ := (lateJoinable_iff s).1 h
  exact (masterClocking_iff s).2 ⟨x, hx⟩

/-- An action of the transport leaves the transfers that exchanged bytes as they are, but for a late one that an exchange in
progress reaches. -/
theorem envAct_xMet (a : EnvAct) (s : State) : (envAct a s).xMet = s.xMet ∨ masterClocking (envAct a s) = true := by
  cases a with
  | rxWrite r h f =>
    rcases Bool.eq_false_or_eq_true s.bus.reference with hb | hb
    · rw [envAct_rxWrite_stays (.inl hb)]
      exact .inl rfl
    · rw [envAct_rxWrite_contract hb]
      rcases receive_form s r h f with e | ⟨-, ⟨e, -⟩ | ⟨-, hl, e⟩⟩
      · exact .inl (by rw [e])
      · exact .inl (by rw [e, State.withRx_xMet])
      · exact .inr (e ▸ masterClocking_lateJoined (lateJoinable.clocking hl))
  | clock r =>
    by_cases hx : s.bus.reference = false ∧ ∃ x, s.xPair = some x ∧ clocksInto s x r
    · obtain ⟨hb, x, hx, hto⟩ := hx
      exact .inl (by rw [envAct_clock_stored hb hx hto, State.withRx_xMet])
    · rw [not_and_or, Bool.not_eq_false] at hx
      exact .inl (by rw [envAct_clock_stays hx])
  | endExchange =>
    rcases envAct_endExchange_cases s with e | e
    · exact .inl (by rw [e])
    · exact .inl (by rw [e, State.withPair_xMet])
  | finish first =>
    by_cases hx : s.bus.reference = true ∧ ∃ x, s.xPair = some x ∧ x.hm ∈ s.master.ch.pending
    · obtain ⟨hb, x, hx, hp⟩ := hx
      exact .inl (by rw [envAct_finish_ends hb hx hp, finishExchange_eq])
    · rw [not_and_or, Bool.not_eq_true] at hx
      exact .inl (by rw [envAct_finish_stays hx])
  | bus b => exact .inl rfl
  | nextHandle r h => exact .inl (State.withChannel_xMet s r _)
  | abortKeeps r k => exact .inl (State.withChannel_xMet s r _)

/-! ### The obligations of 42_dma_channel_adapter.md -/

/-- Settles O26: the search avoids the taken handles, which are the three kinds together. -/
theorem returnedHandleIsFresh : Obligations.ReturnedHandleIsFresh := by
  intro s r hl
  have free : freshHandle s r ∉ handleInUse s r ++ (s.channel r).pending ++ s.timer r := firstFresh_not_mem hl _
  simp only [List.mem_append, not_or] at free
  obtain ⟨⟨huse, hpend⟩, htimer⟩ := free
  exact ⟨huse, hpend, htimer⟩

/-- Settles O48: of the records only the master's start begins an exchange, and an action of the transport reaches a late
slave transfer only within one. -/
theorem onlyTheMastersStartMovesBytes : Obligations.OnlyTheMastersStartMovesBytes := by
  refine ⟨fun s t hstep h hm => ?_, fun i s t he hno hc => ?_, fun a s hno => ?_⟩
  · obtain ⟨-, ⟨i, later, n, -, he⟩ | ⟨a, later, -, rfl⟩ | rfl⟩ := step_next_cases hstep
    · exact (exec_exchange he).imp (fun e => e.met h hm) fun e => e.clocking
    · exact (envAct_xMet a _).imp_left fun e => by rwa [e] at hm
    · exact .inl hm
  · rcases exec_exchange he with e | e
    · cases hno.symm.trans (e.clocking hc)
    · exact e.starts
  · rw [← Bool.not_eq_true] at hno ⊢
    exact mt envAct_masterClocking hno

/-- Settles O9: where it is enabled the action is the exchange end, and the cases are which sides complete. -/
theorem referenceExchangeEnd : Obligations.ReferenceExchangeEnd := by
  intro s later first hc hin clocking
  let s' : State := { s with input := later }
  refine ⟨_, step_env hc hin, fun x hb hx => ?_, fun hn => envAct_finish_stays (s := s') hn first⟩
  intro toSlave toMaster m v
  obtain ⟨hexchange, hpending⟩ := hx
  have hm : notify s' .master (.mComplete x.hm .ok) = m := notify_eq_ite s' .master _
  have hv : notify s' .slave (.sComplete s'.slave.ch.handle .ok) = v := notify_eq_ite s' .slave _
  obtain ⟨hmaster, hslave, hpair, hmet, hbus, hout, hfree⟩ := finishExchange_kept s' x first
  rw [envAct_finish_ends (s := s') hb hexchange hpending]
  refine ⟨hmaster, hslave, hpair, hmet, hbus, hout, hfree, fun h => finishExchange_slave_rx (s := s') h first,
    fun h => finishExchange_slave_rx_stays (s := s') h first, fun h => finishExchange_master_rx (s := s') h first,
    fun h => finishExchange_master_rx_stays (s := s') h first, fun h _ => ?_, fun hno h => ?_, fun hno hno' => ?_⟩
  · rw [finishExchange_input, finishOffered_both (s := s') h, hm, hv]
  · rw [finishExchange_input, finishOffered_master (s := s') hno h, hm]
  · rw [finishExchange_input, finishOffered_none (s := s') hno hno']; rfl

/-- Settles O23: each clause is what the start does to that field. -/
theorem dmaStartOnIdleChannel : Obligations.DmaStartOnIdleChannel := by
  intro r s hf ha
  obtain ⟨hm, hv⟩ := startTransfer_instancesKept s r
  refine ⟨_, exec_dmaStart_idle hf ha, ?_, fun x => ?_, startTransfer_outputs s r, hm, hv, startTransfer_bus s r, ?_, ?_,
    startTransfer_bytesKept s r⟩
  · rw [startTransfer_channel]; rfl
  · rw [startTransfer_channel]
    exact mem_insertHandle _ _ _
  · rintro rfl
    exact ⟨rfl, rfl, rfl, rfl⟩
  · rintro rfl
    exact ⟨rfl, rfl, rfl, rfl⟩

/-- Settles O24: the exchange begun is that of the slave transfer to pair with, if there is one. -/
theorem exchangeBegunAtMasterStart : Obligations.ExchangeBegunAtMasterStart := by
  intro s hf ha
  refine ⟨_, exchangeBegun s (freshHandle s .master), exec_dmaStart_idle hf ha, rfl, rfl,
    (mem_insertHandle _ _ _).2 (.inl rfl), rfl, rfl, metIfCut_contract, fun hact hmet => ?_, fun hn => ?_⟩
  · have paired := pairableSlave_of_active ⟨hact, hmet⟩
    rw [startTransfer_master, metBegun_paired paired, beginOffered_paired paired]
    refine ⟨paired, by simp [exchangeBegun, paired], fun h => mem_insertHandle _ _ _, ?_⟩
    split <;> rfl
  · have unpaired := pairableSlave_eq_none hn
    rw [startTransfer_master, metBegun_unpaired unpaired, beginOffered_unpaired unpaired]
    exact ⟨unpaired, rfl, rfl⟩

/-- Settles O25: the fault is the first one recorded, and so stops every record of that side. -/
theorem dmaStartWhileActive : Obligations.DmaStartWhileActive := by
  intro r s hf ha
  have recorded : (s.withFault r .startWhileActive).faultMark r = [.startWhileActive] := by
    rw [withFault_faultMark, show s.faultMark r = [] from hf]; rfl
  exact ⟨exec_dmaStart_active hf ha, fun i ho => faultedInstanceStops i _ r _ [] ho recorded⟩

/-- Settles O27: each clause is what the abort of the active transfer does to that field; another handle's is only seen. -/
theorem dmaAbortResult : Obligations.DmaAbortResult := by
  intro r h s hf
  refine ⟨fun ha => ?_, fun hn => (exec_dmaAbort hf h).trans (congrArg _ (abortTransfer_inactive hn))⟩
  obtain ⟨hm, hv⟩ := abortTransfer_instancesKept ha
  refine ⟨_, exec_dmaAbort hf h, ?_, fun x => ?_, abortTransfer_outputs s r h, abortTransfer_input s r h,
    abortTransfer_bus s r h, hm, hv, ?_, ?_, abortTransfer_bytesKept ha⟩
  · rw [abortTransfer_channel ha]; rfl
  · rw [abortTransfer_channel ha, mem_channelAborted_pending, abortKept_iff, ha.2]
  · rintro rfl
    rw [abortTransfer_active ha]
    exact ⟨rfl, rfl, rfl⟩
  · rintro rfl
    exact ⟨abortTransfer_slave_master s h, abortTransfer_slave_busKept s h⟩

end Sys2Proof.Machine

/-! The slave FSM (43_slave_protocol.md). Each of its events is described once, by the state after it where it is accepted and
where it is discarded; of the registers and the reports its moves say the rest (R131, R132). -/

namespace Sys2Proof.Machine

/-! ### A step that is not enabled (R131, R152, R183) -/

theorem instanceStep_notEnabled {s t : State} {r : Role} {c : Prop} [Decidable c] (hf : faultFree s r) (hc : ¬c) :
    instanceStep s r (if c then t else s) = .next s :=
  (instanceStep_clean hf).trans (congrArg _ (if_neg hc))

/-! ### The bytes that a record of the slave leaves alone -/

/-- A state with the master of `s` keeps every byte of `s` outside `l` when the slave's arrays outside `l` are the same. -/
theorem bytesKept_of_slave {s t : State} {l : List Buffer} (hm : t.master = s.master)
    (hp : .sPayload ∉ l → t.slave.payload = s.slave.payload) (htx : .sTxFrame ∉ l → t.slave.txFrame = s.slave.txFrame)
    (hrx : .sRxBuffer ∉ l → t.slave.rxBuffer = s.slave.rxBuffer) : bytesKept s t l := by
  intro b hb i
  cases b with
  | sPayload => simp [hp hb]
  | sTxFrame => simp [htx hb]
  | sRxBuffer => simp [hrx hb]
  | mPayload | mTxFrame | mRxBuffer | mRxPayload => simp [hm]

/-- The same where at most the slave's rx buffer changes, and that only if `c`. -/
theorem bytesKept_slave_rx {s t : State} {c : Prop} [Decidable c] (hm : t.master = s.master)
    (hp : t.slave.payload = s.slave.payload) (htx : t.slave.txFrame = s.slave.txFrame)
    (hrx : ¬c → t.slave.rxBuffer = s.slave.rxBuffer) : bytesKept s t (if c then [.sRxBuffer] else []) :=
  bytesKept_of_slave hm (fun _ => hp) (fun _ => htx) fun hl => hrx fun hc => hl (by simp [hc])

/-! ### `S.PROVIDE` (R121) -/

/-- The slave after the payload that arms it. -/
def slaveArmed (s : State) (p : Payload) : State :=
  let s1 := startTransfer (s.withSlave { s.slave with payload := p, txFrame := frameEncode p }) .slave
  s1.withSlave { s1.slave with
    handle := s1.slave.ch.handle
    attStatus := .pending
    tmPending := if s1.slave.cfg.armTimeout.isSome then insertHandle s1.slave.ch.handle s1.slave.tmPending
      else s1.slave.tmPending
    state := .armed }

theorem exec_sProvide_idle {s : State} (hf : faultFree s .slave) (hs : s.slave.state = .idle)
    (ha : s.slave.ch.active = false) (p : Payload) : exec (.sProvide p) s = .next (slaveArmed s p) :=
  (instanceStep_clean hf).trans (congrArg _ ((if_pos hs).trans (if_neg (Bool.eq_false_iff.1 ha))))

/-- The arm timer is started unless `ARM_TIMEOUT` is none. -/
theorem slaveArmed_tmPending (s : State) (p : Payload) :
    (slaveArmed s p).slave.tmPending =
      if s.slave.cfg.armTimeout = none then s.slave.tmPending
      else insertHandle (freshHandle s .slave) s.slave.tmPending := by
  change (if s.slave.cfg.armTimeout.isSome then insertHandle (freshHandle s .slave) s.slave.tmPending
    else s.slave.tmPending) = _
  cases s.slave.cfg.armTimeout <;> rfl

theorem slaveArmed_slave (s : State) (p : Payload) :
    (slaveArmed s p).slave = { s.slave with
      payload := p
      txFrame := frameEncode p
      rxBuffer := (slaveArmed s p).slave.rxBuffer
      handle := freshHandle s .slave
      attStatus := .pending
      tmPending := (slaveArmed s p).slave.tmPending
      state := .armed
      ch := channelStarted s.slave.ch (freshHandle s .slave) } := rfl

/-! ### `S.BEGIN` (R122, R110, R183) -/

theorem exec_sBegin_accepted {s : State} {h : Handle} (hf : faultFree s .slave) (hd : beginDeliverable s h = true)
    (ha : s.slave.state = .armed ∧ h = s.slave.handle) :
    exec (.sBegin h) s = .next (s.withSlave { s.slave with state := .receiving, ch := channelBegun s.slave.ch }) :=
  (instanceStep_clean hf).trans (congrArg _ ((if_pos hd).trans (if_pos ha)))

theorem exec_sBegin_discarded {s : State} {h : Handle} (hf : faultFree s .slave) (hd : beginDeliverable s h = true)
    (hn : ¬(s.slave.state = .armed ∧ h = s.slave.handle)) :
    exec (.sBegin h) s = .next (s.withSlave { s.slave with ch := channelBegun s.slave.ch }) :=
  (instanceStep_clean hf).trans (congrArg _ ((if_pos hd).trans (if_neg hn)))

theorem exec_sBegin_undeliverable {s : State} {h : Handle} (hf : faultFree s .slave)
    (hd : ¬beginDeliverable s h = true) : exec (.sBegin h) s = .next s :=
  instanceStep_notEnabled hf hd

/-! ### `S.COMPLETE` (R123, R101) -/

/-- The slave after a completion that its FSM waits for. -/
def slaveCompleted (s : State) (h : Handle) (st : RawStatus) : State :=
  let s1 := deliverCompletion s .slave h st
  s1.withSlave { s1.slave with rawStatus := st, attStatus := .complete, state := .completed }

theorem exec_sComplete_accepted {s : State} {h : Handle} (hf : faultFree s .slave) (hp : h ∈ s.slave.ch.pending)
    (ha : slaveAwaits s h) (st : RawStatus) : exec (.sComplete h st) s = .next (slaveCompleted s h st) :=
  (instanceStep_clean hf).trans (congrArg _ ((if_pos hp).trans (if_pos ha)))

theorem exec_sComplete_discarded {s : State} {h : Handle} (hf : faultFree s .slave) (hp : h ∈ s.slave.ch.pending)
    (hn : ¬slaveAwaits s h) (st : RawStatus) :
    exec (.sComplete h st) s = .next (deliverCompletion s .slave h st) :=
  (instanceStep_clean hf).trans (congrArg _ ((if_pos hp).trans (if_neg hn)))

theorem channelDelivered_eq (c : Channel) (h : Handle) :
    channelDelivered c h = { c with
      active := c.active && !decide (c.handle = h)
      pending := removeHandle h c.pending
      orphans := removeHandle h c.orphans } := by
  simp [channelDelivered]

/-! ### `S.REPORT` (R124, R187) -/

/-- The slave after it reported the outcome `o` of a completed transfer with the payload `p`. -/
def slaveReported (s : State) (o : TransferOutcome) (p : Payload) : State :=
  (s.withSlave { s.slave with outcome := o, outcomeValid := true, state := .idle }).drawn.emit
    (.report (.frameReceived o p))

/-- After a transport error nothing is decoded. -/
theorem exec_sReport_error {s : State} (hf : faultFree s .slave) (hs : s.slave.state = .completed)
    (hst : s.slave.rawStatus = .error) :
    exec .sReport s = .next (slaveReported s .hardwareFault (freePayload s.free)) := by
  simp [exec, execSReport, instanceStep_clean hf, hs, hst, completionOutcome, slaveReported]

theorem exec_sReport_ok {s : State} (hf : faultFree s .slave) (hs : s.slave.state = .completed)
    (hst : s.slave.rawStatus = .ok) (ha : s.slave.ch.active = false) :
    exec .sReport s = .next
      (slaveReported s (if frameValid s.slave.rxBuffer = true then .crcValid else .crcMismatch)
        (framePayload s.slave.rxBuffer)) := by
  simp [exec, execSReport, instanceStep_clean hf, hs, hst, ha, completionOutcome, slaveReported, frameDecode]

/-! ### `S.ARM_TIMEOUT` and `S.TRANSPORT_ABORT` (R125, R127) -/

/-- The slave without the pending expiry of its timer for `h` (R21). -/
def slaveExpired (s : State) (h : Handle) : State :=
  s.withSlave { s.slave with tmPending := removeHandle h s.slave.tmPending }

/-- The slave after it aborted the transfer `h` and reported `o`. -/
def slaveGivenUp (s : State) (h : Handle) (a : AttemptStatus) (o : TransferOutcome) : State :=
  let s1 := abortTransfer s .slave h
  (s1.withSlave { s1.slave with attStatus := a, outcome := o, outcomeValid := true, state := .idle }).drawn.emit
    (.report (.frameReceived o (freePayload s1.free)))

theorem exec_sArmTimeout_accepted {s : State} {h : Handle} (hf : faultFree s .slave) (hp : h ∈ s.slave.tmPending)
    (ha : s.slave.state = .armed ∧ h = s.slave.handle) :
    exec (.sArmTimeout h) s = .next (slaveGivenUp (slaveExpired s h) h .timedOut .timeout) := by
  obtain ⟨hs, rfl⟩ := ha
  exact (instanceStep_clean hf).trans (congrArg _ ((if_pos hp).trans (if_pos ⟨hs, rfl⟩)))

theorem exec_sArmTimeout_discarded {s : State} {h : Handle} (hf : faultFree s .slave) (hp : h ∈ s.slave.tmPending)
    (hn : ¬(s.slave.state = .armed ∧ h = s.slave.handle)) :
    exec (.sArmTimeout h) s = .next (slaveExpired s h) :=
  (instanceStep_clean hf).trans (congrArg _ ((if_pos hp).trans (if_neg hn)))

theorem exec_sTransportAbort_inFlight {s : State} (hf : faultFree s .slave)
    (hs : s.slave.state = .armed ∨ s.slave.state = .receiving) :
    exec .sTransportAbort s = .next (slaveGivenUp s s.slave.handle .aborted .aborted) := by
  have hc : s.slave.state ≠ .completed := by rcases hs with e | e <;> simp [e]
  simp only [exec, execSTransportAbort, instanceStep_clean hf, if_neg hc, if_pos hs]
  rfl

theorem exec_sTransportAbort_idle {s : State} (hf : faultFree s .slave) (hs : s.slave.state = .idle) :
    exec .sTransportAbort s = .next (slaveReported s .aborted (freePayload s.free)) := by
  simp [exec, execSTransportAbort, instanceStep_clean hf, hs, slaveReported]

theorem exec_sTransportAbort_completed {s : State} (hf : faultFree s .slave) (hs : s.slave.state = .completed) :
    exec .sTransportAbort s = .next s :=
  (instanceStep_clean hf).trans (congrArg _ (if_pos hs))

/-- The slave that gave a transfer up, in one form for both cases of R102. -/
theorem slaveGivenUp_form (s : State) (h : Handle) (a : AttemptStatus) (o : TransferOutcome) :
    ∃ rx p n, slaveGivenUp s h a o =
        { s with
          slave := { s.slave with
            attStatus := a
            outcome := o
            outcomeValid := true
            state := .idle
            ch := if s.slave.ch.active = true ∧ s.slave.ch.handle = h
              then channelAborted s.slave.ch (abortKept s .slave) else s.slave.ch
            rxBuffer := rx }
          outputs := s.outputs ++ [.dmaAbort .slave h, .report (.frameReceived o p)]
          free := n } ∧
      (¬(s.slave.ch.active = true ∧ s.slave.ch.handle = h) → rx = s.slave.rxBuffer) := by
  obtain ⟨c, rx, n, e, hactive, hinactive, -⟩ := abortTransfer_slave_form s h
  have hc : c = if s.slave.ch.active = true ∧ s.slave.ch.handle = h
      then channelAborted s.slave.ch (abortKept s .slave) else s.slave.ch := by
    split
    case isTrue ha => exact hactive ha
    case isFalse hn => obtain ⟨hch, -⟩ := hinactive hn; exact hch
  have hrx : ¬(s.slave.ch.active = true ∧ s.slave.ch.handle = h) → rx = s.slave.rxBuffer := by
    intro hn
    obtain ⟨-, hrx, -⟩ := hinactive hn
    exact hrx
  refine ⟨rx, freePayload n, n + 1, ?_, hrx⟩
  rw [slaveGivenUp, e, hc]
  simp [State.withSlave, State.drawn, State.emit]

/-! ### The edges of the slave's table (R131) -/

theorem inFlight_iff (v : SState) : inFlight v = true ↔ v = .armed ∨ v = .receiving := by
  cases v <;> simp [inFlight]

@[simp] theorem startTransfer_slave_slave_state (s : State) : (startTransfer s .slave).slave.state = s.slave.state := rfl

/-- A move of the slave leaves the state as it is, or takes it along an edge. -/
theorem SlaveMove.edge {s t : State} {i : Instr} (h : SlaveMove s i t) :
    t.slave.state = s.slave.state ∨ SlaveEdge s.slave i t.slave.state := by
  cases h with
  | provide p hs _ _ => exact .inr (.provide p hs)
  | begin _ _ hs hh => subst hh; exact .inr (.begin hs)
  | complete _ st _ ha _ =>
    obtain ⟨hs, rfl⟩ := ha
    exact .inr (.complete st ((inFlight_iff _).2 hs))
  | report _ _ hs => exact .inr (.report hs)
  | armTimeout _ _ hs hh _ => subst hh; exact .inr (.armTimeout hs)
  | abortIdle hs => exact .inl hs.symm
  | abortInFlight hs _ => exact .inr (.transportAbort hs)
  | _ => exact .inl (by simp)

/-! ### `FrameReceived` reports (R132) -/

@[simp] theorem deliverCompletion_outputs (s : State) (r : Role) (h : Handle) (st : RawStatus) :
    (deliverCompletion s r h st).outputs = s.outputs := by
  simp only [deliverCompletion]; split <;> cases r <;> rfl

/-- No report of a received frame, and the slave does not come to `S_Idle`. -/
structure KeepsArming (s t : State) : Prop where
  reports : frameReports t = frameReports s
  idle : t.slave.state = .idle → s.slave.state = .idle

/-- One report of a received frame, and the slave is in `S_Idle`. -/
structure EndsArming (s t : State) : Prop where
  reports : frameReports t = frameReports s + 1
  idle : t.slave.state = .idle

theorem frameReports_append {s t : State} {l : List Output} {n : Nat} (h : t.outputs = s.outputs ++ l)
    (hl : l.countP isFrameReport = n) : frameReports t = frameReports s + n := by
  rw [frameReports, h, List.countP_append, hl]; rfl

/-- Outputs that are no such report do not count. -/
theorem frameReports_silent {s t : State} {l : List Output} (h : t.outputs = s.outputs ++ l)
    (hl : l.countP isFrameReport = 0) : frameReports t = frameReports s :=
  frameReports_append h hl

theorem frameReports_of_same {s t : State} (h : t.outputs = s.outputs) : frameReports t = frameReports s :=
  congrArg (List.countP isFrameReport) h

/-- A record of the master emits no report of the slave's. -/
theorem MasterMove.frameReports_eq {s t : State} {i : Instr} (h : MasterMove s i t) : frameReports t = frameReports s := by
  cases h with
  | start _ => exact frameReports_silent (startTransfer_outputs s .master) rfl
  | abort hd => exact frameReports_silent (abortTransfer_outputs s .master hd) rfl
  | busy _ _ | succeed _ _ | giveUp _ _ | cancelBetween _ _ => exact frameReports_silent rfl rfl
  | encode _ _ _ e => subst e; exact frameReports_silent (startTransfer_outputs _ .master) rfl
  | completionDiscarded hd st _ _ => exact frameReports_of_same (deliverCompletion_outputs s .master hd st)
  | complete hd st _ _ e => subst e; exact frameReports_of_same (deliverCompletion_outputs s .master hd st)
  | timeout _ _ _ e => subst e; exact frameReports_silent (abortTransfer_outputs _ .master _) rfl
  | cancelTransfer _ e =>
    subst e
    have aborted := frameReports_silent (abortTransfer_outputs s .master s.master.handle) rfl
    exact (frameReports_silent rfl rfl).trans aborted
  | _ => exact frameReports_of_same (by simp)

/-- The slave that gave a transfer up has reported once. -/
theorem endsArming_slaveGivenUp (s : State) (h : Handle) (a : AttemptStatus) (o : TransferOutcome) :
    EndsArming s (slaveGivenUp s h a o) := by
  obtain ⟨rx, p, n, e, -⟩ := slaveGivenUp_form s h a o
  rw [e]
  exact ⟨frameReports_append rfl rfl, rfl⟩

theorem endsArming_slaveReported (s : State) (o : TransferOutcome) (p : Payload) : EndsArming s (slaveReported s o p) :=
  ⟨frameReports_append rfl rfl, rfl⟩

/-- A move of the slave reports a received frame where it takes the slave back to `S_Idle`, or is an abort in it. -/
theorem SlaveMove.arming {s t : State} {i : Instr} (h : SlaveMove s i t) :
    KeepsArming s t ∨ EndsArming s t ∧ (s.slave.state ≠ .idle ∨ i = .sTransportAbort) := by
  cases h with
  | start _ => exact .inl ⟨frameReports_silent (startTransfer_outputs s .slave) rfl, id⟩
  | abort hd => exact .inl ⟨frameReports_silent (abortTransfer_outputs s .slave hd) rfl, by simp⟩
  | busy _ _ => exact .inl ⟨frameReports_silent rfl rfl, id⟩
  | provide _ _ _ e => subst e; exact .inl ⟨frameReports_silent (startTransfer_outputs _ .slave) rfl, nofun⟩
  | begin _ _ _ _ => exact .inl ⟨frameReports_of_same rfl, nofun⟩
  | completionDiscarded hd st _ _ =>
    exact .inl ⟨frameReports_of_same (deliverCompletion_outputs s .slave hd st), by simp⟩
  | complete hd st _ _ e =>
    subst e
    exact .inl ⟨frameReports_of_same (deliverCompletion_outputs s .slave hd st), nofun⟩
  | report st p hs => exact .inr ⟨endsArming_slaveReported s _ p, .inl (by simp [hs])⟩
  | armTimeout hd _ hs _ e =>
    subst e
    exact .inr ⟨{ endsArming_slaveGivenUp (slaveExpired s hd) _ _ _ with }, .inl (by simp [hs])⟩
  | abortIdle _ => exact .inr ⟨endsArming_slaveReported s _ _, .inr rfl⟩
  | abortInFlight _ e => subst e; exact .inr ⟨endsArming_slaveGivenUp s _ _ _, .inr rfl⟩
  | _ => exact .inl ⟨frameReports_of_same (by simp), by simp⟩

/-- A record of neither side, and no reset of the slave, keeps the slave's arming. -/
theorem keepsArming_of_none {i : Instr} {s t : State} (ho : instrOwner i = none) (hr : i ≠ .sysReset .slave)
    (h : exec i s = .next t) : KeepsArming s t := by
  cases i with
  | sysReset r => cases r with
    | master => cases h; exact ⟨frameReports_of_same rfl, id⟩
    | slave => exact absurd rfl hr
  | crcCompute _ | fcEncode _ | fcDecode _ _ | rpDecide _ _ _ => cases h; exact ⟨frameReports_silent rfl rfl, id⟩
  | _ => cases ho

/-- Every record but a reset keeps the slave's arming or ends it; `S.TRANSPORT_ABORT` in `S_Idle` reports too. -/
theorem exec_arming {i : Instr} {s t : State} (hr : i ≠ .sysReset .slave) (h : exec i s = .next t) :
    KeepsArming s t ∧ (s.slave.state = .idle → i ≠ .sTransportAbort) ∨
      EndsArming s t ∧ (s.slave.state ≠ .idle ∨ i = .sTransportAbort) := by
  cases ho : instrOwner i with
  | none => exact .inl ⟨keepsArming_of_none ho hr h, by rintro - rfl; cases ho⟩
  | some r => cases r with
    | master =>
      have hm := masterMove_of_exec ho h
      exact .inl ⟨⟨hm.frameReports_eq, by rw [hm.slave_eq]; exact id⟩, by rintro - rfl; cases ho⟩
    | slave =>
      by_cases hi : s.slave.state = .idle ∧ i = .sTransportAbort
      · obtain ⟨hs, rfl⟩ := hi
        obtain ⟨hf, -⟩ := instanceStep_next_iff.1 (show instanceStep s .slave _ = .next t from h)
        cases (exec_sTransportAbort_idle hf hs).symm.trans h
        exact .inr ⟨endsArming_slaveReported s _ _, .inr rfl⟩
      · exact (slaveMove_of_exec ho h).arming.imp_left fun hk => ⟨hk, fun hs e => hi ⟨hs, e⟩⟩

/-! ### The obligations of 43_slave_protocol.md -/

/-- Settles O53: a move of the slave, its reset, or a record that leaves the slave as it is. -/
theorem slaveMovesByItsTable : Obligations.SlaveMovesByItsTable := by
  intro i s t h
  rcases exec_next_cases h with ⟨-, hm⟩ | ⟨-, hm⟩ | hm
  · exact .inl (congrArg _ hm.slave_eq)
  · exact hm.edge
  · cases hm with
    | resetMaster | answer => exact .inl rfl
    | resetSlave => exact .inr .reset

/-- Settles O56: the arming is kept without a report, or ended with one. -/
theorem oneFrameReportPerArming : Obligations.OneFrameReportPerArming := by
  intro i s t h
  by_cases hr : i = .sysReset .slave
  · subst hr
    cases h
    rw [if_neg fun ⟨_, _, hne⟩ => hne rfl]
    exact frameReports_of_same rfl
  · rcases exec_arming hr h with ⟨hk, hne⟩ | ⟨he, hback⟩
    · rw [if_neg fun ⟨hidle, hback, _⟩ => hback.elim (fun hs => hs (hk.idle hidle)) (hne (hk.idle hidle))]
      exact hk.reports
    · rw [if_pos ⟨he.idle, hback, hr⟩]
      exact he.reports

/-- Settles O28: each clause is what the arming does to that field. -/
theorem sProvideArms : Obligations.SProvideArms := by
  intro p s hf hs ha
  refine ⟨_, exec_sProvide_idle hf hs ha p, ?_, rfl, rfl, rfl, rfl, rfl, rfl, rfl,
    bytesKept_of_slave rfl (fun h => absurd (by simp) h) (fun h => absurd (by simp) h) fun h => absurd (by simp) h⟩
  rw [← slaveArmed_tmPending s p]
  exact slaveArmed_slave s p

/-- Settles O29: the clauses are the branches of the event. -/
theorem sBeginResult : Obligations.SBeginResult := by
  intro h s hf deliverable
  have hd : beginDeliverable s h = true ↔ deliverable := beginDeliverable_iff s h
  exact ⟨fun d hs hh => exec_sBegin_accepted hf (hd.2 d) ⟨hs, hh⟩, fun d hn => exec_sBegin_discarded hf (hd.2 d) hn,
    fun hn => exec_sBegin_undeliverable hf (mt hd.1 hn)⟩

/-- Settles O30: both branches begin with the delivery, which changes the channel and may leave the rx buffer unspecified. -/
theorem sCompleteResult : Obligations.SCompleteResult := by
  intro h st s hf hp
  obtain ⟨rx, n, e, hkept⟩ := deliverCompletion_slave_form s h st
  have hrx := fun hn => (hkept hn).1
  by_cases ha : slaveAwaits s h
  · refine ⟨_, exec_sComplete_accepted hf hp ha st, ?_⟩
    rw [slaveCompleted, e]
    exact ⟨channelDelivered_eq _ h, fun _ => rfl, fun hn => absurd ha hn, rfl, ⟨rfl, rfl, rfl⟩, rfl, rfl,
      bytesKept_slave_rx rfl rfl rfl hrx⟩
  · refine ⟨_, exec_sComplete_discarded hf hp ha st, ?_⟩
    rw [e]
    exact ⟨channelDelivered_eq _ h, fun hy => absurd hy ha, fun _ => rfl, rfl, ⟨rfl, rfl, rfl⟩, rfl, rfl,
      bytesKept_slave_rx rfl rfl rfl hrx⟩

/-- Settles O31: the outcome is judged by the status first, and the rest of the report does not depend on it. -/
theorem sReportResult : Obligations.SReportResult := by
  intro s hf hs hidle
  have kept : ∀ o p, bytesKept s (slaveReported s o p) [] := fun _ _ =>
    bytesKept_of_slave rfl (fun _ => rfl) (fun _ => rfl) fun _ => rfl
  cases hst : s.slave.rawStatus with
  | error =>
    exact ⟨_, _, _, exec_sReport_error hf hs hst, fun _ => rfl, nofun, rfl, rfl, rfl, ⟨rfl, rfl, rfl⟩, rfl, rfl, kept _ _⟩
  | ok =>
    refine ⟨_, _, _, exec_sReport_ok hf hs hst (hidle hst), nofun, fun _ => ⟨rfl, ?_⟩, rfl, rfl, rfl, ⟨rfl, rfl, rfl⟩, rfl,
      rfl, kept _ _⟩
    simp only [frameValid_iff_crc]

/-- Settles O32: accepted, the slave without that expiry gives the transfer up. -/
theorem sArmTimeoutResult : Obligations.SArmTimeoutResult := by
  intro h s hf hp
  refine ⟨fun ha => ?_, fun hn => exec_sArmTimeout_discarded hf hp hn⟩
  obtain ⟨rx, p, n, e, hrx⟩ := slaveGivenUp_form (slaveExpired s h) h .timedOut .timeout
  exact ⟨_, p, (exec_sArmTimeout_accepted hf hp ha).trans (congrArg _ e), rfl, rfl, rfl, ⟨rfl, rfl, rfl⟩, rfl,
    bytesKept_slave_rx rfl rfl rfl hrx⟩

/-- Settles O33: a transfer in flight is given up; in `S_Idle` there is none, and the abort is reported. -/
theorem sTransportAbortResult : Obligations.STransportAbortResult := by
  intro s hf
  refine ⟨fun hs => ?_, fun hs => ?_, exec_sTransportAbort_completed hf⟩
  · obtain ⟨rx, p, n, e, hrx⟩ := slaveGivenUp_form s s.slave.handle .aborted .aborted
    exact ⟨_, p, (exec_sTransportAbort_inFlight hf hs).trans (congrArg _ e), rfl, rfl, rfl, ⟨rfl, rfl, rfl⟩, rfl,
      bytesKept_slave_rx rfl rfl rfl hrx⟩
  · refine ⟨_, _, exec_sTransportAbort_idle hf hs, ?_, rfl, rfl, ⟨rfl, rfl, rfl⟩, rfl,
      bytesKept_of_slave rfl (fun _ => rfl) (fun _ => rfl) fun _ => rfl⟩
    change { s.slave with outcome := .aborted, outcomeValid := true, state := .idle } = _
    rw [← hs]

/-- Settles O42: each is the branch of its record whose guard fails. -/
theorem stepsNotEnabledChangeNothing : Obligations.StepsNotEnabledChangeNothing := by
  refine fun s => ⟨fun hf => ⟨fun now => ?_, ?_, fun q => ?_, fun h st => ?_, fun h => ?_⟩,
    fun hf => ⟨?_, fun h st => ?_, fun h => ?_⟩⟩
  all_goals exact instanceStep_notEnabled hf

end Sys2Proof.Machine

/-! The master FSM (44_master_protocol.md). As the slave's, each of its events is described once, by the state after it where
it is accepted and where it is not (R141 to R148). -/

namespace Sys2Proof.Machine

/-! ### What the channel operations leave alone of the master -/

@[simp] theorem startTransfer_master_state (s : State) (r : Role) :
    (startTransfer s r).master.state = s.master.state := by
  cases r <;> rfl

@[simp] theorem startTransfer_master_attempts (s : State) (r : Role) :
    (startTransfer s r).master.attempts = s.master.attempts := by
  cases r <;> rfl

@[simp] theorem abortTransfer_master_attempts (s : State) (r : Role) (h : Handle) :
    (abortTransfer s r h).master.attempts = s.master.attempts := by
  simp only [abortTransfer]; split <;> cases r <;> rfl

@[simp] theorem deliverCompletion_master_attempts (s : State) (r : Role) (h : Handle) (st : RawStatus) :
    (deliverCompletion s r h st).master.attempts = s.master.attempts := by
  simp only [deliverCompletion]; split <;> cases r <;> rfl

/-- A state with the slave of `s` keeps every byte of `s` outside `l` when the master's arrays outside `l` are the same. -/
theorem bytesKept_of_master {s t : State} {l : List Buffer} (hv : t.slave = s.slave)
    (hp : .mPayload ∉ l → t.master.payload = s.master.payload)
    (htx : .mTxFrame ∉ l → t.master.txFrame = s.master.txFrame)
    (hrx : .mRxBuffer ∉ l → t.master.rxBuffer = s.master.rxBuffer)
    (hrp : .mRxPayload ∉ l → t.master.rxPayload = s.master.rxPayload) : bytesKept s t l := by
  intro b hb i
  cases b with
  | mPayload => simp [hp hb]
  | mTxFrame => simp [htx hb]
  | mRxBuffer => simp [hrx hb]
  | mRxPayload => simp [hrp hb]
  | sPayload | sTxFrame | sRxBuffer => simp [hv]

/-- The same where at most the master's rx buffer changes. -/
theorem bytesKept_master_rx {s t : State} {l : List Buffer} (hv : t.slave = s.slave)
    (hp : t.master.payload = s.master.payload) (htx : t.master.txFrame = s.master.txFrame)
    (hrp : t.master.rxPayload = s.master.rxPayload) (hrx : .mRxBuffer ∉ l → t.master.rxBuffer = s.master.rxBuffer) :
    bytesKept s t l :=
  bytesKept_of_master hv (fun _ => hp) (fun _ => htx) hrx fun _ => hrp

/-! ### `M.SEND` (R141) -/

theorem inSession_eq_false_iff (v : MState) : inSession v = false ↔ v = .idle ∨ v = .success ∨ v = .failed := by
  cases v <;> simp [inSession]

theorem inSession_iff (v : MState) :
    inSession v = true ↔ v = .encoding ∨ v = .transferring ∨ v = .evaluating ∨ v = .retrying := by
  cases v <;> simp [inSession]

/-- The master at the start of a session. -/
def masterSent (s : State) (p : Payload) : State :=
  s.withMaster { s.master with
    payload := p, attempts := 1, attStatus := .noAttempt, outcomeValid := false, state := .encoding }

theorem exec_mSend_outside {s : State} (hf : faultFree s .master) (hs : inSession s.master.state = false) (p : Payload) :
    exec (.mSend p) s = .next (masterSent s p) :=
  (instanceStep_clean hf).trans (congrArg _ (if_pos ((inSession_eq_false_iff _).1 hs)))

theorem exec_mSend_inSession {s : State} (hf : faultFree s .master) (hs : inSession s.master.state = true) (p : Payload) :
    exec (.mSend p) s = .next (s.emit (.report (.busy .master))) :=
  (instanceStep_clean hf).trans
    (congrArg _ (if_neg fun hout => by cases hs.symm.trans ((inSession_eq_false_iff _).2 hout)))

/-! ### `M.ENCODE` (R142) -/

/-- The master with its payload in the tx frame. -/
def masterEncoded (s : State) : State :=
  s.withMaster { s.master with txFrame := frameEncode s.master.payload }

/-- The master after it encoded its payload and started the transfer of an attempt. -/
def masterStarted (s : State) (now : Time) : State :=
  let s1 := startTransfer (masterEncoded s) .master
  s1.withMaster { s1.master with
    handle := s1.master.ch.handle
    attStatus := .pending
    attStart := now
    tmPending := insertHandle s1.master.ch.handle s1.master.tmPending
    state := .transferring }

theorem exec_mEncode_idle {s : State} (hf : faultFree s .master) (hs : s.master.state = .encoding)
    (ha : s.master.ch.active = false) (now : Time) : exec (.mEncode now) s = .next (masterStarted s now) :=
  (instanceStep_clean hf).trans (congrArg _ ((if_pos hs).trans (if_neg (Bool.eq_false_iff.1 ha))))

theorem masterStarted_master (s : State) (now : Time) :
    (masterStarted s now).master = { s.master with
      txFrame := frameEncode s.master.payload
      rxBuffer := (masterStarted s now).master.rxBuffer
      handle := freshHandle s .master
      attStatus := .pending
      attStart := now
      tmPending := insertHandle (freshHandle s .master) s.master.tmPending
      state := .transferring
      ch := channelStarted s.master.ch (freshHandle s .master) } := rfl

/-- The exchange that begins is that of the frame just encoded. -/
theorem masterStarted_xPair (s : State) (now : Time) :
    (masterStarted s now).xPair = some { exchangeBegun s (freshHandle s .master) with
      m2s := xorBytes (frameEncode s.master.payload) s.bus.corruptM2s } := rfl

/-! ### The abort of the transfer in flight (R144, R148, R102) -/

/-- The command ends the transfer `h` of the master's channel (R102, U22). -/
abbrev masterAborts (s : State) (h : Handle) : Prop :=
  s.master.ch.active = true ∧ s.master.ch.handle = h

/-- What an abort of the master's does to the bus and to the rx buffer, which alone of the arrays may change. -/
structure AbortEffect (s t : State) (h : Handle) : Prop where
  slave : t.slave = s.slave
  input : t.input = s.input
  bus : t.bus = s.bus
  ended : masterAborts s h → t.xPair = none ∧ t.xMet = metIfCut s ∧ bytesKept s t [.mRxBuffer]
  unseen : ¬masterAborts s h → busKept s t ∧ bytesKept s t []

/-- The master's abort, in one form for both cases of R102. -/
theorem abortTransfer_master_effect (s : State) (h : Handle) :
    (∃ rx, (abortTransfer s .master h).master = { s.master with
      ch := if masterAborts s h then channelAborted s.master.ch (abortKept s .master) else s.master.ch
      rxBuffer := rx }) ∧ AbortEffect s (abortTransfer s .master h) h := by
  by_cases hc : masterAborts s h
  · rw [abortTransfer_master_active hc.1 hc.2, if_pos hc]
    exact ⟨⟨_, rfl⟩, rfl, rfl, rfl,
      fun _ => ⟨rfl, rfl, bytesKept_master_rx rfl rfl rfl rfl fun hl => absurd (by simp) hl⟩, fun hn => absurd hc hn⟩
  · rw [abortTransfer_inactive (r := .master) hc, if_neg hc]
    exact ⟨⟨_, rfl⟩, rfl, rfl, rfl, fun ha => absurd ha hc,
      fun _ => ⟨⟨rfl, rfl, rfl⟩, bytesKept_of_same_instances rfl rfl []⟩⟩

/-- Registers of the master that hold no bytes are written, and something is emitted, beside the abort. -/
theorem AbortEffect.congr {s t u : State} {h : Handle} (e : AbortEffect s t h) (hv : u.slave = t.slave)
    (hin : u.input = t.input) (hbus : busKept t u) (hbytes : ∀ b i, u.readByte b i = t.readByte b i) :
    AbortEffect s u h := by
  obtain ⟨hpair, hmet, hb⟩ := hbus
  refine ⟨hv.trans e.slave, hin.trans e.input, hb.trans e.bus, fun ha => ?_, fun hn => ?_⟩
  · obtain ⟨hx, hm, hk⟩ := e.ended ha
    exact ⟨hpair.trans hx, hmet.trans hm, fun b hl i => (hbytes b i).trans (hk b hl i)⟩
  · obtain ⟨⟨hx, hm, hbb⟩, hk⟩ := e.unseen hn
    exact ⟨⟨hpair.trans hx, hmet.trans hm, hb.trans hbb⟩, fun b hl i => (hbytes b i).trans (hk b hl i)⟩

/-! ### `M.TIMEOUT` (R144) -/

theorem masterTimedOut_master (s : State) (h : Handle) :
    (masterTimedOut s h).master = { s.master with
      attStatus := .timedOut
      state := .evaluating
      tmPending := removeHandle h s.master.tmPending
      ch := if masterAborts s h then channelAborted s.master.ch (abortKept s .master) else s.master.ch
      rxBuffer := (masterTimedOut s h).master.rxBuffer } := by
  obtain ⟨⟨rx, e⟩, -⟩ := abortTransfer_master_effect (masterExpired s h) h
  simp only [masterTimedOut, State.withMaster_master, e]
  rfl

theorem masterTimedOut_outputs (s : State) (h : Handle) :
    (masterTimedOut s h).outputs = s.outputs ++ [.dmaAbort .master h] :=
  abortTransfer_outputs (masterExpired s h) .master h

theorem masterTimedOut_effect (s : State) (h : Handle) : AbortEffect s (masterTimedOut s h) h := by
  obtain ⟨-, e⟩ := abortTransfer_master_effect (masterExpired s h) h
  have e' : AbortEffect s (abortTransfer (masterExpired s h) .master h) h :=
    ⟨e.slave, e.input, e.bus, e.ended, e.unseen⟩
  exact e'.congr rfl rfl ⟨rfl, rfl, rfl⟩ fun b i => by cases b <;> rfl

/-! ### `M.EVALUATE` (R145, R187) -/

/-- The master after an attempt that the policy is asked about. -/
def masterJudged (s : State) (o : TransferOutcome) : State :=
  s.withMaster { s.master with outcome := o, outcomeValid := true, state := .retrying }

/-- The master after a successful attempt. -/
def masterSucceeded (s : State) (p : Payload) : State :=
  (s.withMaster { s.master with outcome := .crcValid, outcomeValid := true, rxPayload := p, state := .success }).emit
    (.report (.success p))

section
variable {s : State} (hf : faultFree s .master) (hs : s.master.state = .evaluating)
include hf hs

/-- A timeout comes first, whatever the buffer holds. -/
theorem exec_mEvaluate_timedOut (ht : s.master.attStatus = .timedOut) :
    exec .mEvaluate s = .next (masterJudged s .timeout) := by
  simp [exec, execMEvaluate, instanceStep_clean hf, hs, ht, masterJudged]

/-- A transport error comes next, without decoding. -/
theorem exec_mEvaluate_error (ht : s.master.attStatus ≠ .timedOut) (hst : s.master.rawStatus = .error) :
    exec .mEvaluate s = .next (masterJudged s .hardwareFault) := by
  simp [exec, execMEvaluate, instanceStep_clean hf, hs, ht, hst, completionOutcome, masterJudged]

theorem exec_mEvaluate_invalid (ht : s.master.attStatus ≠ .timedOut) (hst : s.master.rawStatus = .ok)
    (ha : s.master.ch.active = false) (hv : frameValid s.master.rxBuffer = false) :
    exec .mEvaluate s = .next (masterJudged s .crcMismatch) := by
  simp [exec, execMEvaluate, instanceStep_clean hf, hs, ht, hst, ha, hv, completionOutcome, masterJudged]

theorem exec_mEvaluate_valid (ht : s.master.attStatus ≠ .timedOut) (hst : s.master.rawStatus = .ok)
    (ha : s.master.ch.active = false) (hv : frameValid s.master.rxBuffer = true) :
    exec .mEvaluate s = .next (masterSucceeded s (framePayload s.master.rxBuffer)) := by
  simp [exec, execMEvaluate, instanceStep_clean hf, hs, ht, hst, ha, hv, completionOutcome, masterSucceeded, frameDecode]

end

/-! ### `M.RETRY` (R146, R170, R171) -/

theorem retryable_iff (o : TransferOutcome) :
    retryable o = true ↔ o = .crcMismatch ∨ o = .timeout ∨ o = .hardwareFault := by
  cases o <;> simp [retryable]

/-- The policy allows the master another attempt. -/
def mayRetry (s : State) : Prop :=
  (s.master.outcome = .crcMismatch ∨ s.master.outcome = .timeout ∨ s.master.outcome = .hardwareFault) ∧
    s.master.attempts < s.master.cfg.maxAttempts

theorem policyDecide_eq_retry {s : State} (h : mayRetry s) :
    policyDecide s.master.outcome s.master.attempts s.master.cfg.maxAttempts = .retry :=
  if_pos (h.imp_left (retryable_iff _).2)

theorem policyDecide_eq_giveUp {s : State} (h : ¬mayRetry s) :
    policyDecide s.master.outcome s.master.attempts s.master.cfg.maxAttempts = .giveUp :=
  if_neg (mt (And.imp_left (retryable_iff _).1) h)

/-- The master at the start of another attempt. -/
def masterRetried (s : State) (q : Option Payload) : State :=
  s.withMaster { s.master with
    attempts := s.master.attempts + 1, payload := q.getD s.master.payload, state := .encoding }

/-- The master whose session failed with its last attempt. -/
def masterGivenUp (s : State) : State :=
  (s.withMaster { s.master with state := .failed }).emit (.report (.failed s.master.outcome s.master.attempts))

theorem exec_mRetry_retry {s : State} (hf : faultFree s .master) (hs : s.master.state = .retrying) (hr : mayRetry s)
    (q : Option Payload) : exec (.mRetry q) s = .next (masterRetried s q) := by
  simp [exec, execMRetry, instanceStep_clean hf, hs, policyDecide_eq_retry hr, masterRetried]

theorem exec_mRetry_giveUp {s : State} (hf : faultFree s .master) (hs : s.master.state = .retrying) (hr : ¬mayRetry s)
    (q : Option Payload) : exec (.mRetry q) s = .next (masterGivenUp s) := by
  simp [exec, execMRetry, instanceStep_clean hf, hs, policyDecide_eq_giveUp hr, masterGivenUp]

/-! ### `M.CANCEL` (R148) -/

/-- The master whose session of `n` attempts was cancelled. -/
def masterCancelled (s : State) (n : Nat) : State :=
  (s.withMaster { s.master with outcome := .cancelled, outcomeValid := true, state := .failed }).emit
    (.report (.failed .cancelled n))

/-- The master after it aborted the transfer in flight. -/
def masterAborted (s : State) : State :=
  let s1 := abortTransfer s .master s.master.handle
  s1.withMaster { s1.master with attStatus := .aborted }

theorem exec_mCancel_transferring {s : State} (hf : faultFree s .master) (hs : s.master.state = .transferring) :
    exec .mCancel s = .next (masterCancelled (masterAborted s) s.master.attempts) := by
  simp only [exec, execMCancel, instanceStep_clean hf, hs]
  rfl

theorem exec_mCancel_between {s : State} (hf : faultFree s .master)
    (hs : s.master.state = .encoding ∨ s.master.state = .evaluating ∨ s.master.state = .retrying) :
    exec .mCancel s = .next (masterCancelled s s.master.attempts) := by
  have hin : ¬(s.master.state = .idle ∨ s.master.state = .success ∨ s.master.state = .failed) := by
    rcases hs with e | e | e <;> simp [e]
  have hno : s.master.state ≠ .transferring := by rcases hs with e | e | e <;> simp [e]
  simp only [exec, execMCancel, instanceStep_clean hf, if_neg hin, if_neg hno]
  rfl

theorem exec_mCancel_outside {s : State} (hf : faultFree s .master) (hs : inSession s.master.state = false) :
    exec .mCancel s = .next s :=
  (instanceStep_clean hf).trans (congrArg _ (if_pos ((inSession_eq_false_iff _).1 hs)))

theorem masterCancelled_aborted_master (s : State) (n : Nat) :
    (masterCancelled (masterAborted s) n).master = { s.master with
      attStatus := .aborted
      outcome := .cancelled
      outcomeValid := true
      state := .failed
      ch := if masterAborts s s.master.handle then channelAborted s.master.ch (abortKept s .master) else s.master.ch
      rxBuffer := (masterCancelled (masterAborted s) n).master.rxBuffer } := by
  obtain ⟨⟨rx, e⟩, -⟩ := abortTransfer_master_effect s s.master.handle
  simp only [masterCancelled, masterAborted, State.emit_master, State.withMaster_master, e]

theorem masterCancelled_aborted_outputs (s : State) (n : Nat) :
    (masterCancelled (masterAborted s) n).outputs =
      s.outputs ++ [.dmaAbort .master s.master.handle, .report (.failed .cancelled n)] := by
  simp [masterCancelled, masterAborted]

theorem masterCancelled_aborted_effect (s : State) (n : Nat) :
    AbortEffect s (masterCancelled (masterAborted s) n) s.master.handle := by
  obtain ⟨-, e⟩ := abortTransfer_master_effect s s.master.handle
  exact e.congr rfl rfl ⟨rfl, rfl, rfl⟩ fun b i => by cases b <;> rfl

/-! ### The obligations of 44_master_protocol.md on single events -/

/-- Settles O34: the two branches of the event. -/
theorem mSendResult : Obligations.MSendResult := by
  refine fun p s hf => ⟨fun hs => ?_, fun hs => exec_mSend_inSession hf ((inSession_iff _).2 hs) p⟩
  exact ⟨_, exec_mSend_outside hf ((inSession_eq_false_iff _).2 hs) p, rfl,
    bytesKept_of_master rfl (fun h => absurd (by simp) h) (fun _ => rfl) (fun _ => rfl) fun _ => rfl⟩

/-- Settles O35: each clause is what the start of the attempt does to that field. -/
theorem mEncodeStartsTransfer : Obligations.MEncodeStartsTransfer := by
  intro now s hf hs ha h
  exact ⟨_, exec_mEncode_idle hf hs ha now, masterStarted_master s now, rfl, rfl, rfl, rfl, masterStarted_xPair s now, rfl,
    bytesKept_of_master rfl (fun _ => rfl) (fun h => absurd (by simp) h) (fun h => absurd (by simp) h) fun _ => rfl⟩

/-- Settles O36: both branches begin with the delivery, which changes the channel and may leave the rx buffer unspecified. -/
theorem mCompleteResult : Obligations.MCompleteResult := by
  intro h st s hf hp
  obtain ⟨rx, n, e, hkept⟩ := deliverCompletion_master_form s h st
  have hrx : .mRxBuffer ∉ (if s.master.ch.active = true ∧ s.master.ch.handle = h ∧ st = .error then [Buffer.mRxBuffer]
      else []) → rx = s.master.rxBuffer := fun hl => by
    obtain ⟨hrx, -⟩ := hkept fun hc => hl (by simp [hc])
    exact hrx
  by_cases ha : masterAwaits s h
  · refine ⟨_, exec_mComplete_accepted hf hp ha st, ?_⟩
    rw [masterCompleted, e]
    exact ⟨channelDelivered_eq _ h, fun _ => rfl, fun hn => absurd ha hn, rfl, ⟨rfl, rfl, rfl⟩, rfl, rfl,
      bytesKept_master_rx rfl rfl rfl rfl hrx⟩
  · refine ⟨_, exec_mComplete_discarded hf hp ha st, ?_⟩
    rw [e]
    exact ⟨channelDelivered_eq _ h, fun hy => absurd hy ha, fun _ => rfl, rfl, ⟨rfl, rfl, rfl⟩, rfl, rfl,
      bytesKept_master_rx rfl rfl rfl rfl hrx⟩

/-- Settles O37: accepted, the master without that expiry aborts the transfer. -/
theorem mTimeoutResult : Obligations.MTimeoutResult := by
  refine fun h s hf hp => ⟨fun ha => ?_, fun hn => exec_mTimeout_discarded hf hp hn⟩
  have e := masterTimedOut_effect s h
  exact ⟨_, exec_mTimeout_accepted hf hp ha, masterTimedOut_master s h, masterTimedOut_outputs s h, e.slave, e.input, e.bus,
    e.ended, e.unseen⟩

/-- Settles O38: the outcome is judged by the timeout first, then by the status, then by the CRC. -/
theorem mEvaluateResult : Obligations.MEvaluateResult := by
  refine fun s hf hs => ⟨fun ht => exec_mEvaluate_timedOut hf hs ht, fun ht hst => exec_mEvaluate_error hf hs ht hst,
    fun ht hst ha => ⟨framePayload s.master.rxBuffer, framePayload_data _, fun hne => ?_, fun heq => ?_⟩⟩
  · exact exec_mEvaluate_invalid hf hs ht hst ha (Bool.eq_false_iff.2 (mt (frameValid_iff_crc _).1 hne))
  · exact ⟨_, exec_mEvaluate_valid hf hs ht hst ha ((frameValid_iff_crc _).2 heq), rfl, rfl, rfl, ⟨rfl, rfl, rfl⟩, rfl,
      bytesKept_of_master rfl (fun _ => rfl) (fun _ => rfl) (fun _ => rfl) fun h => absurd (by simp) h⟩

/-- Settles O39: the two answers of the policy. -/
theorem mRetryResult : Obligations.MRetryResult := by
  refine fun q s hf hs => ⟨fun hr => ?_, fun hr => exec_mRetry_giveUp hf hs hr q⟩
  refine ⟨_, exec_mRetry_retry hf hs hr q, rfl, ?_, ?_,
    bytesKept_of_master rfl (fun h => absurd (by simp) h) (fun _ => rfl) (fun _ => rfl) fun _ => rfl⟩
  · rintro p rfl; rfl
  · rintro rfl; rfl

/-- Settles O40: in `M_Transferring` the cancel aborts first; in the other session states it has no transfer to abort. -/
theorem mCancelResult : Obligations.MCancelResult := by
  refine fun s hf => ⟨fun hs => ?_, exec_mCancel_between hf,
    fun hs => exec_mCancel_outside hf ((inSession_eq_false_iff _).2 hs)⟩
  have e := masterCancelled_aborted_effect s s.master.attempts
  exact ⟨_, exec_mCancel_transferring hf hs, masterCancelled_aborted_master s _, masterCancelled_aborted_outputs s _,
    e.slave, e.input, e.bus, e.ended, e.unseen⟩

end Sys2Proof.Machine

/-! What the master's moves keep (44_master_protocol.md): its table (R152), the attempt counter (R147), one report for each
session (R153), and no start outside one (R148, R157 D). -/

namespace Sys2Proof.Machine

/-! ### The edges of the master's table (R152) -/

/-- A move of the master leaves the state as it is, or takes it along an edge. -/
theorem MasterMove.edge {s t : State} {i : Instr} (h : MasterMove s i t) :
    t.master.state = s.master.state ∨ MasterEdge s.master i t.master.state := by
  cases h with
  | send p hs => exact .inr (.send p hs)
  | encode now hs _ _ => exact .inr (.encode now hs)
  | complete _ st _ ha _ =>
    obtain ⟨hs, rfl⟩ := ha
    exact .inr (.complete st hs)
  | timeout _ _ ha _ =>
    obtain ⟨hs, rfl⟩ := ha
    exact .inr (.timeout hs)
  | succeed _ hs => exact .inr (.succeed hs)
  | judgeFailed _ hs _ => exact .inr (.judgeFailed hs)
  | retry q hs _ => exact .inr (.retry q hs)
  | giveUp q hs => exact .inr (.giveUp q hs)
  | cancelBetween hs _ => exact .inr (.cancel hs)
  | cancelTransfer hs _ => exact .inr (.cancel (by rw [hs]; rfl))
  | _ => exact .inl (by simp)

/-! ### The attempt counter (R147) -/

/-- Of the master's moves only `M.SEND` and a retry write the attempt counter. -/
theorem MasterMove.attempts {s t : State} {i : Instr} (h : MasterMove s i t) :
    t.master.attempts = s.master.attempts ∨ (∃ p, i = .mSend p ∧ t.master.attempts = 1) ∨
      ∃ q, i = .mRetry q ∧ t.master.attempts = s.master.attempts + 1 ∧
        s.master.attempts < s.master.cfg.maxAttempts ∧ t.master.state = .encoding := by
  cases h with
  | send p _ => exact .inr (.inl ⟨p, rfl, rfl⟩)
  | retry q _ hlt => exact .inr (.inr ⟨q, rfl, rfl, hlt, rfl⟩)
  | encode _ _ _ e | complete _ _ _ _ e | timeout _ _ _ e | cancelTransfer _ e => subst e; exact .inl (by simp)
  | _ => exact .inl (by simp)

/-! ### Chains of steps -/

theorem andThen_next {o : Result} {s : State} (h : o = .next s) (k : State → Result) : andThen o k = k s := by
  rw [h]; rfl

theorem andThen_next_iff {o : Result} {k : State → Result} {t : State} :
    andThen o k = .next t ↔ ∃ s, o = .next s ∧ k s = .next t := by
  cases o <;> simp [andThen]

/-! ### Session reports (R153) -/

theorem sessionReports_append {s t : State} {l : List Output} {n : Nat} (h : t.outputs = s.outputs ++ l)
    (hl : l.countP isSessionReport = n) : sessionReports t = sessionReports s + n := by
  rw [sessionReports, h, List.countP_append, hl]; rfl

theorem masterStarts_append {s t : State} {l : List Output} {n : Nat} (h : t.outputs = s.outputs ++ l)
    (hl : l.countP isMasterStart = n) : masterStarts t = masterStarts s + n := by
  rw [masterStarts, h, List.countP_append, hl]; rfl

/-- No report of a session was emitted, and no start of the master's. -/
structure Silent (s t : State) : Prop where
  reports : sessionReports t = sessionReports s
  starts : masterStarts t = masterStarts s

theorem Silent.of_same {s t : State} (h : t.outputs = s.outputs) : Silent s t :=
  ⟨congrArg (List.countP _) h, congrArg (List.countP _) h⟩

theorem Silent.of_append {s t : State} {l : List Output} (h : t.outputs = s.outputs ++ l)
    (hr : l.countP isSessionReport = 0) (hs : l.countP isMasterStart = 0) : Silent s t :=
  ⟨sessionReports_append h hr, masterStarts_append h hs⟩

theorem silent_slaveGivenUp (s : State) (h : Handle) (a : AttemptStatus) (o : TransferOutcome) :
    Silent s (slaveGivenUp s h a o) := by
  obtain ⟨_, _, _, e, -⟩ := slaveGivenUp_form s h a o
  rw [e]
  exact .of_append rfl rfl rfl

/-- A record of the slave emits neither. -/
theorem SlaveMove.silent {s t : State} {i : Instr} (h : SlaveMove s i t) : Silent s t := by
  cases h with
  | start _ => exact .of_append (startTransfer_outputs s .slave) rfl rfl
  | abort hd => exact .of_append (abortTransfer_outputs s .slave hd) rfl rfl
  | busy _ _ | report _ _ _ | abortIdle _ => exact .of_append rfl rfl rfl
  | provide _ _ _ e => subst e; exact .of_append (startTransfer_outputs _ .slave) rfl rfl
  | complete _ _ _ _ e => subst e; exact .of_same (by simp)
  | armTimeout hd _ _ _ e => subst e; exact { silent_slaveGivenUp (slaveExpired s hd) _ _ _ with }
  | abortInFlight _ e => subst e; exact silent_slaveGivenUp s _ _ _
  | _ => exact .of_same (by simp)

/-- A record of neither side emits neither; a reset of the master ends a session without a report (R200). -/
theorem silent_of_none {i : Instr} {s t : State} (ho : instrOwner i = none) (h : exec i s = .next t) : Silent s t := by
  cases i with
  | sysReset r => cases r <;> cases h <;> exact .of_same rfl
  | crcCompute _ | fcEncode _ | fcDecode _ _ | rpDecide _ _ _ => cases h; exact .of_append rfl rfl rfl
  | _ => cases ho

/-- A record of neither side and no reset of the master leaves the master as it is. -/
theorem OpenMove.master_eq {s t : State} {i : Instr} (h : OpenMove s i t) (hr : i ≠ .sysReset .master) :
    t.master = s.master := by
  cases h with
  | resetMaster => exact absurd rfl hr
  | resetSlave | answer => rfl

/-- No report of a session, and no session ends. -/
structure KeepsSession (s t : State) : Prop where
  reports : sessionReports t = sessionReports s
  stays : inSession s.master.state = true → inSession t.master.state = true

/-- One report of a session, and a session ends. -/
structure EndsSession (s t : State) : Prop where
  reports : sessionReports t = sessionReports s + 1
  before : inSession s.master.state = true
  after : inSession t.master.state = false

/-- The master is in the same state, and emitted no report of a session. -/
theorem keepsSession_of_state {s t : State} (hr : sessionReports t = sessionReports s)
    (hs : t.master.state = s.master.state) : KeepsSession s t :=
  ⟨hr, by rw [hs]; exact id⟩

theorem keepsSession_of_same {s t : State} (h : t.outputs = s.outputs) (hs : inSession t.master.state = true) :
    KeepsSession s t :=
  ⟨congrArg (List.countP _) h, fun _ => hs⟩

/-- A move of the master reports exactly where it ends a session. -/
theorem MasterMove.session {s t : State} {i : Instr} (h : MasterMove s i t) : KeepsSession s t ∨ EndsSession s t := by
  cases h with
  | start _ => exact .inl (keepsSession_of_state (sessionReports_append (startTransfer_outputs s .master) rfl) (by simp))
  | abort hd => exact .inl (keepsSession_of_state (sessionReports_append (abortTransfer_outputs s .master hd) rfl) (by simp))
  | busy _ _ => exact .inl (keepsSession_of_state (Silent.of_append rfl rfl rfl).reports rfl)
  | encode _ _ _ e =>
    subst e
    exact .inl ⟨sessionReports_append (startTransfer_outputs _ .master) rfl, fun _ => rfl⟩
  | complete hd st _ _ e => subst e; exact .inl (keepsSession_of_same (deliverCompletion_outputs s .master hd st) rfl)
  | timeout _ _ _ e => subst e; exact .inl ⟨sessionReports_append (abortTransfer_outputs _ .master _) rfl, fun _ => rfl⟩
  | send _ _ | judgeFailed _ _ _ | retry _ _ _ => exact .inl (keepsSession_of_same rfl rfl)
  | succeed _ hs | giveUp _ hs => exact .inr ⟨sessionReports_append rfl rfl, by rw [hs]; rfl, rfl⟩
  | cancelBetween hs _ => exact .inr ⟨sessionReports_append rfl rfl, hs, rfl⟩
  | cancelTransfer hs e =>
    subst e
    exact .inr ⟨sessionReports_append (masterCancelled_aborted_outputs s s.master.attempts) rfl, by rw [hs]; rfl, rfl⟩
  | _ => exact .inl (keepsSession_of_state (congrArg (List.countP _) (by simp)) (by simp))

/-- Every record but a reset of the master keeps the session or ends it with one report. -/
theorem exec_session {i : Instr} {s t : State} (hr : i ≠ .sysReset .master) (h : exec i s = .next t) :
    KeepsSession s t ∨ EndsSession s t := by
  cases ho : instrOwner i with
  | none =>
    exact .inl (keepsSession_of_state (silent_of_none ho h).reports
      (congrArg _ ((openMove_of_exec ho h).master_eq hr)))
  | some r => cases r with
    | master => exact (masterMove_of_exec ho h).session
    | slave =>
      have hm := slaveMove_of_exec ho h
      exact .inl (keepsSession_of_state hm.silent.reports (congrArg _ hm.master_eq))

/-! ### Outside a session (R148, R157 D) -/

/-- The master was given no start and is in no session. -/
structure StaysOutside (s t : State) : Prop where
  starts : masterStarts t = masterStarts s
  outside : inSession t.master.state = false

/-- Neither `M.SEND` nor a direct `DMA.START` of the master. -/
def noStart (i : Instr) : Prop :=
  (∀ p, i ≠ .mSend p) ∧ i ≠ .dmaStart .master

/-- Outside a session the moves of the master other than its two starts are discarded events, an abort and a fault. -/
theorem MasterMove.outside {s t : State} {i : Instr} (h : MasterMove s i t) (hi : noStart i)
    (hs : inSession s.master.state = false) : StaysOutside s t := by
  cases h with
  | start _ | startFault _ => exact absurd rfl hi.2
  | send p _ | busy p _ => exact absurd rfl (hi.1 p)
  | abort hd => exact ⟨masterStarts_append (abortTransfer_outputs s .master hd) rfl, by simpa using hs⟩
  | completionDiscarded hd st _ _ =>
    exact ⟨congrArg (List.countP _) (deliverCompletion_outputs s .master hd st), by simpa using hs⟩
  | stays | timeoutDiscarded _ _ _ => exact ⟨rfl, hs⟩
  | complete _ _ _ ha _ | timeout _ _ ha _ => rw [ha.1] at hs; cases hs
  | cancelBetween hin _ => cases hin.symm.trans hs
  | encodeFault _ he _ | encode _ he _ _ | evaluateFault he _ | succeed _ he | judgeFailed _ he _ | retry _ he _
  | giveUp _ he | cancelTransfer he _ => rw [he] at hs; cases hs

theorem exec_outside {i : Instr} {s t : State} (hi : noStart i) (hs : inSession s.master.state = false)
    (h : exec i s = .next t) : StaysOutside s t := by
  cases ho : instrOwner i with
  | none =>
    refine ⟨(silent_of_none ho h).starts, ?_⟩
    cases openMove_of_exec ho h with
    | resetMaster => rfl
    | resetSlave | answer => exact hs
  | some r => cases r with
    | master => exact (masterMove_of_exec ho h).outside hi hs
    | slave =>
      have hm := slaveMove_of_exec ho h
      exact ⟨hm.silent.starts, by rw [hm.master_eq]; exact hs⟩

theorem execAll_outside {is : List Instr} (hi : ∀ i ∈ is, noStart i) {s t : State}
    (hs : inSession s.master.state = false) (h : execAll is s = .next t) : StaysOutside s t := by
  induction is generalizing s with
  | nil => cases h; exact ⟨rfl, hs⟩
  | cons i is ih =>
    obtain ⟨hfirst, hrest⟩ := List.forall_mem_cons.1 hi
    obtain ⟨u, hu, hk⟩ := andThen_next_iff.1 h
    have first := exec_outside hfirst hs hu
    have rest := ih hrest first.outside hk
    exact ⟨rest.starts.trans first.starts, rest.outside⟩

theorem envAct_outside (a : EnvAct) {s : State} (hs : inSession s.master.state = false) :
    StaysOutside s (envAct a s) := by
  refine ⟨congrArg (List.countP _) (envAct_outputs a s), ?_⟩
  obtain ⟨_, _, _, _, _, _, _, _, _, _, e, -⟩ := envAct_form a s
  rwa [e]

/-- A record that the bus delivers by itself is neither of the two starts. -/
theorem BusRecord.noStart_of_decode {i j : Instr} {dest : Role} {rest : List Byte} (hb : BusRecord i)
    (hd : decode dest (encode i) = .ok (j, rest)) : noStart j := by
  cases hb with
  | begin h => rw [decode_encode_sBegin] at hd; cases hd; exact ⟨nofun, nofun⟩
  | slaveDone h => rw [decode_encode_sComplete] at hd; cases hd; exact ⟨nofun, nofun⟩
  | masterDone h => rw [decode_encode_mComplete] at hd; cases hd; exact ⟨nofun, nofun⟩

theorem Evolves.offersNoStart {s t : State} (e : Evolves s t) (h : offersNoStart s) : offersNoStart t := by
  intro dest bytes hin i rest hd
  rcases e.input _ hin with hold | ⟨r, j, hb, eq⟩
  · exact h dest bytes hold i rest hd
  · cases eq
    exact hb.noStart_of_decode hd

/-- An internal step is neither of the two, so while none is offered none runs. -/
theorem runsNext.noStart {s : State} {i : Instr} {later : List Input} (h : runsNext s i later) (hin : offersNoStart s) :
    noStart i := by
  rcases h with ⟨dest, bytes, rest, e, hd⟩ | ⟨-, -, hi⟩
  · exact hin dest bytes (by rw [e]; exact List.mem_cons_self) i rest hd
  · rcases internalStep?_cases hi with ⟨-, ⟨-, rfl⟩ | ⟨-, rfl⟩ | ⟨-, rfl⟩⟩ | ⟨-, -, rfl⟩ <;> exact ⟨nofun, nofun⟩

theorem step_outside {s t : State} (hs : inSession s.master.state = false) (hin : offersNoStart s)
    (h : step s = .next t) : StaysOutside s t := by
  obtain ⟨-, ⟨i, later, n, hr, he⟩ | ⟨a, later, -, rfl⟩ | rfl⟩ := step_next_cases h
  · exact { exec_outside (s := { s with input := later, free := n }) (hr.noStart hin) hs he with }
  · exact { envAct_outside a (s := { s with input := later }) hs with }
  · exact ⟨rfl, hs⟩

/-! ### The obligations of 44_master_protocol.md on every record and step -/

/-- Settles O52: a move of the master, its reset, or a record that leaves the master as it is. -/
theorem masterMovesByItsTable : Obligations.MasterMovesByItsTable := by
  intro i s t h
  rcases exec_next_cases h with ⟨-, hm⟩ | ⟨-, hm⟩ | hm
  · exact hm.edge
  · exact .inl (congrArg _ hm.master_eq)
  · cases hm with
    | resetMaster => exact .inr .reset
    | resetSlave | answer => exact .inl rfl

/-- Settles O54: the two moves of the master that write the counter, and its reset. -/
theorem attemptCounterWriters : Obligations.AttemptCounterWriters := by
  intro i s t h
  rcases exec_next_cases h with ⟨-, hm⟩ | ⟨-, hm⟩ | hm
  · exact hm.attempts.imp_right (Or.imp_right .inl)
  · exact .inl (congrArg _ hm.master_eq)
  · cases hm with
    | resetMaster => exact .inr (.inr (.inr ⟨rfl, rfl⟩))
    | resetSlave | answer => exact .inl rfl

/-- Settles O55: the session is kept without a report, or ended with one. -/
theorem oneReportPerSession : Obligations.OneReportPerSession := by
  intro i s t h
  by_cases hr : i = .sysReset .master
  · rw [if_neg fun ⟨_, _, hne⟩ => hne hr]
    subst hr
    exact (silent_of_none rfl h).reports
  · rcases exec_session hr h with hk | he
    · rw [if_neg fun ⟨hs, ht, _⟩ => by cases (hk.stays hs).symm.trans ht]
      exact hk.reports
    · rw [if_pos ⟨he.before, he.after, hr⟩]
      exact he.reports

/-- Settles O60: outside a session every record but the two starts, every action of the transport and every internal step
leaves the master outside, and nothing the bus offers is one of the two. -/
theorem noStartUntilTheNextSend : Obligations.NoStartUntilTheNextSend := by
  refine ⟨fun is s t hs hi h => ?_, fun s t hs hin h => ?_⟩
  · have e := execAll_outside hi hs h
    exact ⟨e.starts, e.outside⟩
  · have e := step_outside hs hin h
    exact ⟨e.starts, e.outside, (step_evolves h).offersNoStart hin⟩

end Sys2Proof.Machine

/-! The chains of steps of R157 (44_master_protocol.md): attempts that all time out, and an attempt whose exchange is
faithful, both run on the states of the master's and the slave's events. -/

namespace Sys2Proof.Machine

/-! ### Attempts that time out (R157 C, R171) -/

/-- The master is about to make an attempt. -/
structure AttemptReady (s : State) : Prop where
  clean : faultFree s .master
  encoding : s.master.state = .encoding
  idle : s.master.ch.active = false

/-- The master after an attempt whose timer fired first, before it asks the policy. -/
def attemptTimedOut (s : State) (now : Time) : State :=
  masterJudged (masterTimedOut (masterStarted s now) (freshHandle s .master)) .timeout

theorem timedOutAttempt_eq {s : State} (h : AttemptReady s) (now : Time) (q : Option Payload) :
    timedOutAttempt now q s = exec (.mRetry q) (attemptTimedOut s now) := by
  let u := masterStarted s now
  have hu : faultFree u .master := h.clean
  have expires : freshHandle s .master ∈ u.master.tmPending := (mem_insertHandle _ _ _).2 (.inl rfl)
  have timeout : exec (.mTimeout u.master.handle) u = .next (masterTimedOut u (freshHandle s .master)) :=
    exec_mTimeout_accepted hu expires ⟨rfl, rfl⟩
  unfold timedOutAttempt
  rw [andThen_next (exec_mEncode_idle h.clean h.encoding h.idle now), andThen_next timeout,
    andThen_next (exec_mEvaluate_timedOut ((masterTimedOut_fault u _).trans hu) rfl rfl)]
  rfl

/-- The attempt's transfer was the active one, so its abort left the channel idle. -/
theorem attemptTimedOut_master (s : State) (now : Time) :
    ∃ rx tm c, (attemptTimedOut s now).master = { s.master with
      txFrame := frameEncode s.master.payload
      rxBuffer := rx
      handle := freshHandle s .master
      attStatus := .timedOut
      attStart := now
      tmPending := tm
      outcome := .timeout
      outcomeValid := true
      state := .retrying
      ch := c } ∧ c.active = false := by
  have aborts : masterAborts (masterStarted s now) (freshHandle s .master) := ⟨rfl, rfl⟩
  have e := masterTimedOut_master (masterStarted s now) (freshHandle s .master)
  rw [if_pos aborts] at e
  rw [attemptTimedOut, masterJudged, State.withMaster_master, e]
  exact ⟨_, _, _, rfl, rfl⟩

theorem attemptTimedOut_outputs (s : State) (now : Time) :
    (attemptTimedOut s now).outputs =
      s.outputs ++ [.dmaStart .master (freshHandle s .master), .dmaAbort .master (freshHandle s .master)] := by
  have e : (attemptTimedOut s now).outputs = _ := masterTimedOut_outputs (masterStarted s now) (freshHandle s .master)
  rw [e, show (masterStarted s now).outputs = _ from startTransfer_outputs (masterEncoded s) .master]
  simp only [List.append_assoc]
  rfl

/-- `t` comes after `s` by attempts that timed out and were each retried, with the retry payloads of `tries`. -/
structure AfterTimeouts (s t : State) (tries : List (Time × Option Payload)) : Prop where
  ready : AttemptReady t
  cfg : t.master.cfg = s.master.cfg
  attempts : t.master.attempts = s.master.attempts + tries.length
  payload : t.master.payload = tries.foldl (fun p try' => try'.2.getD p) s.master.payload
  reports : sessionReports t = sessionReports s
  starts : masterStarts t = masterStarts s + tries.length

theorem AfterTimeouts.refl {s : State} (h : AttemptReady s) : AfterTimeouts s s [] :=
  ⟨h, rfl, rfl, rfl, rfl, rfl⟩

theorem AfterTimeouts.cons {s t u : State} {x : Time × Option Payload} {l : List (Time × Option Payload)}
    (h : AfterTimeouts s t [x]) (k : AfterTimeouts t u l) : AfterTimeouts s u (x :: l) where
  ready := k.ready
  cfg := k.cfg.trans h.cfg
  attempts := by rw [k.attempts, h.attempts, List.length_singleton, List.length_cons]; omega
  payload := by rw [k.payload, h.payload]; rfl
  reports := k.reports.trans h.reports
  starts := by rw [k.starts, h.starts, List.length_singleton, List.length_cons]; omega

/-- Below the limit an attempt that timed out is retried. -/
theorem timedOutAttempt_retries {s : State} (h : AttemptReady s) (hlt : s.master.attempts < s.master.cfg.maxAttempts)
    (now : Time) (q : Option Payload) :
    ∃ t, timedOutAttempt now q s = .next t ∧ AfterTimeouts s t [(now, q)] := by
  obtain ⟨_, _, _, e, hidle⟩ := attemptTimedOut_master s now
  have hout := attemptTimedOut_outputs s now
  refine ⟨masterRetried (attemptTimedOut s now) q, (timedOutAttempt_eq h now q).trans (exec_mRetry_retry ?_ rfl ?_ q), ?_⟩
  · rw [faultFree, State.faultMark_master, e]; exact h.clean
  · rw [mayRetry, e]; exact ⟨.inr (.inl rfl), hlt⟩
  · refine ⟨⟨?_, rfl, ?_⟩, ?_, ?_, ?_, sessionReports_append (n := 0) hout rfl, masterStarts_append hout rfl⟩
    all_goals simp only [faultFree, State.faultMark_master, masterRetried, State.withMaster_master, e]
    · exact h.clean
    · exact hidle
    · rfl
    · rfl

/-- At the limit it ends the session (R146, R171). -/
theorem timedOutAttempt_fails {s : State} (h : AttemptReady s) (hlim : s.master.attempts = s.master.cfg.maxAttempts)
    (now : Time) (q : Option Payload) :
    ∃ t, timedOutAttempt now q s = .next t ∧ t.master.state = .failed ∧ t.master.outcome = .timeout ∧
      t.master.attempts = s.master.attempts ∧
      t.outputs.getLast? = some (.report (.failed .timeout s.master.attempts)) ∧
      sessionReports t = sessionReports s + 1 ∧ masterStarts t = masterStarts s + 1 := by
  obtain ⟨_, _, _, e, hidle⟩ := attemptTimedOut_master s now
  have hout : (masterGivenUp (attemptTimedOut s now)).outputs = s.outputs ++
      [.dmaStart .master (freshHandle s .master), .dmaAbort .master (freshHandle s .master),
        .report (.failed .timeout s.master.attempts)] := by
    rw [masterGivenUp, State.emit_outputs, State.withMaster_outputs, attemptTimedOut_outputs, e]
    simp
  refine ⟨masterGivenUp (attemptTimedOut s now), (timedOutAttempt_eq h now q).trans (exec_mRetry_giveUp ?_ rfl ?_ q), rfl,
    rfl, ?_, ?_, sessionReports_append hout rfl, masterStarts_append hout rfl⟩
  · rw [faultFree, State.faultMark_master, e]; exact h.clean
  · rw [mayRetry, e]; exact fun hr => absurd hr.2 (by simp [hlim])
  · simp only [masterGivenUp, State.emit_master, State.withMaster_master, e]
  · rw [hout]; simp

theorem timedOutAttempts_retry {tries : List (Time × Option Payload)} {s : State} (h : AttemptReady s)
    (hle : s.master.attempts + tries.length ≤ s.master.cfg.maxAttempts) :
    ∃ t, timedOutAttempts tries s = .next t ∧ AfterTimeouts s t tries := by
  induction tries generalizing s with
  | nil => exact ⟨s, rfl, .refl h⟩
  | cons x rest ih =>
    rw [List.length_cons] at hle
    obtain ⟨t, ht, first⟩ := timedOutAttempt_retries h (by omega) x.1 x.2
    have hrest : t.master.attempts + rest.length ≤ t.master.cfg.maxAttempts := by
      rw [first.attempts, first.cfg, List.length_singleton]; omega
    obtain ⟨u, hu, after⟩ := ih first.ready hrest
    exact ⟨u, (andThen_next ht _).trans hu, first.cons after⟩

theorem timedOutAttempts_append (l m : List (Time × Option Payload)) (s : State) :
    timedOutAttempts (l ++ m) s = andThen (timedOutAttempts l s) (timedOutAttempts m) := by
  induction l generalizing s with
  | nil => rfl
  | cons x l ih =>
    simp only [List.cons_append, timedOutAttempts]
    cases timedOutAttempt x.1 x.2 s with
    | next t => exact ih t
    | fault f => rfl
    | refused r => rfl

/-! ### A faithful exchange (R107, R110, R157 A) -/

/-- The bus holds the exchange `x` of the frames of `p`, the master's, and `q`, the slave's, and corrupts nothing. -/
structure FaithfulExchange (s : State) (x : Exchange) (p q : Payload) : Prop where
  contract : s.bus.reference = false
  pair : s.xPair = some x
  toSlave : x.m2s = frameEncode p
  toMaster : x.s2m = frameEncode q
  met : ∀ hs, x.hs = some hs → hs ∈ s.xMet

/-- A channel runs the transfer `h`, whose completion can be delivered. -/
structure ChannelRuns (c : Channel) (h : Handle) : Prop where
  active : c.active = true
  handle : c.handle = h
  pending : h ∈ c.pending

theorem channelRuns_started (c : Channel) (h : Handle) : ChannelRuns (channelStarted c h) h :=
  ⟨rfl, rfl, (mem_insertHandle _ _ _).2 (.inl rfl)⟩

/-- The slave with `n` turns of the exchange before it: its completion, then its report. -/
inductive SlaveStage (x : Exchange) (p : Payload) (v : SlaveInst) : Nat → Prop where
  | waiting : v.fault = [] → inFlight v.state = true → ChannelRuns v.ch v.handle → x.hs = some v.handle →
      SlaveStage x p v 2
  | holding : v.fault = [] → v.state = .completed → v.rawStatus = .ok → v.ch.active = false →
      v.rxBuffer = frameEncode p → SlaveStage x p v 1
  | judged : v.state = .idle → v.outcome = .crcValid → v.outcomeValid = true → SlaveStage x p v 0

/-- The master with `n` turns of the exchange before it: its completion, then its judgement. -/
inductive MasterStage (x : Exchange) (q : Payload) (m : MasterInst) : Nat → Prop where
  | waiting : m.fault = [] → m.state = .transferring → m.attempts = 1 → ChannelRuns m.ch m.handle → x.hm = m.handle →
      MasterStage x q m 2
  | holding : m.fault = [] → m.state = .evaluating → m.attempts = 1 → m.attStatus = .complete → m.rawStatus = .ok →
      m.ch.active = false → m.rxBuffer = frameEncode q → MasterStage x q m 1
  | judged : m.state = .success → m.attempts = 1 → m.rxPayload = q → MasterStage x q m 0

/-- One side's stage of the exchange. -/
def stageOf (s : State) (x : Exchange) (p q : Payload) : Role → Nat → Prop
  | .master => MasterStage x q s.master
  | .slave => SlaveStage x p s.slave

/-- What a side reports of a faithful exchange. -/
def faithfulReport (p q : Payload) : Role → Output
  | .master => .report (.success q)
  | .slave => .report (.frameReceived .crcValid p)

/-- A turn of the side `r` that leaves it `n` turns: the bus and the other side are as they were, and the last turn
reports. -/
structure TurnTaken (s t : State) (x : Exchange) (p q : Payload) (r : Role) (n : Nat) : Prop where
  exchange : FaithfulExchange t x p q
  stage : stageOf t x p q r n
  other : ∀ r', r' ≠ r → ∀ k, stageOf s x p q r' k → stageOf t x p q r' k
  outputs : t.outputs = s.outputs ++ if n = 0 then [faithfulReport p q r] else []

theorem master_stage_kept {s t : State} {x : Exchange} {p q : Payload} (h : t.master = s.master) :
    ∀ r, r ≠ .slave → ∀ k, stageOf s x p q r k → stageOf t x p q r k := by
  intro r hr k hk
  cases r with
  | master => rw [stageOf, h]; exact hk
  | slave => exact absurd rfl hr

theorem slave_stage_kept {s t : State} {x : Exchange} {p q : Payload} (h : t.slave = s.slave) :
    ∀ r, r ≠ .master → ∀ k, stageOf s x p q r k → stageOf t x p q r k := by
  intro r hr k hk
  cases r with
  | master => exact absurd rfl hr
  | slave => rw [stageOf, h]; exact hk

/-- A delivered completion ends the transfer that the channel runs. -/
theorem channelDelivered_ends {c : Channel} {h : Handle} (hc : c.handle = h) : (channelDelivered c h).active = false :=
  Bool.eq_false_iff.2 fun ha => ((channelDelivered_active c h).1 ha).2 hc

/-- A completion with `Ok` leaves the rx buffer as the bus filled it. -/
theorem deliverCompletion_ok (s : State) (r : Role) (h : Handle) :
    deliverCompletion s r h .ok = s.withChannel r (channelDelivered (s.channel r) h) :=
  if_neg fun ⟨_, _, e⟩ => nomatch e

section
variable {s : State} {x : Exchange} {p q : Payload} (he : FaithfulExchange s x p q)
include he

/-- The slave's first turn: the master's frame is clocked in, and the completion is accepted. -/
theorem faithfulTurn_slave_completes (hf : s.slave.fault = []) (hs : inFlight s.slave.state = true)
    (hc : ChannelRuns s.slave.ch s.slave.handle) (hx : x.hs = some s.slave.handle) :
    ∃ t, faithfulTurn .slave s = .next t ∧ TurnTaken s t x p q .slave 1 := by
  have clocks : clocksInto s x .slave :=
    ⟨_, hx, (ownsTransfer_iff _ _ _).2 (.inl ⟨hc.active, hc.handle⟩), he.met _ hx⟩
  have hne : s.slave.state ≠ .completed := fun e => by rw [e] at hs; cases hs
  let u := s.withRx .slave x.m2s
  have accepted : exec (.sComplete s.slave.handle .ok) u = .next (slaveCompleted u s.slave.handle .ok) :=
    exec_sComplete_accepted (s := u) hf hc.pending ((slaveAwaits_iff u _).2 ⟨hs, rfl⟩) .ok
  refine ⟨_, (if_neg hne).trans ((congrArg _ (envAct_clock_stored he.contract he.pair clocks)).trans accepted), ?_⟩
  rw [slaveCompleted, deliverCompletion_ok]
  exact ⟨{ he with }, .holding hf rfl rfl (channelDelivered_ends hc.handle) he.toSlave, master_stage_kept rfl, by simp [u]⟩

/-- The slave's second turn: it reports the master's payload. -/
theorem faithfulTurn_slave_reports (hf : s.slave.fault = []) (hs : s.slave.state = .completed)
    (hst : s.slave.rawStatus = .ok) (ha : s.slave.ch.active = false) (hrx : s.slave.rxBuffer = frameEncode p) :
    ∃ t, faithfulTurn .slave s = .next t ∧ TurnTaken s t x p q .slave 0 := by
  have reports := exec_sReport_ok (s := s) hf hs hst ha
  rw [hrx, frameValid_frameEncode, framePayload_frameEncode, if_pos rfl] at reports
  exact ⟨_, (if_pos hs).trans reports, { he with }, .judged rfl rfl rfl, master_stage_kept rfl, rfl⟩

/-- The master's first turn: the slave's frame is clocked in, and the completion is accepted. -/
theorem faithfulTurn_master_completes (hf : s.master.fault = []) (hs : s.master.state = .transferring)
    (hn : s.master.attempts = 1) (hc : ChannelRuns s.master.ch s.master.handle) (hx : x.hm = s.master.handle) :
    ∃ t, faithfulTurn .master s = .next t ∧ TurnTaken s t x p q .master 1 := by
  have clocks : clocksInto s x .master :=
    (ownsTransfer_iff _ _ _).2 (.inl ⟨hc.active, hc.handle.trans hx.symm⟩)
  have hne : s.master.state ≠ .evaluating := by simp [hs]
  let u := s.withRx .master x.s2m
  have accepted : exec (.mComplete s.master.handle .ok) u = .next (masterCompleted u s.master.handle .ok) :=
    exec_mComplete_accepted (s := u) hf hc.pending ⟨hs, rfl⟩ .ok
  refine ⟨_, (if_neg hne).trans ((congrArg _ (envAct_clock_stored he.contract he.pair clocks)).trans accepted), ?_⟩
  rw [masterCompleted, deliverCompletion_ok]
  exact ⟨{ he with }, .holding hf rfl hn rfl rfl (channelDelivered_ends hc.handle) he.toMaster, slave_stage_kept rfl,
    by simp [u]⟩

/-- The master's second turn: it succeeds with the slave's payload. -/
theorem faithfulTurn_master_succeeds (hf : s.master.fault = []) (hs : s.master.state = .evaluating)
    (hn : s.master.attempts = 1) (hatt : s.master.attStatus = .complete) (hst : s.master.rawStatus = .ok)
    (ha : s.master.ch.active = false) (hrx : s.master.rxBuffer = frameEncode q) :
    ∃ t, faithfulTurn .master s = .next t ∧ TurnTaken s t x p q .master 0 := by
  have succeeds := exec_mEvaluate_valid (s := s) hf hs (by simp [hatt]) hst ha
    (by rw [hrx]; exact frameValid_frameEncode q)
  rw [hrx, framePayload_frameEncode] at succeeds
  exact ⟨_, (if_pos hs).trans succeeds, { he with }, .judged rfl hn rfl, slave_stage_kept rfl, rfl⟩

theorem faithfulTurn_taken {r : Role} {n : Nat} (h : stageOf s x p q r (n + 1)) :
    ∃ t, faithfulTurn r s = .next t ∧ TurnTaken s t x p q r n := by
  cases r with
  | master => cases h with
    | waiting hf hs hn hc hx => exact faithfulTurn_master_completes he hf hs hn hc hx
    | holding hf hs hn hatt hst ha hrx => exact faithfulTurn_master_succeeds he hf hs hn hatt hst ha hrx
  | slave => cases h with
    | waiting hf hs hc hx => exact faithfulTurn_slave_completes he hf hs hc hx
    | holding hf hs hst ha hrx => exact faithfulTurn_slave_reports he hf hs hst ha hrx

end

/-- Each side takes its turns, in any order, and reports at the last of them: `dedup` keeps each side's last turn. -/
theorem faithfulTurns_taken {turns : List Role} {s : State} {x : Exchange} {p q : Payload}
    (he : FaithfulExchange s x p q) (h : ∀ r, stageOf s x p q r (turns.count r)) :
    ∃ t, faithfulTurns turns s = .next t ∧ (∀ r, stageOf t x p q r 0) ∧
      t.outputs = s.outputs ++ turns.dedup.map (faithfulReport p q) := by
  induction turns generalizing s with
  | nil => exact ⟨s, rfl, h, by simp⟩
  | cons r rest ih =>
    have hr := h r
    rw [List.count_cons_self] at hr
    obtain ⟨t, ht, turn⟩ := faithfulTurn_taken he hr
    have stages : ∀ r', stageOf t x p q r' (rest.count r') := fun r' => by
      by_cases e : r' = r
      · subst e; exact turn.stage
      · exact turn.other r' e _ (List.count_cons_of_ne (Ne.symm e) ▸ h r')
    obtain ⟨u, hu, hdone, hout⟩ := ih turn.exchange stages
    refine ⟨u, (andThen_next ht _).trans hu, hdone, ?_⟩
    rw [hout, turn.outputs]
    by_cases hm : r ∈ rest
    · rw [List.dedup_cons_of_mem hm, if_neg (List.count_pos_iff.2 hm).ne', List.append_nil]
    · rw [List.dedup_cons_of_notMem hm, if_pos (List.count_eq_zero.2 hm), List.map_cons, List.append_assoc]
      rfl

/-- Of two turns of each side, in any order, the side that takes the last one reports last. -/
theorem dedup_of_two_turns_each {turns : List Role} (h : turns.Perm [.slave, .slave, .master, .master]) :
    turns.dedup = if turns.getLast? = some .master then [.slave, .master] else [.master, .slave] := by
  have orders : ∀ l ∈ List.permutations' [Role.slave, .slave, .master, .master],
      l.dedup = if l.getLast? = some .master then [.slave, .master] else [.master, .slave] := by decide
  exact orders turns (List.mem_permutations'.2 h)

/-! ### The start of a faithful exchange -/

/-- The slave is armed with `q` and the master has been given `p`. -/
def bothReady (s : State) (p q : Payload) : State :=
  slaveArmed (masterSent s p) q

/-- The two records that lead there may come in either order. -/
theorem execAll_bothReady {s : State} (hm : faultFree s .master) (hv : faultFree s .slave)
    (hout : inSession s.master.state = false) (hidle : s.slave.state = .idle) (hva : s.slave.ch.active = false)
    (sendFirst : Bool) (p q : Payload) :
    execAll (if sendFirst then [.mSend p, .sProvide q] else [.sProvide q, .mSend p]) s = .next (bothReady s p q) := by
  cases sendFirst with
  | true =>
    exact (andThen_next (exec_mSend_outside hm hout p) _).trans
      (andThen_next (exec_sProvide_idle (s := masterSent s p) hv hidle hva q) _)
  | false =>
    exact (andThen_next (exec_sProvide_idle hv hidle hva q) _).trans
      (andThen_next (exec_mSend_outside (s := slaveArmed s q) hm hout p) _)

/-- The master's payload does not change the handle its adapter returns. -/
theorem freshHandle_bothReady {s : State} (hout : inSession s.master.state = false) (p q : Payload) :
    freshHandle (bothReady s p q) .master = freshHandle s .master := by
  have hne : s.master.state ≠ .transferring := fun e => by rw [e] at hout; cases hout
  have taken : takenHandles s .master = takenHandles (bothReady s p q) .master := by
    simp only [takenHandles, handleInUse, if_neg hne]
    rfl
  simp only [freshHandle, taken]
  rfl

/-- The transfer just armed has exchanged no bytes, so the master's start is paired with it. -/
theorem pairableSlave_bothReady (s : State) (p q : Payload) :
    pairableSlave (bothReady s p q) = some (freshHandle s .slave) := by
  refine pairableSlave_of_active ⟨rfl, fun hm => ?_⟩
  have hmet : freshHandle s .slave ∈ removeHandle (freshHandle s .slave) s.xMet := mem_metIfCut hm
  exact ((mem_removeHandle _ _ _).1 hmet).2 rfl

/-- The exchange that the master's start begins then. -/
def exchangeOf (s : State) (p q : Payload) : Exchange :=
  { exchangeBegun (bothReady s p q) (freshHandle (bothReady s p q) .master) with
    m2s := xorBytes (frameEncode p) s.bus.corruptM2s }

theorem exchangeOf_hs (s : State) (p q : Payload) : (exchangeOf s p q).hs = some (freshHandle s .slave) :=
  pairableSlave_bothReady s p q

theorem exchangeOf_s2m (s : State) (p q : Payload) :
    (exchangeOf s p q).s2m = xorBytes (frameEncode q) s.bus.corruptS2m := by
  simp only [exchangeOf, exchangeBegun, pairableSlave_bothReady]
  rfl

theorem faithfulExchange_started {s : State} (hb : s.bus.reference = false) (hm : s.bus.corruptM2s = bytesOf 260 0)
    (hs : s.bus.corruptS2m = bytesOf 260 0) (p q : Payload) (now : Time) :
    FaithfulExchange (masterStarted (bothReady s p q) now) (exchangeOf s p q) p q where
  contract := hb
  pair := masterStarted_xPair (bothReady s p q) now
  toSlave := by rw [exchangeOf, hm]; exact xorBytes_zero _
  toMaster := by rw [exchangeOf_s2m, hs]; exact xorBytes_zero _
  met h hx := by
    cases (exchangeOf_hs s p q).symm.trans hx
    change freshHandle s .slave ∈ metBegun (bothReady s p q)
    rw [metBegun_paired (pairableSlave_bothReady s p q)]
    exact (mem_insertHandle _ _ _).2 (.inl rfl)

theorem stageOf_started {s : State} (hm : faultFree s .master) (hv : faultFree s .slave) (p q : Payload) (now : Time)
    (r : Role) : stageOf (masterStarted (bothReady s p q) now) (exchangeOf s p q) p q r 2 := by
  cases r with
  | master => exact .waiting hm rfl rfl (channelRuns_started _ _) rfl
  | slave => exact .waiting hv rfl (channelRuns_started _ _) (exchangeOf_hs s p q)

/-- The begin of the exchange, reported or not, finds the slave armed and leaves both sides waiting. -/
theorem begin_keeps_stages {s : State} {x : Exchange} {p q : Payload} (he : FaithfulExchange s x p q)
    (h : ∀ r, stageOf s x p q r 2) (harmed : s.slave.state = .armed) (hfirst : s.slave.ch.begun = false)
    (begins : Bool) :
    ∃ t, (if begins then exec (.sBegin s.slave.handle) s else .next s) = .next t ∧ FaithfulExchange t x p q ∧
      (∀ r, stageOf t x p q r 2) ∧ t.outputs = s.outputs := by
  cases begins with
  | false => exact ⟨s, rfl, he, h, rfl⟩
  | true =>
    have hm := h .master
    cases h .slave with
    | waiting hf hs hc hx =>
      have clocking : x.hm ∈ s.master.ch.pending := by
        cases hm with
        | waiting _ _ _ hmc hmx => exact hmx ▸ hmc.pending
      have deliverable : beginDeliverable s s.slave.handle = true :=
        (beginDeliverable_iff s _).2 ⟨hc.active, hc.handle, hfirst, x, he.pair, clocking⟩
      refine ⟨_, exec_sBegin_accepted hf deliverable ⟨harmed, rfl⟩, { he with }, ?_, rfl⟩
      rintro (_ | _)
      · exact hm
      · exact .waiting hf rfl ⟨hc.active, hc.handle, hc.pending⟩ hx

/-! ### The obligations of 44_master_protocol.md on sessions -/

/-- Settles O58: however it begins, both sides come to wait for their completions in one faithful exchange, and each takes its
two turns whatever the other does. -/
theorem faithfulSessionSucceeds : Obligations.FaithfulSessionSucceeds := by
  intro sendFirst begins turns p q now s hm hv hout hidle hma hva hbus hturns
  let u := masterStarted (bothReady s p q) now
  have ready := execAll_bothReady hm hv hout hidle hva sendFirst p q
  have start : exec (.mEncode now) (bothReady s p q) = .next u := exec_mEncode_idle (s := bothReady s p q) hm rfl hma now
  have exchange : FaithfulExchange u (exchangeOf s p q) p q :=
    faithfulExchange_started (congrArg BusParams.reference hbus) (congrArg BusParams.corruptM2s hbus)
      (congrArg BusParams.corruptS2m hbus) p q now
  have outputs : u.outputs = s.outputs ++
      [.dmaStart .slave (freshHandle s .slave), .dmaStart .master (freshHandle s .master)] := by
    rw [← freshHandle_bothReady hout p q, List.append_cons]; rfl
  obtain ⟨v, hbegin, hv', stages, hkept⟩ :=
    begin_keeps_stages exchange (stageOf_started hm hv p q now) rfl rfl begins
  have counts : ∀ r, stageOf v (exchangeOf s p q) p q r (turns.count r) := fun r => by
    rw [hturns.count_eq]
    cases r <;> exact stages _
  obtain ⟨t, hrun, done, hout'⟩ := faithfulTurns_taken hv' counts
  refine ⟨t, ?_, ?_⟩
  · exact (andThen_next ready _).trans ((andThen_next start _).trans ((andThen_next hbegin _).trans hrun))
  · cases done .master with
    | judged hstate hattempts hpayload => cases done .slave with
      | judged hsidle hsout hsvalid =>
        refine ⟨hstate, hattempts, hpayload, hsidle, hsout, hsvalid, ?_⟩
        rw [hout', hkept, outputs, dedup_of_two_turns_each hturns]
        split <;> rfl

/-- Settles O59: each attempt but the one at the limit is retried, and that one ends the session. -/
theorem allAttemptsTimedOutFails : Obligations.AllAttemptsTimedOutFails := by
  intro tries s hf hs ha h1
  have ready : AttemptReady s := ⟨hf, hs, ha⟩
  refine ⟨fun hlt => ?_, fun hlen hpos => ?_⟩
  · obtain ⟨t, ht, e⟩ := timedOutAttempts_retry (tries := tries) ready (by omega)
    exact ⟨t, ht, e.ready.encoding, by rw [e.attempts]; omega, e.payload, e.reports, e.starts⟩
  · obtain rfl | ⟨init, last, rfl⟩ := List.eq_nil_or_concat' tries
    · rw [List.length_nil] at hlen; omega
    · rw [List.length_append, List.length_singleton] at hlen
      obtain ⟨t, ht, e⟩ := timedOutAttempts_retry (tries := init) ready (by omega)
      have limit : t.master.attempts = s.master.cfg.maxAttempts := by rw [e.attempts]; omega
      obtain ⟨u, hu, hstate, hout, hatt, hlast, hrep, hst⟩ :=
        timedOutAttempt_fails e.ready (limit.trans (congrArg _ e.cfg.symm)) last.1 last.2
      refine ⟨u, ?_, hstate, hout, hatt.trans limit, limit ▸ hlast, by rw [hrep, e.reports], by rw [hst, e.starts]; omega⟩
      rw [timedOutAttempts_append, andThen_next ht]
      exact andThen_next hu _

end Sys2Proof.Machine

/-! The retry policy as a record (45_retry_policy.md): what `RP.DECIDE` answers, for every outcome and every count. -/

namespace Sys2Proof.Machine

/-! ### `RP.DECIDE` (R170, R172) -/

theorem exec_rpDecide (o : TransferOutcome) (a m : Nat) (s : State) :
    exec (.rpDecide o a m) s = .next (s.emit (.decision (policyDecide o a m))) :=
  rfl

theorem policyDecide_eq_retry_iff (o : TransferOutcome) (a m : Nat) :
    policyDecide o a m = .retry ↔ retryable o = true ∧ a < m := by
  unfold policyDecide
  split
  · next h => exact iff_of_true rfl h
  · next h => exact iff_of_false nofun h

/-! ### The obligations of 45_retry_policy.md -/

/-- Settles O20: the decision is the policy's, which retries below the limit the outcomes that `retryable_iff` lists. -/
theorem rpDecideResult : Obligations.RpDecideResult := by
  intro o a m s
  refine ⟨policyDecide o a m, exec_rpDecide o a m s, ?_⟩
  rw [policyDecide_eq_retry_iff, retryable_iff]

end Sys2Proof.Machine

/-! Reset (70_reset_and_hazards.md): the state the machine starts in, and what `SYS.RESET` of one instance does. -/

namespace Sys2Proof.Machine

/-! ### `SYS.RESET` (R200 to R204) -/

/-- `SYS.RESET` has no owner that a fault mark could stop (R200; log 8). -/
theorem exec_sysReset_master (s : State) :
    exec (.sysReset .master) s = .next (s.withMaster (masterReset s.master s.free)).drawn :=
  rfl

theorem exec_sysReset_slave (s : State) :
    exec (.sysReset .slave) s = .next (s.withSlave (slaveReset s.slave s.free)).drawn :=
  rfl

/-- The transfer that a reset cuts off joins those the adapter may still run (R204; log 18). -/
theorem mem_channelReset_orphans (c : Channel) (h : Handle) :
    h ∈ (channelReset c).orphans ↔ h ∈ c.orphans ∨ c.active = true ∧ h = c.handle := by
  by_cases ha : c.active = true
  · simp [channelReset, ha, mem_insertHandle, or_comm]
  · simp [channelReset, ha]

theorem payloadRequest_iff (s : State) : payloadRequest s = true ↔ s.slave.state = .idle :=
  beq_iff_eq

/-! ### The obligations of 70_reset_and_hazards.md -/

/-- Settles O21: the registers hold the stated values, and the payload is requested because the slave is idle (R202). -/
theorem stateAfterReset : Obligations.StateAfterReset :=
  ⟨rfl, rfl, rfl, rfl, rfl, rfl, rfl, rfl, rfl, rfl, rfl, (payloadRequest_iff _).2 rfl⟩

/-- Settles O22: the reset writes the registers of its own instance, whose arrays are those left open, and of the channel
only what `channelReset` writes. -/
theorem resetOfOneInstance : Obligations.ResetOfOneInstance := by
  intro s
  constructor
  · obtain ⟨hbus, hinput⟩ := (OpenMove.resetMaster (s := s)).bus_and_input_eq
    exact ⟨_, exec_sysReset_master s, rfl, mem_channelReset_orphans s.master.ch, rfl, hbus, rfl, hinput,
      bytesKept_of_master rfl (fun h => absurd (by simp) h) (fun h => absurd (by simp) h) (fun h => absurd (by simp) h)
        fun h => absurd (by simp) h⟩
  · obtain ⟨hbus, hinput⟩ := (OpenMove.resetSlave (s := s)).bus_and_input_eq
    exact ⟨_, exec_sysReset_slave s, rfl, mem_channelReset_orphans s.slave.ch, rfl, hbus, rfl, hinput,
      bytesKept_of_slave rfl (fun h => absurd (by simp) h) (fun h => absurd (by simp) h) fun h => absurd (by simp) h⟩

end Sys2Proof.Machine
